-- ==== Sys2Proof/Word.lean ====
section
/-!
DEFINITION. The two word types of the block (00_scope R6, R11): the byte and the 16-bit address. Arithmetic on
either wraps (modulo 256, modulo 65536), which is what BitVec arithmetic does.
-/

namespace Sys2Proof

/-- `u8`: the width of A, X, Y, SP, P and of every memory access (R6, R53). -/
abbrev Byte := BitVec 8

/-- `u16`: the width of PC and of every address the CPU computes (R6). -/
abbrev Addr := BitVec 16

end Sys2Proof
end

