-- ==== Sys2Proof/Config.lean ====
section
/-!
DEFINITION. What the spec leaves to the platform: the reset parameters (00_scope R7, 70 R454) and the behaviour of the
host's hook callbacks (HOOKS, R7, 20_memory R60). The one free value, `Config.hookOutcome`, has no body.
-/

namespace Sys2Proof

/-- The register snapshot of 10_state R39: what `register_snapshot()` answers and what a callback is passed (R69). -/
structure Snapshot where
  a : Byte
  x : Byte
  y : Byte
  sp : Byte
  pc : Addr
  p : Byte
deriving DecidableEq, Repr

/-- One call of a callback: which callback (the model names a callback by a number; its body is the host's, R54), and
the arguments of R60: the address, `current_value` (R61) and the snapshot (R69). -/
structure HookCall where
  callback : Nat
  address : Addr
  value : Byte
  snapshot : Snapshot
deriving DecidableEq, Repr

/-- The three outcomes of a callback (R60): `None`, `Some(v)`, `Fail`. The override is a number, so that one outside
0–255 can be returned (it is treated as `Fail`). -/
inductive HookOutcome where
  | noOverride
  | override (v : Nat)
  | failed
deriving DecidableEq, Repr, Inhabited

/-- `RESET_A` to `RESET_N` of R7: the values `reset()` leaves in the registers and flags the source does not name. -/
structure ResetParams where
  a : Byte
  x : Byte
  y : Byte
  sp : Byte
  c : Bool
  z : Bool
  v : Bool
  n : Bool
deriving DecidableEq, Repr

/-- DESIGN CHOICE (log entry 1), unsafe: the spec leaves these open and names these suggested defaults (R41, D18). The
reset operation takes the parameters as an argument; only `State.reset` and `State.constructed` rest on these values. -/
def Config.resetDefaults : ResetParams :=
  { a := 0x00, x := 0x00, y := 0x00, sp := 0xFD, c := false, z := false, v := false, n := false }

/-- DESIGN CHOICE (log entry 3), safe: what a callback answers when State holds no further host move. The behaviour of a
callback is the host's (R60, R70), so the value is free: the first argument is a counter of State that is advanced at
each use, the second is what the callback was called with. -/
opaque Config.hookOutcome : Nat → HookCall → HookOutcome

end Sys2Proof
end

