-- ==== Sys2Proof/Syntax.lean ====
section
/-!
DEFINITION. The instructions as data: the thirteen addressing-mode tags (30_encoding R102), the 57 operation tags
(R104), the operand forms, and `Instr`, one constructor per operation with its operands. A row of
spec/opcode_table.json is an operation together with a mode; the ILLEGAL rows are one constructor that keeps its byte.
-/

namespace Sys2Proof

/-- The addressing-mode tags of R102. -/
inductive Mode where
  | imp | acc | imm | zp | zpx | zpy | abs | abx | aby | ind | izx | izy | rel
deriving DecidableEq, Repr

/-- How many operand bytes follow the opcode byte in each mode (R102). -/
def Mode.operandBytes : Mode → Nat
  | .imp | .acc => 0
  | .imm | .zp | .zpx | .zpy | .izx | .izy | .rel => 1
  | .abs | .abx | .aby | .ind => 2

/-- The operation tags of R104: one per documented mnemonic, and ILLEGAL. -/
inductive Operation where
  | adc | and | asl | bcc | bcs | beq | bit | bmi | bne | bpl | brk | bvc | bvs | clc | cld | cli | clv | cmp | cpx
  | cpy | dec | dex | dey | eor | inc | inx | iny | jmp | jsr | lda | ldx | ldy | lsr | nop | ora | pha | php | pla
  | plp | rol | ror | rti | rts | sbc | sec | sed | sei | sta | stx | sty | tax | tay | tsx | txa | txs | tya
  | illegal
deriving DecidableEq, Repr

/-- The operand forms that have an effective address (R143 to R149), with their operand bytes assembled (R103). -/
inductive MemMode where
  | zp (b1 : Byte)
  | zpx (b1 : Byte)
  | zpy (b1 : Byte)
  | abs (w : Addr)
  | abx (w : Addr)
  | aby (w : Addr)
  | izx (b1 : Byte)
  | izy (b1 : Byte)
deriving DecidableEq, Repr

/-- An operand that is read: the byte itself (IMM, R142) or the byte at an effective address. -/
inductive ReadMode where
  | imm (b1 : Byte)
  | mem (m : MemMode)
deriving DecidableEq, Repr

/-- An operand that is read and written back: A (ACC, R141) or the byte at an effective address. -/
inductive RmwMode where
  | acc
  | mem (m : MemMode)
deriving DecidableEq, Repr

/-- The two operand forms of JMP: the target itself (ABS, R145) or the address of a pointer to it (IND, R147). -/
inductive JumpMode where
  | abs (w : Addr)
  | ind (w : Addr)
deriving DecidableEq, Repr

/-- The mode tag of an operand form. -/
def MemMode.tag : MemMode → Mode
  | .zp _ => .zp
  | .zpx _ => .zpx
  | .zpy _ => .zpy
  | .abs _ => .abs
  | .abx _ => .abx
  | .aby _ => .aby
  | .izx _ => .izx
  | .izy _ => .izy

/-- The mode tag of a read operand. -/
def ReadMode.tag : ReadMode → Mode
  | .imm _ => .imm
  | .mem m => m.tag

/-- The mode tag of a read-modify-write operand. -/
def RmwMode.tag : RmwMode → Mode
  | .acc => .acc
  | .mem m => m.tag

/-- The mode tag of a jump operand. -/
def JumpMode.tag : JumpMode → Mode
  | .abs _ => .abs
  | .ind _ => .ind

/-- The instructions, one constructor per mnemonic of the opcode table (DESIGN CHOICE, log entry 12, safe). Which operand forms an operation really has is `Instr.wf` (WellFormed.lean); the branch operand
is the displacement byte of R103. -/
inductive Instr where
  -- loads, stores and transfers (41_load_store_transfer)
  | lda (m : ReadMode)
  | ldx (m : ReadMode)
  | ldy (m : ReadMode)
  | sta (m : MemMode)
  | stx (m : MemMode)
  | sty (m : MemMode)
  | tax
  | tay
  | txa
  | tya
  | tsx
  | txs
  -- arithmetic, compare, increment and decrement (42_arithmetic)
  | adc (m : ReadMode)
  | sbc (m : ReadMode)
  | cmp (m : ReadMode)
  | cpx (m : ReadMode)
  | cpy (m : ReadMode)
  | inc (m : MemMode)
  | dec (m : MemMode)
  | inx
  | iny
  | dex
  | dey
  -- logic, bit test, shifts and rotates (43_logic_shift)
  | and (m : ReadMode)
  | ora (m : ReadMode)
  | eor (m : ReadMode)
  | bit (m : MemMode)
  | asl (m : RmwMode)
  | lsr (m : RmwMode)
  | rol (m : RmwMode)
  | ror (m : RmwMode)
  -- control transfer (44_control_transfer)
  | bcc (b1 : Byte)
  | bcs (b1 : Byte)
  | beq (b1 : Byte)
  | bne (b1 : Byte)
  | bmi (b1 : Byte)
  | bpl (b1 : Byte)
  | bvc (b1 : Byte)
  | bvs (b1 : Byte)
  | jmp (m : JumpMode)
  | jsr (w : Addr)
  | rts
  | brk
  | rti
  | nop
  -- stack and flags (45_stack_flags)
  | pha
  | php
  | pla
  | plp
  | clc
  | sec
  | cli
  | sei
  | cld
  | sed
  | clv
  -- the 105 bytes outside the documented set (46_illegal)
  | illegal (op : Byte)
deriving DecidableEq, Repr

/-- The operation tag of an instruction (R104). -/
def Instr.operation : Instr → Operation
  | .lda _ => .lda
  | .ldx _ => .ldx
  | .ldy _ => .ldy
  | .sta _ => .sta
  | .stx _ => .stx
  | .sty _ => .sty
  | .tax => .tax
  | .tay => .tay
  | .txa => .txa
  | .tya => .tya
  | .tsx => .tsx
  | .txs => .txs
  | .adc _ => .adc
  | .sbc _ => .sbc
  | .cmp _ => .cmp
  | .cpx _ => .cpx
  | .cpy _ => .cpy
  | .inc _ => .inc
  | .dec _ => .dec
  | .inx => .inx
  | .iny => .iny
  | .dex => .dex
  | .dey => .dey
  | .and _ => .and
  | .ora _ => .ora
  | .eor _ => .eor
  | .bit _ => .bit
  | .asl _ => .asl
  | .lsr _ => .lsr
  | .rol _ => .rol
  | .ror _ => .ror
  | .bcc _ => .bcc
  | .bcs _ => .bcs
  | .beq _ => .beq
  | .bne _ => .bne
  | .bmi _ => .bmi
  | .bpl _ => .bpl
  | .bvc _ => .bvc
  | .bvs _ => .bvs
  | .jmp _ => .jmp
  | .jsr _ => .jsr
  | .rts => .rts
  | .brk => .brk
  | .rti => .rti
  | .nop => .nop
  | .pha => .pha
  | .php => .php
  | .pla => .pla
  | .plp => .plp
  | .clc => .clc
  | .sec => .sec
  | .cli => .cli
  | .sei => .sei
  | .cld => .cld
  | .sed => .sed
  | .clv => .clv
  | .illegal _ => .illegal

/-- The addressing-mode tag of an instruction. -/
def Instr.mode : Instr → Mode
  | .lda m | .ldx m | .ldy m | .adc m | .sbc m | .cmp m | .cpx m | .cpy m | .and m | .ora m | .eor m => m.tag
  | .sta m | .stx m | .sty m | .inc m | .dec m | .bit m => m.tag
  | .asl m | .lsr m | .rol m | .ror m => m.tag
  | .bcc _ | .bcs _ | .beq _ | .bne _ | .bmi _ | .bpl _ | .bvc _ | .bvs _ => .rel
  | .jmp m => m.tag
  | .jsr _ => .abs
  | .tax | .tay | .txa | .tya | .tsx | .txs | .inx | .iny | .dex | .dey | .rts | .brk | .rti | .nop | .pha | .php
  | .pla | .plp | .clc | .sec | .cli | .sei | .cld | .sed | .clv | .illegal _ => .imp

end Sys2Proof
end

