-- ==== Sys2Proof/WellFormed.lean ====
section
/-!
DEFINITION. Which instructions exist. The modes of each operation are the ones its own rule lists under "Operands" and
"Encoding" (41 to 46), written independently of the opcode map of Decode.lean; the ILLEGAL bytes are the list of
30_encoding R107.
-/

namespace Sys2Proof

/-- The addressing modes each operation's rule gives it. -/
def Operation.modes : Operation → List Mode
  | .lda | .adc | .sbc | .cmp | .and | .ora | .eor => [.imm, .zp, .zpx, .abs, .abx, .aby, .izx, .izy]
  | .ldx => [.imm, .zp, .zpy, .abs, .aby]
  | .ldy => [.imm, .zp, .zpx, .abs, .abx]
  | .sta => [.zp, .zpx, .abs, .abx, .aby, .izx, .izy]
  | .stx => [.zp, .zpy, .abs]
  | .sty => [.zp, .zpx, .abs]
  | .cpx | .cpy => [.imm, .zp, .abs]
  | .inc | .dec => [.zp, .zpx, .abs, .abx]
  | .bit => [.zp, .abs]
  | .asl | .lsr | .rol | .ror => [.acc, .zp, .zpx, .abs, .abx]
  | .bcc | .bcs | .beq | .bne | .bmi | .bpl | .bvc | .bvs => [.rel]
  | .jmp => [.abs, .ind]
  | .jsr => [.abs]
  | .tax | .tay | .txa | .tya | .tsx | .txs | .inx | .iny | .dex | .dey | .rts | .brk | .rti | .nop | .pha | .php
  | .pla | .plp | .clc | .sec | .cli | .sei | .cld | .sed | .clv | .illegal => [.imp]

/-- The 105 opcode bytes that carry no documented instruction (R107). -/
def illegalBytes : List Byte :=
  [0x02, 0x03, 0x04, 0x07, 0x0B, 0x0C, 0x0F, 0x12, 0x13, 0x14, 0x17, 0x1A, 0x1B, 0x1C, 0x1F, 0x22, 0x23, 0x27, 0x2B,
    0x2F, 0x32, 0x33, 0x34, 0x37, 0x3A, 0x3B, 0x3C, 0x3F] ++
  [0x42, 0x43, 0x44, 0x47, 0x4B, 0x4F, 0x52, 0x53, 0x54, 0x57, 0x5A, 0x5B, 0x5C, 0x5F, 0x62, 0x63, 0x64, 0x67, 0x6B,
    0x6F, 0x72, 0x73, 0x74, 0x77, 0x7A, 0x7B, 0x7C, 0x7F] ++
  [0x80, 0x82, 0x83, 0x87, 0x89, 0x8B, 0x8F, 0x92, 0x93, 0x97, 0x9B, 0x9C, 0x9E, 0x9F, 0xA3, 0xA7, 0xAB, 0xAF, 0xB2,
    0xB3, 0xB7, 0xBB, 0xBF] ++
  [0xC2, 0xC3, 0xC7, 0xCB, 0xCF, 0xD2, 0xD3, 0xD4, 0xD7, 0xDA, 0xDB, 0xDC, 0xDF, 0xE2, 0xE3, 0xE7, 0xEB, 0xEF, 0xF2,
    0xF3, 0xF4, 0xF7, 0xFA, 0xFB, 0xFC, 0xFF]

/-- The byte check of ILLEGAL: its byte is one of R107's list. Every other instruction passes. -/
def Instr.byteOk : Instr → Bool
  | .illegal op => illegalBytes.contains op
  | _ => true

/-- An instruction of the opcode table: its mode is one its operation has, and an ILLEGAL's byte is an ILLEGAL byte. -/
def Instr.wf (i : Instr) : Bool :=
  i.operation.modes.contains i.mode && i.byteOk

end Sys2Proof
end

