-- ==== Sys2Proof/Decode.lean ====
section
/-!
DEFINITION. The opcode table ROM (30_encoding R101, R106), the decoder over any bytes, and the encoder. The ROM is the
map of R106 by opcode byte; the encoder is written from R106's second table, by mnemonic. Operand assembly is R103.
-/

namespace Sys2Proof

/-- The penalty column of R111. -/
inductive Penalty where
  | none | pageCross | branch
deriving DecidableEq, Repr

/-- One entry of the opcode table ROM (R101). The mnemonic is `Operation.mnemonic` of the operation tag. -/
structure Descriptor where
  operation : Operation
  mode : Mode
  operandBytes : Nat
  baseCycles : Nat
  penalty : Penalty
deriving DecidableEq, Repr

/-- Why a list of bytes is not an instruction: it ends before the instruction does (`truncated`), or the ROM pairs an
operation with a mode that has no operand form (`noSuchForm`; no entry of R106 does, so no bytes are rejected by it). -/
inductive DecodeError where
  | truncated | noSuchForm
deriving DecidableEq, Repr

/-- The mnemonic text of each operation tag (R104; `???` for ILLEGAL, R107). -/
def Operation.mnemonic : Operation → String
  | .adc => "ADC" | .and => "AND" | .asl => "ASL" | .bcc => "BCC" | .bcs => "BCS" | .beq => "BEQ" | .bit => "BIT"
  | .bmi => "BMI" | .bne => "BNE" | .bpl => "BPL" | .brk => "BRK" | .bvc => "BVC" | .bvs => "BVS" | .clc => "CLC"
  | .cld => "CLD" | .cli => "CLI" | .clv => "CLV" | .cmp => "CMP" | .cpx => "CPX" | .cpy => "CPY" | .dec => "DEC"
  | .dex => "DEX" | .dey => "DEY" | .eor => "EOR" | .inc => "INC" | .inx => "INX" | .iny => "INY" | .jmp => "JMP"
  | .jsr => "JSR" | .lda => "LDA" | .ldx => "LDX" | .ldy => "LDY" | .lsr => "LSR" | .nop => "NOP" | .ora => "ORA"
  | .pha => "PHA" | .php => "PHP" | .pla => "PLA" | .plp => "PLP" | .rol => "ROL" | .ror => "ROR" | .rti => "RTI"
  | .rts => "RTS" | .sbc => "SBC" | .sec => "SEC" | .sed => "SED" | .sei => "SEI" | .sta => "STA" | .stx => "STX"
  | .sty => "STY" | .tax => "TAX" | .tay => "TAY" | .tsx => "TSX" | .txa => "TXA" | .txs => "TXS" | .tya => "TYA"
  | .illegal => "???"

/-! ## The ROM -/

/-- A row with no cycle penalty. -/
def row (o : Operation) (m : Mode) (cycles : Nat) : Descriptor :=
  ⟨o, m, m.operandBytes, cycles, .none⟩

/-- A row that pays for a page cross: a `+` in R106 on an indexed read (R111). -/
def crossRow (o : Operation) (m : Mode) (cycles : Nat) : Descriptor :=
  ⟨o, m, m.operandBytes, cycles, .pageCross⟩

/-- A branch row: a `+` in R106 on mode REL (R111). -/
def branchRow (o : Operation) (cycles : Nat) : Descriptor :=
  ⟨o, .rel, Mode.rel.operandBytes, cycles, .branch⟩

/-- The descriptor of every ILLEGAL byte (R107). -/
def undoc : Descriptor :=
  ⟨.illegal, .imp, 0, 1, .none⟩

/-- Opcode bytes 0x00 to 0x0F (R106). -/
def opcodeRom0 : List Descriptor :=
  [row .brk .imp 7, row .ora .izx 6, undoc, undoc,
    undoc, row .ora .zp 3, row .asl .zp 5, undoc,
    row .php .imp 3, row .ora .imm 2, row .asl .acc 2, undoc,
    undoc, row .ora .abs 4, row .asl .abs 6, undoc]

/-- Opcode bytes 0x10 to 0x1F (R106). -/
def opcodeRom1 : List Descriptor :=
  [branchRow .bpl 2, crossRow .ora .izy 5, undoc, undoc,
    undoc, row .ora .zpx 4, row .asl .zpx 6, undoc,
    row .clc .imp 2, crossRow .ora .aby 4, undoc, undoc,
    undoc, crossRow .ora .abx 4, row .asl .abx 7, undoc]

/-- Opcode bytes 0x20 to 0x2F (R106). -/
def opcodeRom2 : List Descriptor :=
  [row .jsr .abs 6, row .and .izx 6, undoc, undoc,
    row .bit .zp 3, row .and .zp 3, row .rol .zp 5, undoc,
    row .plp .imp 4, row .and .imm 2, row .rol .acc 2, undoc,
    row .bit .abs 4, row .and .abs 4, row .rol .abs 6, undoc]

/-- Opcode bytes 0x30 to 0x3F (R106). -/
def opcodeRom3 : List Descriptor :=
  [branchRow .bmi 2, crossRow .and .izy 5, undoc, undoc,
    undoc, row .and .zpx 4, row .rol .zpx 6, undoc,
    row .sec .imp 2, crossRow .and .aby 4, undoc, undoc,
    undoc, crossRow .and .abx 4, row .rol .abx 7, undoc]

/-- Opcode bytes 0x40 to 0x4F (R106). -/
def opcodeRom4 : List Descriptor :=
  [row .rti .imp 6, row .eor .izx 6, undoc, undoc,
    undoc, row .eor .zp 3, row .lsr .zp 5, undoc,
    row .pha .imp 3, row .eor .imm 2, row .lsr .acc 2, undoc,
    row .jmp .abs 3, row .eor .abs 4, row .lsr .abs 6, undoc]

/-- Opcode bytes 0x50 to 0x5F (R106). -/
def opcodeRom5 : List Descriptor :=
  [branchRow .bvc 2, crossRow .eor .izy 5, undoc, undoc,
    undoc, row .eor .zpx 4, row .lsr .zpx 6, undoc,
    row .cli .imp 2, crossRow .eor .aby 4, undoc, undoc,
    undoc, crossRow .eor .abx 4, row .lsr .abx 7, undoc]

/-- Opcode bytes 0x60 to 0x6F (R106). -/
def opcodeRom6 : List Descriptor :=
  [row .rts .imp 6, row .adc .izx 6, undoc, undoc,
    undoc, row .adc .zp 3, row .ror .zp 5, undoc,
    row .pla .imp 4, row .adc .imm 2, row .ror .acc 2, undoc,
    row .jmp .ind 5, row .adc .abs 4, row .ror .abs 6, undoc]

/-- Opcode bytes 0x70 to 0x7F (R106). -/
def opcodeRom7 : List Descriptor :=
  [branchRow .bvs 2, crossRow .adc .izy 5, undoc, undoc,
    undoc, row .adc .zpx 4, row .ror .zpx 6, undoc,
    row .sei .imp 2, crossRow .adc .aby 4, undoc, undoc,
    undoc, crossRow .adc .abx 4, row .ror .abx 7, undoc]

/-- Opcode bytes 0x80 to 0x8F (R106). -/
def opcodeRom8 : List Descriptor :=
  [undoc, row .sta .izx 6, undoc, undoc,
    row .sty .zp 3, row .sta .zp 3, row .stx .zp 3, undoc,
    row .dey .imp 2, undoc, row .txa .imp 2, undoc,
    row .sty .abs 4, row .sta .abs 4, row .stx .abs 4, undoc]

/-- Opcode bytes 0x90 to 0x9F (R106). -/
def opcodeRom9 : List Descriptor :=
  [branchRow .bcc 2, row .sta .izy 6, undoc, undoc,
    row .sty .zpx 4, row .sta .zpx 4, row .stx .zpy 4, undoc,
    row .tya .imp 2, row .sta .aby 5, row .txs .imp 2, undoc,
    undoc, row .sta .abx 5, undoc, undoc]

/-- Opcode bytes 0xA0 to 0xAF (R106). -/
def opcodeRomA : List Descriptor :=
  [row .ldy .imm 2, row .lda .izx 6, row .ldx .imm 2, undoc,
    row .ldy .zp 3, row .lda .zp 3, row .ldx .zp 3, undoc,
    row .tay .imp 2, row .lda .imm 2, row .tax .imp 2, undoc,
    row .ldy .abs 4, row .lda .abs 4, row .ldx .abs 4, undoc]

/-- Opcode bytes 0xB0 to 0xBF (R106). -/
def opcodeRomB : List Descriptor :=
  [branchRow .bcs 2, crossRow .lda .izy 5, undoc, undoc,
    row .ldy .zpx 4, row .lda .zpx 4, row .ldx .zpy 4, undoc,
    row .clv .imp 2, crossRow .lda .aby 4, row .tsx .imp 2, undoc,
    crossRow .ldy .abx 4, crossRow .lda .abx 4, crossRow .ldx .aby 4, undoc]

/-- Opcode bytes 0xC0 to 0xCF (R106). -/
def opcodeRomC : List Descriptor :=
  [row .cpy .imm 2, row .cmp .izx 6, undoc, undoc,
    row .cpy .zp 3, row .cmp .zp 3, row .dec .zp 5, undoc,
    row .iny .imp 2, row .cmp .imm 2, row .dex .imp 2, undoc,
    row .cpy .abs 4, row .cmp .abs 4, row .dec .abs 6, undoc]

/-- Opcode bytes 0xD0 to 0xDF (R106). -/
def opcodeRomD : List Descriptor :=
  [branchRow .bne 2, crossRow .cmp .izy 5, undoc, undoc,
    undoc, row .cmp .zpx 4, row .dec .zpx 6, undoc,
    row .cld .imp 2, crossRow .cmp .aby 4, undoc, undoc,
    undoc, crossRow .cmp .abx 4, row .dec .abx 7, undoc]

/-- Opcode bytes 0xE0 to 0xEF (R106). -/
def opcodeRomE : List Descriptor :=
  [row .cpx .imm 2, row .sbc .izx 6, undoc, undoc,
    row .cpx .zp 3, row .sbc .zp 3, row .inc .zp 5, undoc,
    row .inx .imp 2, row .sbc .imm 2, row .nop .imp 2, undoc,
    row .cpx .abs 4, row .sbc .abs 4, row .inc .abs 6, undoc]

/-- Opcode bytes 0xF0 to 0xFF (R106). -/
def opcodeRomF : List Descriptor :=
  [branchRow .beq 2, crossRow .sbc .izy 5, undoc, undoc,
    undoc, row .sbc .zpx 4, row .inc .zpx 6, undoc,
    row .sed .imp 2, crossRow .sbc .aby 4, undoc, undoc,
    undoc, crossRow .sbc .abx 4, row .inc .abx 7, undoc]

/-- The opcode table ROM, sixteen rows of sixteen descriptors (R36, R101, R106). -/
def opcodeRom : List (List Descriptor) :=
  [opcodeRom0, opcodeRom1, opcodeRom2, opcodeRom3, opcodeRom4, opcodeRom5, opcodeRom6, opcodeRom7] ++
  [opcodeRom8, opcodeRom9, opcodeRomA, opcodeRomB, opcodeRomC, opcodeRomD, opcodeRomE, opcodeRomF]

/-- `lookup(op)` (R105): the row is the high nibble and the column the low nibble, so it answers for every byte. -/
def lookup (op : Byte) : Descriptor :=
  ((opcodeRom.getD (op.toNat / 16) []).getD (op.toNat % 16) undoc)

/-! ## Operand assembly (R103) -/

/-- `hi:lo`, the 16-bit value of two bytes (R11). -/
def hiLo (hi lo : Byte) : Addr :=
  hi ++ lo

/-- Bits 15..8 of a 16-bit value: a page number (R15), or the high byte of an address. -/
def hiByte (a : Addr) : Byte :=
  a.extractLsb' 8 8

/-- Bits 7..0 of a 16-bit value. -/
def loByte (a : Addr) : Byte :=
  a.extractLsb' 0 8

/-- The form with an effective address that a mode and its operand bytes give, if the mode has one. -/
def MemMode.ofBytes (m : Mode) (b1 b2 : Byte) : Option MemMode :=
  match m with
  | .zp => some (.zp b1)
  | .zpx => some (.zpx b1)
  | .zpy => some (.zpy b1)
  | .abs => some (.abs (hiLo b2 b1))
  | .abx => some (.abx (hiLo b2 b1))
  | .aby => some (.aby (hiLo b2 b1))
  | .izx => some (.izx b1)
  | .izy => some (.izy b1)
  | .imp | .acc | .imm | .ind | .rel => none

/-- The read form of a mode: IMM, or a form with an effective address. -/
def ReadMode.ofBytes (m : Mode) (b1 b2 : Byte) : Option ReadMode :=
  match m with
  | .imm => some (.imm b1)
  | _ => (MemMode.ofBytes m b1 b2).map .mem

/-- The read-modify-write form of a mode: ACC, or a form with an effective address. -/
def RmwMode.ofBytes (m : Mode) (b1 b2 : Byte) : Option RmwMode :=
  match m with
  | .acc => some .acc
  | _ => (MemMode.ofBytes m b1 b2).map .mem

/-- The jump form of a mode. -/
def JumpMode.ofBytes (m : Mode) (b1 b2 : Byte) : Option JumpMode :=
  match m with
  | .abs => some (.abs (hiLo b2 b1))
  | .ind => some (.ind (hiLo b2 b1))
  | _ => none

/-! ## The decoder -/

/-- The instruction of a descriptor and its bytes: dispatch on the operation tag (R104), operands by the mode (R102).
The opcode byte itself is used by ILLEGAL alone. -/
def assemble (d : Descriptor) (op b1 b2 : Byte) : Option Instr :=
  match d.operation with
  | .lda => (ReadMode.ofBytes d.mode b1 b2).map .lda
  | .ldx => (ReadMode.ofBytes d.mode b1 b2).map .ldx
  | .ldy => (ReadMode.ofBytes d.mode b1 b2).map .ldy
  | .adc => (ReadMode.ofBytes d.mode b1 b2).map .adc
  | .sbc => (ReadMode.ofBytes d.mode b1 b2).map .sbc
  | .cmp => (ReadMode.ofBytes d.mode b1 b2).map .cmp
  | .cpx => (ReadMode.ofBytes d.mode b1 b2).map .cpx
  | .cpy => (ReadMode.ofBytes d.mode b1 b2).map .cpy
  | .and => (ReadMode.ofBytes d.mode b1 b2).map .and
  | .ora => (ReadMode.ofBytes d.mode b1 b2).map .ora
  | .eor => (ReadMode.ofBytes d.mode b1 b2).map .eor
  | .sta => (MemMode.ofBytes d.mode b1 b2).map .sta
  | .stx => (MemMode.ofBytes d.mode b1 b2).map .stx
  | .sty => (MemMode.ofBytes d.mode b1 b2).map .sty
  | .inc => (MemMode.ofBytes d.mode b1 b2).map .inc
  | .dec => (MemMode.ofBytes d.mode b1 b2).map .dec
  | .bit => (MemMode.ofBytes d.mode b1 b2).map .bit
  | .asl => (RmwMode.ofBytes d.mode b1 b2).map .asl
  | .lsr => (RmwMode.ofBytes d.mode b1 b2).map .lsr
  | .rol => (RmwMode.ofBytes d.mode b1 b2).map .rol
  | .ror => (RmwMode.ofBytes d.mode b1 b2).map .ror
  | .jmp => (JumpMode.ofBytes d.mode b1 b2).map .jmp
  | .jsr => some (.jsr (hiLo b2 b1))
  | .bcc => some (.bcc b1)
  | .bcs => some (.bcs b1)
  | .beq => some (.beq b1)
  | .bne => some (.bne b1)
  | .bmi => some (.bmi b1)
  | .bpl => some (.bpl b1)
  | .bvc => some (.bvc b1)
  | .bvs => some (.bvs b1)
  | .tax => some .tax
  | .tay => some .tay
  | .txa => some .txa
  | .tya => some .tya
  | .tsx => some .tsx
  | .txs => some .txs
  | .inx => some .inx
  | .iny => some .iny
  | .dex => some .dex
  | .dey => some .dey
  | .rts => some .rts
  | .brk => some .brk
  | .rti => some .rti
  | .nop => some .nop
  | .pha => some .pha
  | .php => some .php
  | .pla => some .pla
  | .plp => some .plp
  | .clc => some .clc
  | .sec => some .sec
  | .cli => some .cli
  | .sei => some .sei
  | .cld => some .cld
  | .sed => some .sed
  | .clv => some .clv
  | .illegal => some (.illegal op)

/-- Decode the instruction at the front of any list of bytes, and give the rest: the opcode byte alone fixes the length
(R100, R105). -/
def decodeBytes : List Byte → Except DecodeError (Instr × List Byte)
  | [] => .error .truncated
  | op :: rest =>
    let d := lookup op
    if rest.length < d.operandBytes then .error .truncated
    else
      match assemble d op (rest.getD 0 0) (rest.getD 1 0) with
      | some i => .ok (i, rest.drop d.operandBytes)
      | none => .error .noSuchForm

/-- Bits 8k+7..8k of a number, as a byte: how spec/opcode_table.json numbers the bytes of an instruction (R100). -/
def byteOfNat (w k : Nat) : Byte :=
  BitVec.ofNat 8 (w / 2 ^ (8 * k))

/-- The bytes of the longest instruction, three, read from the low `nbits` bits of a number; bits above are 0. -/
def bytesOfWord (nbits w : Nat) : List Byte :=
  let w' := w % 2 ^ nbits
  [byteOfNat w' 0, byteOfNat w' 1, byteOfNat w' 2]

/-- The instruction the decoder reads from an instruction whose bits are `w`, numbered as the opcode table numbers
them. -/
def decodeTableWord (nbits w : Nat) : Option Instr :=
  match decodeBytes (bytesOfWord nbits w) with
  | .ok (i, _) => some i
  | .error _ => none

/-! ## The encoder -/

/-- R106's second table: the opcode byte of each mode of each mnemonic. -/
def Operation.opcodes : Operation → List (Mode × Byte)
  | .adc => [(.izx, 0x61), (.zp, 0x65), (.imm, 0x69), (.abs, 0x6D), (.izy, 0x71), (.zpx, 0x75), (.aby, 0x79), (.abx, 0x7D)]
  | .and => [(.izx, 0x21), (.zp, 0x25), (.imm, 0x29), (.abs, 0x2D), (.izy, 0x31), (.zpx, 0x35), (.aby, 0x39), (.abx, 0x3D)]
  | .asl => [(.zp, 0x06), (.acc, 0x0A), (.abs, 0x0E), (.zpx, 0x16), (.abx, 0x1E)]
  | .bcc => [(.rel, 0x90)]
  | .bcs => [(.rel, 0xB0)]
  | .beq => [(.rel, 0xF0)]
  | .bit => [(.zp, 0x24), (.abs, 0x2C)]
  | .bmi => [(.rel, 0x30)]
  | .bne => [(.rel, 0xD0)]
  | .bpl => [(.rel, 0x10)]
  | .brk => [(.imp, 0x00)]
  | .bvc => [(.rel, 0x50)]
  | .bvs => [(.rel, 0x70)]
  | .clc => [(.imp, 0x18)]
  | .cld => [(.imp, 0xD8)]
  | .cli => [(.imp, 0x58)]
  | .clv => [(.imp, 0xB8)]
  | .cmp => [(.izx, 0xC1), (.zp, 0xC5), (.imm, 0xC9), (.abs, 0xCD), (.izy, 0xD1), (.zpx, 0xD5), (.aby, 0xD9), (.abx, 0xDD)]
  | .cpx => [(.imm, 0xE0), (.zp, 0xE4), (.abs, 0xEC)]
  | .cpy => [(.imm, 0xC0), (.zp, 0xC4), (.abs, 0xCC)]
  | .dec => [(.zp, 0xC6), (.abs, 0xCE), (.zpx, 0xD6), (.abx, 0xDE)]
  | .dex => [(.imp, 0xCA)]
  | .dey => [(.imp, 0x88)]
  | .eor => [(.izx, 0x41), (.zp, 0x45), (.imm, 0x49), (.abs, 0x4D), (.izy, 0x51), (.zpx, 0x55), (.aby, 0x59), (.abx, 0x5D)]
  | .inc => [(.zp, 0xE6), (.abs, 0xEE), (.zpx, 0xF6), (.abx, 0xFE)]
  | .inx => [(.imp, 0xE8)]
  | .iny => [(.imp, 0xC8)]
  | .jmp => [(.abs, 0x4C), (.ind, 0x6C)]
  | .jsr => [(.abs, 0x20)]
  | .lda => [(.izx, 0xA1), (.zp, 0xA5), (.imm, 0xA9), (.abs, 0xAD), (.izy, 0xB1), (.zpx, 0xB5), (.aby, 0xB9), (.abx, 0xBD)]
  | .ldx => [(.imm, 0xA2), (.zp, 0xA6), (.abs, 0xAE), (.zpy, 0xB6), (.aby, 0xBE)]
  | .ldy => [(.imm, 0xA0), (.zp, 0xA4), (.abs, 0xAC), (.zpx, 0xB4), (.abx, 0xBC)]
  | .lsr => [(.zp, 0x46), (.acc, 0x4A), (.abs, 0x4E), (.zpx, 0x56), (.abx, 0x5E)]
  | .nop => [(.imp, 0xEA)]
  | .ora => [(.izx, 0x01), (.zp, 0x05), (.imm, 0x09), (.abs, 0x0D), (.izy, 0x11), (.zpx, 0x15), (.aby, 0x19), (.abx, 0x1D)]
  | .pha => [(.imp, 0x48)]
  | .php => [(.imp, 0x08)]
  | .pla => [(.imp, 0x68)]
  | .plp => [(.imp, 0x28)]
  | .rol => [(.zp, 0x26), (.acc, 0x2A), (.abs, 0x2E), (.zpx, 0x36), (.abx, 0x3E)]
  | .ror => [(.zp, 0x66), (.acc, 0x6A), (.abs, 0x6E), (.zpx, 0x76), (.abx, 0x7E)]
  | .rti => [(.imp, 0x40)]
  | .rts => [(.imp, 0x60)]
  | .sbc => [(.izx, 0xE1), (.zp, 0xE5), (.imm, 0xE9), (.abs, 0xED), (.izy, 0xF1), (.zpx, 0xF5), (.aby, 0xF9), (.abx, 0xFD)]
  | .sec => [(.imp, 0x38)]
  | .sed => [(.imp, 0xF8)]
  | .sei => [(.imp, 0x78)]
  | .sta => [(.izx, 0x81), (.zp, 0x85), (.abs, 0x8D), (.izy, 0x91), (.zpx, 0x95), (.aby, 0x99), (.abx, 0x9D)]
  | .stx => [(.zp, 0x86), (.abs, 0x8E), (.zpy, 0x96)]
  | .sty => [(.zp, 0x84), (.abs, 0x8C), (.zpx, 0x94)]
  | .tax => [(.imp, 0xAA)]
  | .tay => [(.imp, 0xA8)]
  | .tsx => [(.imp, 0xBA)]
  | .txa => [(.imp, 0x8A)]
  | .txs => [(.imp, 0x9A)]
  | .tya => [(.imp, 0x98)]
  | .illegal => []

/-- The opcode byte of an instruction, if it has one. ILLEGAL keeps its own byte (R107). -/
def Instr.opcode? (i : Instr) : Option Byte :=
  match i with
  | .illegal op => if illegalBytes.contains op then some op else none
  | _ => i.operation.opcodes.lookup i.mode

/-- Two operand bytes, low byte first (R52, R100). -/
def addrBytes (w : Addr) : List Byte :=
  [loByte w, hiByte w]

/-- The operand bytes of a form with an effective address. -/
def MemMode.bytes : MemMode → List Byte
  | .zp b | .zpx b | .zpy b | .izx b | .izy b => [b]
  | .abs w | .abx w | .aby w => addrBytes w

/-- The operand bytes of a read operand. -/
def ReadMode.bytes : ReadMode → List Byte
  | .imm b => [b]
  | .mem m => m.bytes

/-- The operand bytes of a read-modify-write operand. -/
def RmwMode.bytes : RmwMode → List Byte
  | .acc => []
  | .mem m => m.bytes

/-- The operand bytes of a jump operand. -/
def JumpMode.bytes : JumpMode → List Byte
  | .abs w | .ind w => addrBytes w

/-- The operand bytes of an instruction, in the order they follow the opcode byte. -/
def Instr.operands : Instr → List Byte
  | .lda m | .ldx m | .ldy m | .adc m | .sbc m | .cmp m | .cpx m | .cpy m | .and m | .ora m | .eor m => m.bytes
  | .sta m | .stx m | .sty m | .inc m | .dec m | .bit m => m.bytes
  | .asl m | .lsr m | .rol m | .ror m => m.bytes
  | .bcc b | .bcs b | .beq b | .bne b | .bmi b | .bpl b | .bvc b | .bvs b => [b]
  | .jmp m => m.bytes
  | .jsr w => addrBytes w
  | .tax | .tay | .txa | .tya | .tsx | .txs | .inx | .iny | .dex | .dey | .rts | .brk | .rti | .nop | .pha | .php
  | .pla | .plp | .clc | .sec | .cli | .sei | .cld | .sed | .clv | .illegal _ => []

/-- The bytes of a well-formed instruction; an ill-formed one has none. -/
def encode (i : Instr) : List Byte :=
  match i.opcode? with
  | some op => op :: i.operands
  | none => []

/-- The descriptor of an instruction: what the ROM holds at its opcode byte. (An instruction that is not well formed has
no opcode byte, and none is decoded; it gets the ILLEGAL descriptor.) -/
def Instr.descriptor (i : Instr) : Descriptor :=
  match i.opcode? with
  | some op => lookup op
  | none => undoc

/-- How a step's cycle penalties come about: whether a branch was taken, and whether there was a page cross (R151). -/
structure Path where
  taken : Bool := false
  crossed : Bool := false
deriving DecidableEq, Repr

/-- The cycles a step consumes (40_execution_cycle R150). -/
def Instr.cycles (i : Instr) (p : Path) : Nat :=
  let d := i.descriptor
  d.baseCycles
    + (if d.penalty = .pageCross ∧ p.crossed then 1 else 0)
    + (if d.penalty = .branch ∧ p.taken then 1 else 0)
    + (if d.penalty = .branch ∧ p.taken ∧ p.crossed then 1 else 0)

end Sys2Proof
end

