-- ==== Sys2Proof/Machine/State.lean ====
section
/-!
DEFINITION. Everything the spec gives the machine (10_state; 20_memory sections 1 and 2), as plain data, with the
reasons a step can stop and the state after reset. The last four fields of `State` are the model's own: the host's
inputs (`host`, `consults`) and what the last call gave the host (`out`).
-/

namespace Sys2Proof.Machine

/-- The register file of R20 and the six stored flags of R28. B and U are not stored (R28). -/
structure RegFile where
  a : Byte
  x : Byte
  y : Byte
  sp : Byte
  pc : Addr
  c : Bool
  z : Bool
  i : Bool
  d : Bool
  v : Bool
  n : Bool
deriving DecidableEq, Repr

/-- The byte store of R50 as (address, byte) pairs, addresses rising, no byte equal to what an unlisted address reads as
(Machine/Memory.lean). -/
abbrev Memory := List Host.Cell

/-- The three kinds of hook (R56). -/
inductive HookKind where
  | preRead | postWrite | preExecute
deriving DecidableEq, Repr

/-- What a hook is registered for (R55). The addresses are numbers, so that a registration with an address outside
0–65535 can be asked for (and raises AddressError); a number below 0 cannot (DESIGN CHOICE, log entry 19, safe). -/
inductive Trigger where
  | addr (a : Nat)
  | range (lo hi : Nat)
  | anyExecute
deriving DecidableEq, Repr

/-- A registration record (R54). The callback is the host's; the block holds only a reference, here a number. -/
structure Hook where
  handle : Nat
  trigger : Trigger
  kind : HookKind
  callback : Nat
deriving DecidableEq, Repr

/-- One thing the host does inside a callback (R70, 60_exceptions R419): a nested access, a registration, a removal, a
call of `register_snapshot()` or `cycle_count()`, or the callback's answer, which ends it (R60). There is no move that
calls step, reset or apply_snapshot (D12).
Addresses and bytes are numbers from 0 up (DESIGN CHOICE, log entry 19, safe). -/
inductive HostMove where
  | answer (o : HookOutcome)
  | read (a : Nat)
  | write (a v : Nat)
  | register (t : Trigger) (k : HookKind) (callback : Nat)
  | remove (handle : Nat)
  | registerSnapshot
  | cycleCount
deriving DecidableEq, Repr

/-- The record of an ExecutionFault (R411): the failing hook's handle, the address and kind of the access, and, for a
fault in a step, the address of the instruction and its opcode byte once the opcode fetch has completed. -/
structure FaultInfo where
  handle : Nat
  address : Addr
  kind : HookKind
  pc0 : Option Addr
  opcode : Option Byte
deriving DecidableEq, Repr

/-- The run status of R33. `faulted` keeps the record of the ExecutionFault that entered it (R411), also when a later host
read or write fails in it (DESIGN CHOICE, log entry 18). -/
inductive Status where
  | unreset
  | running
  | faulted (info : FaultInfo)
deriving DecidableEq, Repr

/-- One access of the CPU (R140): an opcode fetch, a data read, or a data write with the byte committed. -/
inductive Access where
  | fetch (a : Addr)
  | read (a : Addr)
  | write (a : Addr) (v : Byte)
deriving DecidableEq, Repr

/-- One `IllegalOpcode(pc, op)` event (R413). -/
structure IllegalEvent where
  pc : Addr
  op : Byte
deriving DecidableEq, Repr

/-- What a call made inside a callback gives back to it (60_exceptions R419): a read its byte, a registration its handle,
a write and a removal nothing, `register_snapshot()` the record of R39, `cycle_count()` the counter (R32), an access or
registration outside the address space AddressError (R410), and a read or write whose own dispatch failed the
ExecutionFault that fails the callback in turn (R67). -/
inductive HostReply where
  | byte (v : Byte)
  | done
  | handle (h : Nat)
  | snapshot (q : Snapshot)
  | count (n : Nat)
  | addressError (a : Nat)
  | executionFault (handle : Nat) (address : Addr) (kind : HookKind)
deriving DecidableEq, Repr

/-- What the last call gave the host: the cycles `step()` returned (R130), the IllegalOpcode events (R413), the CPU
accesses made, in order (R140), the callbacks called, with their arguments (R60, R61, R69), and what the calls made
inside callbacks gave back, in the order they ended (R419). -/
structure Output where
  consumed : Nat
  illegal : List IllegalEvent
  accesses : List Access
  calls : List HookCall
  replies : List HostReply
deriving DecidableEq, Repr

/-- No output. -/
def Output.empty : Output :=
  { consumed := 0, illegal := [], accesses := [], calls := [], replies := [] }

/-- Why the machine stops with a fault. -/
inductive Fault where
  /-- Raised by `step` alone, in status `faulted` (R33, R470, K16): the run ended in an ExecutionFault and no step is
  admitted. Safe: the spec has no move there. (Entering the status is a next state, R411.) -/
  | executionFault (info : FaultInfo)
deriving DecidableEq, Repr

/-- Why a step is refused. -/
inductive Refusal where
  /-- An instruction with no meaning yet: raised by an arm of `exec` alone. No arm raises it now. Safe. -/
  | notModelled (mnemonic : String)
  /-- Raised by `step` in status `unreset` (R33, R455, K15): the model has no step before reset. Safe. -/
  | stepBeforeReset
  /-- Raised by an access of the step whose callback makes a move the spec refuses (R51, R55, K11, K13): a byte outside
  0–255, a range with lo > hi, AnyExecute with a data kind. Safe. -/
  | hostMoveNotAdmitted
  /-- Raised by the fetch if the decoder rejected the bytes it was given. R105 makes decoding total, so no state raises
  it. Safe. -/
  | undecodable (e : DecodeError)
deriving DecidableEq, Repr

/-- The machine. -/
structure State where
  /-- The architectural register file (R20). -/
  file : RegFile
  /-- The pending copy R of the step in progress (R12, R130, R131); between steps it equals `file`. -/
  pend : RegFile
  /-- The opcode byte of the step in progress, once fetched (R411); between steps there is none. -/
  opcode : Option Byte
  /-- The cycle counter (R32). -/
  cycles : Nat
  /-- The run status (R33). -/
  status : Status
  /-- Whether a step has been made: an image may be loaded only before the first one (60_exceptions R419). -/
  begun : Bool
  /-- The 65,536 bytes (R34, R50). -/
  mem : Memory
  /-- The hook registry, in registration order (R35, R54). -/
  hooks : List Hook
  /-- The next handle (R35, R57). -/
  nextHandle : Nat
  /-- The model's own: the host's moves inside callbacks still to come, HOOKS as an input (R7, R60; DESIGN CHOICE, log
  entry 3, safe). -/
  host : List HostMove
  /-- The model's own: how many callbacks the free value `Config.hookOutcome` has answered (DESIGN CHOICE, log
  entry 3, safe). -/
  consults : Nat
  /-- The model's own: what the last call gave the host (DESIGN CHOICE, log entry 4, safe). -/
  out : Output
deriving DecidableEq, Repr

/-- The registers `reset()` leaves, but for PC (R41, R450): I is 1 and D is 0; the rest are the reset parameters. -/
def RegFile.ofReset (p : ResetParams) (pc : Addr) : RegFile :=
  { a := p.a, x := p.x, y := p.y, sp := p.sp, pc := pc, c := p.c, z := p.z, i := true, d := false, v := p.v,
    n := p.n }

/-- A newly built block (R453): status Unreset, PC 0x0000, memory all 0x00, no hooks. Handles start at 0 (DESIGN CHOICE,
log entry 2). -/
def State.constructed : State :=
  { file := RegFile.ofReset Config.resetDefaults 0x0000
    pend := RegFile.ofReset Config.resetDefaults 0x0000
    opcode := none, cycles := 0, status := .unreset, begun := false, mem := [], hooks := [], nextHandle := 0, host := [],
    consults := 0, out := Output.empty }

/-- The machine right after reset of a newly built block (R41, R450): PC from the vector at 0xFFFC/0xFFFD, which the
construction memory holds as 0x0000, and the output of the reset's two data reads. -/
def State.reset : State :=
  { file := RegFile.ofReset Config.resetDefaults 0x0000
    pend := RegFile.ofReset Config.resetDefaults 0x0000
    opcode := none, cycles := 0, status := .running, begun := false, mem := [], hooks := [], nextHandle := 0, host := [],
    consults := 0
    out := { Output.empty with accesses := [.read 0xFFFC, .read 0xFFFD] } }

/-- What a host call gives back (60_exceptions R419): a value and the state after; AddressError (R410); the
ExecutionFault of a failed callback, with the state it leaves (R411); or no move at all (`notAdmitted`: R40, R51, R55,
R419). -/
inductive CallResult (α : Type) where
  | returned (v : α) (s : State)
  | addressError (a : Nat) (s : State)
  | executionFault (info : FaultInfo) (s : State)
  | notAdmitted
deriving DecidableEq, Repr

/-- Why an access or an instruction does not complete: a callback failed (R67, with the failing hook's handle, the
address and the kind of its access), or the step is refused. -/
inductive Stop where
  | hookFailed (handle : Nat) (address : Addr) (kind : HookKind)
  | refused (r : Refusal)
deriving DecidableEq, Repr

/-- A piece of the machine's work: it answers a value and the state after, or stops and leaves a state (R131: what it
wrote to memory before stopping stays). Core Lean's state-and-exception monad. -/
abbrev Work (α : Type) := EStateM Stop State α

end Sys2Proof.Machine
end

