-- ==== Sys2Proof/Machine/Flags.lean ====
section
/-!
DEFINITION. The flag computations, as functions of the register file: the status byte (10_state R28), the uniform N and
Z rule (R30), the adder in both modes (42_arithmetic R230 to R233), the comparison (R236), the bit test and the shifts
(43_logic_shift). Sums are computed exactly as numbers and narrowed at the end.
-/

namespace Sys2Proof.Machine

/-- A bit as a number (R11). -/
def bitNat (b : Bool) : Nat :=
  if b then 1 else 0

/-- A bit as a byte, 0 or 1. -/
def bitByte (b : Bool) : Byte :=
  if b then 1 else 0

/-- Bit 7 of a byte. -/
def bit7 (b : Byte) : Bool :=
  b.getLsbD 7

/-- `Pbyte(B)` of R28, with bit 5 (U) read as 1. -/
def RegFile.pbyte (r : RegFile) (b : Bool) : Byte :=
  (bitByte r.n <<< 7) ||| (bitByte r.v <<< 6) ||| (1 <<< 5) ||| (bitByte b <<< 4) ||| (bitByte r.d <<< 3)
    ||| (bitByte r.i <<< 2) ||| (bitByte r.z <<< 1) ||| bitByte r.c

/-- Load a byte into P (R28): bits 5 and 4 are ignored. -/
def RegFile.loadP (r : RegFile) (p : Byte) : RegFile :=
  { r with n := p.getLsbD 7, v := p.getLsbD 6, d := p.getLsbD 3, i := p.getLsbD 2, z := p.getLsbD 1,
           c := p.getLsbD 0 }

/-- The snapshot of a register file (R39): P is `Pbyte(1)`. -/
def RegFile.snapshot (r : RegFile) : Snapshot :=
  { a := r.a, x := r.x, y := r.y, sp := r.sp, pc := r.pc, p := r.pbyte true }

/-- `SetNZ(v)` (R13, R30). -/
def RegFile.setNZ (r : RegFile) (v : Byte) : RegFile :=
  { r with z := v == 0, n := bit7 v }

/-- A byte result with the four flags the adder gives. -/
structure AdderOut where
  r : Byte
  c : Bool
  v : Bool
  n : Bool
  z : Bool
deriving DecidableEq, Repr

/-- `((a ^ r) & (m ^ r) & 0x80) != 0` (R230). -/
def signedOverflow (a m r : Byte) : Bool :=
  ((a ^^^ r) &&& (m ^^^ r) &&& 0x80) != 0

/-- `AddBin(a, m, c)` (R230). -/
def addBin (a m : Byte) (c : Bool) : AdderOut :=
  let s := a.toNat + m.toNat + bitNat c
  let r := BitVec.ofNat 8 s
  { r := r, c := decide (s > 255), v := signedOverflow a m r, n := bit7 r, z := r == 0 }

/-- The low digit of `AddDec` with its decimal carry (R231). -/
def addDecLow (a m : Byte) (c : Bool) : Nat :=
  let lo := a.toNat % 16 + m.toNat % 16 + bitNat c
  if lo ≥ 0x0A then (lo + 0x06) % 16 + 0x10 else lo

/-- The intermediate sum of `AddDec`, before the high-digit adjust (R231). -/
def addDecMid (a m : Byte) (c : Bool) : Nat :=
  a.toNat / 16 * 16 + m.toNat / 16 * 16 + addDecLow a m c

/-- `AddDec(a, m, c)` (R231): N and V from the intermediate sum, Z from the binary sum (D15; DESIGN CHOICE,
log entry 6, unsafe for N, V, Z and for operands that are not decimal). -/
def addDec (a m : Byte) (c : Bool) : AdderOut :=
  let s := addDecMid a m c
  let s' := if s ≥ 0xA0 then s + 0x60 else s
  { r := BitVec.ofNat 8 s'
    c := decide (s' ≥ 0x100)
    v := signedOverflow a m (BitVec.ofNat 8 s)
    n := bit7 (BitVec.ofNat 8 s)
    z := (a.toNat + m.toNat + bitNat c) % 256 == 0 }

/-- `SubBin(a, m, c)`: addition of the complement (R232). -/
def subBin (a m : Byte) (c : Bool) : AdderOut :=
  addBin a (~~~m) c

/-- The low digit of `SubDec` with its decimal borrow, a signed number (R233). -/
def subDecLow (a m : Byte) (c : Bool) : Int :=
  let lo : Int := (a.toNat % 16 : Nat) - (m.toNat % 16 : Nat) + bitNat c - 1
  if lo < 0 then (lo - 0x06) % 16 - 0x10 else lo

/-- `SubDec(a, m, c)` (R233): all four flags are those of the binary subtraction (D15; DESIGN CHOICE, log
entry 6, unsafe as for `addDec`). -/
def subDec (a m : Byte) (c : Bool) : AdderOut :=
  let s : Int := (a.toNat / 16 * 16 : Nat) - (m.toNat / 16 * 16 : Nat) + subDecLow a m c
  let s' := if s < 0 then s - 0x60 else s
  { subBin a m c with r := BitVec.ofInt 8 s' }

/-- Write the adder's result to A and its four flags. -/
def RegFile.takeSum (r : RegFile) (o : AdderOut) : RegFile :=
  { r with a := o.r, c := o.c, v := o.v, n := o.n, z := o.z }

/-- What ADC does with its operand (R234). -/
def RegFile.adc (r : RegFile) (m : Byte) : RegFile :=
  r.takeSum (if r.d then addDec r.a m r.c else addBin r.a m r.c)

/-- What SBC does with its operand (R235). -/
def RegFile.sbc (r : RegFile) (m : Byte) : RegFile :=
  r.takeSum (if r.d then subDec r.a m r.c else subBin r.a m r.c)

/-- `Compare(q, m)` (R236): unsigned, and binary in decimal mode as well. -/
def RegFile.compare (r : RegFile) (q m : Byte) : RegFile :=
  { r with c := decide (m.toNat ≤ q.toNat), z := q == m, n := bit7 (q - m) }

/-- The flags of BIT (R263). -/
def RegFile.bitTest (r : RegFile) (m : Byte) : RegFile :=
  { r with z := (r.a &&& m) == 0, n := m.getLsbD 7, v := m.getLsbD 6 }

/-- A result byte with the register file after its flags, for an instruction that writes the byte back. -/
abbrev ByteAndRegs := Byte × RegFile

/-- ASL (R264). -/
def RegFile.asl (r : RegFile) (v : Byte) : ByteAndRegs :=
  let v' := v <<< 1
  (v', { r with c := v.getLsbD 7 }.setNZ v')

/-- LSR (R265). -/
def RegFile.lsr (r : RegFile) (v : Byte) : ByteAndRegs :=
  let v' := v >>> 1
  (v', { r with c := v.getLsbD 0 }.setNZ v')

/-- ROL (R266): the old carry enters at bit 0. -/
def RegFile.rol (r : RegFile) (v : Byte) : ByteAndRegs :=
  let v' := (v <<< 1) ||| bitByte r.c
  (v', { r with c := v.getLsbD 7 }.setNZ v')

/-- ROR (R267): the old carry enters at bit 7. -/
def RegFile.ror (r : RegFile) (v : Byte) : ByteAndRegs :=
  let v' := (v >>> 1) ||| (bitByte r.c <<< 7)
  (v', { r with c := v.getLsbD 0 }.setNZ v')

/-- INC on a memory byte (R240): C and V are not touched. -/
def RegFile.incByte (r : RegFile) (v : Byte) : ByteAndRegs :=
  (v + 1, r.setNZ (v + 1))

/-- DEC on a memory byte (R241). -/
def RegFile.decByte (r : RegFile) (v : Byte) : ByteAndRegs :=
  (v - 1, r.setNZ (v - 1))

end Sys2Proof.Machine
end

