-- ==== Sys2Proof/Machine/Memory.lean ====
section
/-!
DEFINITION. The byte store (20_memory R50): reading and committing one byte, and the canonical form. Wider quantities are
two accesses (R53) and are built where they are made.
-/

namespace Sys2Proof.Machine

/-- What an address with no entry reads as: the construction value of memory (70 R453; DEDUCED, log
entry 10, unsafe for a claim that reads a byte no image loaded). -/
def Memory.blank : Byte := 0x00

/-- The byte stored at an address number. -/
def Memory.get : Memory → Nat → Byte
  | [], _ => Memory.blank
  | c :: m, k => if c.1 = k then c.2 else Memory.get m k

/-- Put an entry in front of the first entry with a higher address. -/
def Memory.insertCell : Memory → Host.Cell → Memory
  | [], c => [c]
  | c' :: m, c => if c.1 < c'.1 then c :: c' :: m else c' :: Memory.insertCell m c

/-- Store a byte at an address number, keeping the canonical form: the blank value is stored by having no entry. -/
def Memory.put (m : Memory) (k : Nat) (v : Byte) : Memory :=
  let rest := m.filter (fun c => c.1 != k)
  if v = Memory.blank then rest else Memory.insertCell rest (k, v)

/-- `mem[a]` (R50). -/
def Memory.read (m : Memory) (a : Addr) : Byte :=
  Memory.get m a.toNat

/-- `mem[a] <- v` (R65). -/
def Memory.write (m : Memory) (a : Addr) (v : Byte) : Memory :=
  Memory.put m a.toNat v

/-- The canonical form: addresses strictly rising and below 65,536, no entry holding the blank value. -/
def Memory.wf : Memory → Bool
  | [] => true
  | c :: m => decide (c.1 < 65536) && c.2 != Memory.blank && m.all (fun c' => decide (c.1 < c'.1)) && Memory.wf m

end Sys2Proof.Machine
end

