-- ==== Sys2Proof/Machine/Hooks.lean ====
section
/-!
DEFINITION. The address_space_hook_controller (20_memory): the registry, the dispatch of hooks on each access, and the
three accesses `memRead` (R63), `memWrite` (R65) and `fetchOp` (R66). A callback is what the host does next: it takes
moves from `State.host` until one is its answer; when none is left the free value `Config.hookOutcome` answers for it.
-/

namespace Sys2Proof.Machine

/-! ## The registry -/

/-- Whether a trigger matches an address (R55); both ends of a range are included. -/
def Trigger.matchesAddr (t : Trigger) (a : Addr) : Bool :=
  match t with
  | .addr b => a.toNat == b
  | .range lo hi => decide (lo ≤ a.toNat) && decide (a.toNat ≤ hi)
  | .anyExecute => true

/-- What a registration request is: one that is admitted, one that raises AddressError, or one the spec refuses. -/
inductive TriggerCheck where
  | ok
  | addressError (a : Nat)
  | notAdmitted
deriving DecidableEq, Repr

/-- The checks of R55, addresses first (DESIGN CHOICE, log entry 11, safe). -/
def Trigger.check (t : Trigger) (k : HookKind) : TriggerCheck :=
  match t with
  | .addr a => if a < 65536 then .ok else .addressError a
  | .range lo hi =>
    if lo ≥ 65536 then .addressError lo
    else if hi ≥ 65536 then .addressError hi
    else if lo ≤ hi then .ok
    else .notAdmitted
  | .anyExecute => if k = .preExecute then .ok else .notAdmitted

/-- Append a record under a fresh handle (R57). -/
def State.register (s : State) (t : Trigger) (k : HookKind) (callback : Nat) : State :=
  { s with hooks := s.hooks ++ [{ handle := s.nextHandle, trigger := t, kind := k, callback := callback }]
           nextHandle := s.nextHandle + 1 }

/-- Delete the record with a handle, if there is one (R58). -/
def State.unregister (s : State) (handle : Nat) : State :=
  { s with hooks := s.hooks.filter (fun h => h.handle != handle) }

/-- Commit one byte (R65). -/
def State.stored (s : State) (a : Addr) (v : Byte) : State :=
  { s with mem := s.mem.write a v }

/-- The dispatch list of an access (R59): the matching records, in registration order. -/
def State.dispatchList (s : State) (k : HookKind) (a : Addr) : List Hook :=
  s.hooks.filter (fun h => h.kind == k && h.trigger.matchesAddr a)

/-- Note what a call made inside a callback gave back to it (R419). -/
def State.replied (s : State) (r : HostReply) : State :=
  { s with out := { s.out with replies := s.out.replies ++ [r] } }

/-! ## Calling one callback -/

/-- The host's next move, taken from the state. -/
def takeMove : Work (Option HostMove) :=
  modifyGet fun s =>
    match s.host with
    | [] => (none, s)
    | m :: rest => (some m, { s with host := rest })

/-- No move is left: the free value answers, and its counter advances (log entry 3). -/
def freeOutcome (call : HookCall) : Work HookOutcome :=
  modifyGet fun s => (Config.hookOutcome s.consults call, { s with consults := s.consults + 1 })

/-- An override outside 0–255 is treated as `Fail` (R60), from a post_write callback as well (DESIGN CHOICE, log entry 8,
unsafe only for such a callback). -/
def checkOutcome (o : HookOutcome) : HookOutcome :=
  match o with
  | .override v => if v < 256 then .override v else .failed
  | .noOverride => .noOverride
  | .failed => .failed

/-- Call one hook of a dispatch list (R60, R61): the callback sees the byte stored now; `Fail` ends the access (R67)
under this hook's handle, unless a nested access failed first (DEDUCED, log entry 7). The way callbacks run is an
argument, since a callback's nested accesses call callbacks in turn. -/
def callHook (run : HookCall → Work HookOutcome) (snap : Snapshot) (a : Addr) (h : Hook) : Work HookOutcome := do
  let s ← get
  let call : HookCall := { callback := h.callback, address := a, value := s.mem.read a, snapshot := snap }
  set { s with out := { s.out with calls := s.out.calls ++ [call] } }
  let o ← run call
  match checkOutcome o with
  | .failed => throw (.hookFailed h.handle a h.kind)
  | .noOverride => pure .noOverride
  | .override v => pure (.override v)

/-- Dispatch on a read or a fetch (R63, R66): in order, until a hook gives an override. -/
def dispatchRead (run : HookCall → Work HookOutcome) (snap : Snapshot) (a : Addr) : List Hook → Work (Option Byte)
  | [] => pure none
  | h :: rest => do
    match ← callHook run snap a h with
    | .override v => pure (some (BitVec.ofNat 8 v))
    | .noOverride => dispatchRead run snap a rest
    | .failed => dispatchRead run snap a rest

/-- Dispatch after a write (R65): every hook is called; an override has no effect (D10). -/
def dispatchWrite (run : HookCall → Work HookOutcome) (snap : Snapshot) (a : Addr) : List Hook → Work Unit
  | [] => pure ()
  | h :: rest => do
    let _ ← callHook run snap a h
    dispatchWrite run snap a rest

/-- A read that dispatches hooks of one kind: the override if there is one, else the byte stored when the last callback
has returned (R63, R66, D28). -/
def readWith (run : HookCall → Work HookOutcome) (k : HookKind) (snap : Snapshot) (a : Addr) : Work Byte := do
  let s ← get
  match ← dispatchRead run snap a (s.dispatchList k a) with
  | some v => pure v
  | none => do
    let s' ← get
    pure (s'.mem.read a)

/-- A write (R65): the commit first, then the dispatch. -/
def writeWith (run : HookCall → Work HookOutcome) (snap : Snapshot) (a : Addr) (v : Byte) : Work Unit := do
  let s ← get
  set (s.stored a v)
  dispatchWrite run snap a ((s.stored a v).dispatchList .postWrite a)

/-- Give a callback what its call gives back (R419). -/
def reply (r : HostReply) : Work Unit :=
  modify fun s => s.replied r

/-- Make a nested access for a callback and give it the result: its value, or the ExecutionFault that fails the callback
in turn (R67, R71, R419). -/
def nested {α : Type} (w : Work α) (answer : α → HostReply) : Work Unit := fun s =>
  match w s with
  | .ok v t => .ok () (t.replied (answer v))
  | .error (.hookFailed h a k) t => .error (.hookFailed h a k) (t.replied (.executionFault h a k))
  | .error (.refused r) t => .error (.refused r) t

/-- Run one callback to its answer (R60, R70, R71). Each move is consumed, so the number of moves left bounds the run; a
nested access is complete in itself, with its own dispatch, and its failure fails this callback too (R67). An address
outside 0–65535 raises AddressError to the callback, which goes on (R51, R410; DEDUCED, log entry 14, safe); a move the
spec refuses ends the step as a refusal (DEDUCED, log entry 9, safe). Of a write that breaks both rules the address is
checked first (DESIGN CHOICE, log entry 17, safe). `register_snapshot()` gives the register file, in which no pending write
of the step or reset is visible (DEDUCED, log entry 21). -/
def runCallback : Nat → HookCall → Work HookOutcome
  | 0, call => freeOutcome call
  | n + 1, call => do
    match ← takeMove with
    | none => freeOutcome call
    | some (.answer o) => pure o
    | some (.read a) => do
      if a < 65536 then
        nested (readWith (fun c => runCallback n c) .preRead call.snapshot (BitVec.ofNat 16 a)) .byte
        runCallback n call
      else
        reply (.addressError a)
        runCallback n call
    | some (.write a v) => do
      if a < 65536 then
        if v < 256 then
          nested (writeWith (fun c => runCallback n c) call.snapshot (BitVec.ofNat 16 a) (BitVec.ofNat 8 v)) fun _ => .done
          runCallback n call
        else throw (.refused .hostMoveNotAdmitted)
      else
        reply (.addressError a)
        runCallback n call
    | some (.register t k callback) => do
      match t.check k with
      | .ok =>
        modify fun s => (s.register t k callback).replied (.handle s.nextHandle)
        runCallback n call
      | .addressError a =>
        reply (.addressError a)
        runCallback n call
      | .notAdmitted => throw (.refused .hostMoveNotAdmitted)
    | some (.remove handle) => do
      modify fun s => (s.unregister handle).replied .done
      runCallback n call
    | some .registerSnapshot => do
      modify fun s => s.replied (.snapshot s.file.snapshot)
      runCallback n call
    | some .cycleCount => do
      modify fun s => s.replied (.count s.cycles)
      runCallback n call

/-- How the callbacks of an access run: every move that may be needed is still in the state. -/
def callbacks (s : State) (call : HookCall) : Work HookOutcome :=
  runCallback s.host.length call

/-! ## The three accesses -/

/-- `MemRead(a, 1)` (R63), with the snapshot its hooks are passed (R69). -/
def memRead (snap : Snapshot) (a : Addr) : Work Byte := do
  let s ← get
  readWith (callbacks s) .preRead snap a

/-- `MemWrite(a, 1, v)` (R65). -/
def memWrite (snap : Snapshot) (a : Addr) (v : Byte) : Work Unit := do
  let s ← get
  writeWith (callbacks s) snap a v

/-- `FetchOp(a)` (R66): `pre_execute` hooks only. -/
def fetchOp (snap : Snapshot) (a : Addr) : Work Byte := do
  let s ← get
  readWith (callbacks s) .preExecute snap a

/-- Whether the spec has a move for what the host does inside a callback (R51, R55, R70). A write with address and byte
both out of range has one, AddressError (DESIGN CHOICE, log entry 17, safe). -/
def HostMove.admitted (m : HostMove) : Bool :=
  match m with
  | .answer _ => true
  | .read _ => true
  | .write a v => decide (65536 ≤ a) || decide (v < 256)
  | .register t k _ => t.check k != .notAdmitted
  | .remove _ => true
  | .registerSnapshot => true
  | .cycleCount => true

end Sys2Proof.Machine
end

