-- ==== Sys2Proof/Machine/Ops.lean ====
section
/-!
DEFINITION. The named operations every instruction is written in (00_scope R12, R13): registers, the CPU's accesses,
push and pull, the one trap and its return (60_exceptions R401, R402), and how a step begins, completes and faults
(40_execution_cycle R130, R131, 60 R411).
-/

namespace Sys2Proof.Machine

/-! ## Registers: all reads and writes of a step go to the pending copy (R12, R131) -/

/-- The pending copy of the register file. -/
def regs : Work RegFile := do
  let s ← get
  pure s.pend

/-- Replace the pending copy. -/
def State.setPend (s : State) (r : RegFile) : State :=
  { s with pend := r }

/-- Change the pending copy. -/
def modifyRegs (f : RegFile → RegFile) : Work Unit :=
  modify fun s => s.setPend (f s.pend)

/-- `pc <- target` (R12). -/
def setPc (a : Addr) : Work Unit :=
  modifyRegs fun r => { r with pc := a }

/-- A byte as an address in page 0: `zext_16` (R11, R103). -/
def zeroPage (b : Byte) : Addr :=
  b.zeroExtend 16

/-- `sext_8` of a byte, as a 16-bit displacement (R11, R103). -/
def displacement (b : Byte) : Addr :=
  b.signExtend 16

/-! ## The CPU's accesses, each recorded when it begins (R140) and made with the step's snapshot (R69) -/

/-- Record an access. -/
def State.logged (s : State) (acc : Access) : State :=
  { s with out := { s.out with accesses := s.out.accesses ++ [acc] } }

/-- Record an access as part of some work. -/
def logAccess (acc : Access) : Work Unit :=
  modify fun s => s.logged acc

/-- A data read of the CPU. -/
def cpuRead (a : Addr) : Work Byte := do
  logAccess (.read a)
  let s ← get
  memRead s.file.snapshot a

/-- A data write of the CPU. -/
def cpuWrite (a : Addr) (v : Byte) : Work Unit := do
  logAccess (.write a v)
  let s ← get
  memWrite s.file.snapshot a v

/-- The opcode fetch of the CPU (R132). -/
def cpuFetch (a : Addr) : Work Byte := do
  logAccess (.fetch a)
  let s ← get
  fetchOp s.file.snapshot a

/-! ## The stack (10_state R23 to R25) -/

/-- The address SP designates: `0x0100 + SP`. -/
def stackAddr (sp : Byte) : Addr :=
  0x0100 + zeroPage sp

/-- `Push(v)` (R24): store, then decrement. -/
def push (v : Byte) : Work Unit := do
  let r ← regs
  cpuWrite (stackAddr r.sp) v
  modifyRegs fun r => { r with sp := r.sp - 1 }

/-- `Pull()` (R25): increment, then load. -/
def pull : Work Byte := do
  modifyRegs fun r => { r with sp := r.sp + 1 }
  let r ← regs
  cpuRead (stackAddr r.sp)

/-- Push a 16-bit value, high byte first (R52, R300). -/
def pushAddr (a : Addr) : Work Unit := do
  push (hiByte a)
  push (loByte a)

/-- Pull a 16-bit value: low byte, then high byte (R301, R303). -/
def pullAddr : Work Addr := do
  let lo ← pull
  let hi ← pull
  pure (hiLo hi lo)

/-- Read the 16-bit value of a fixed vector, low byte first (R52, R73). -/
def readVector (a : Addr) : Work Addr := do
  let lo ← cpuRead a
  let hi ← cpuRead (a + 1)
  pure (hiLo hi lo)

/-! ## The trap and its return -/

/-- Taking the BRK trap (R401, R302): the address two past the opcode and the status byte with B = 1 go on the stack, I
is set, and PC comes from the vector at 0xFFFE. D does not change. -/
def takeBreak : Work Unit := do
  let s ← get
  pushAddr (s.file.pc + 2)
  let r ← regs
  push (r.pbyte true)
  modifyRegs fun r => { r with i := true }
  let target ← readVector 0xFFFE
  setPc target

/-- The trap return (R402, R303): the status byte, then the return address, with no increment. -/
def returnFromBreak : Work Unit := do
  let p ← pull
  modifyRegs fun r => r.loadP p
  let target ← pullAddr
  setPc target

/-- Record an `IllegalOpcode(PC0, op)` event (R413); PC0 is the PC of the register file. -/
def State.emitted (s : State) (op : Byte) : State :=
  { s with out := { s.out with illegal := s.out.illegal ++ [{ pc := s.file.pc, op := op }] } }

/-- `emit IllegalOpcode(pc, op)` (R413): an output of the step. -/
def emitIllegal (op : Byte) : Work Unit :=
  modify fun s => s.emitted op

/-! ## The step's beginning and ends -/

/-- A step begins: R is a copy of the register file, nothing has been fetched or given to the host yet (R130), and no
image can be loaded any more (R419). -/
def State.begin (s : State) : State :=
  { s with pend := s.file, opcode := none, begun := true, out := Output.empty }

/-- A step completes (R131): R replaces the register file, the counter increases, and `step()` returns `n`. -/
def State.commit (s : State) (n : Nat) : State :=
  { s with file := s.pend, opcode := none, cycles := s.cycles + n, out := { s.out with consumed := n } }

/-- The status after an ExecutionFault (R411, R455): Faulted, which is never left. A block that is Faulted already keeps
the record that ended its run, and the later fault is given back by the call that raised it (DESIGN CHOICE, log entry
18). -/
def Status.withFault (st : Status) (info : FaultInfo) : Status :=
  match st with
  | .unreset => .faulted info
  | .running => .faulted info
  | .faulted first => .faulted first

/-- An ExecutionFault is raised (R131, R411): the register file and the cycle counter stay, the pending copy is dropped,
memory stays as it is, and the status becomes Faulted. A next state (DESIGN CHOICE, log entry 15, safe). -/
def State.raise (s : State) (info : FaultInfo) : State :=
  { s with pend := s.file, opcode := none, status := s.status.withFault info }

/-- The fault record of a failed callback in a step (R411): PC0 is the PC of the register file, which the step has not
changed. -/
def State.stepFault (s : State) (handle : Nat) (address : Addr) (kind : HookKind) : FaultInfo :=
  { handle := handle, address := address, kind := kind, pc0 := some s.file.pc, opcode := s.opcode }

/-- How the work of a step ends it: completed, faulted (a next state, in status Faulted), or refused. -/
def endStep (r : EStateM.Result Stop State Nat) : Host.Outcome State Fault Refusal :=
  match r with
  | .ok n t => .next (t.commit n)
  | .error (.hookFailed h a k) t => .next (t.raise (t.stepFault h a k))
  | .error (.refused why) _ => .refused why

/-- Run an instruction's work and end the step with the cycles of R150. -/
def conclude (i : Instr) (w : Work Path) (s : State) : Host.Outcome State Fault Refusal :=
  endStep ((do let p ← w; pure (i.cycles p)) s)

end Sys2Proof.Machine
end

