-- ==== Sys2Proof/Machine/Operands.lean ====
section
/-!
DEFINITION. The operand forms (40_execution_cycle R141 to R149, R152): effective addresses with their pointer reads and
page crosses, operand reads, jump and branch targets; and the shapes of work the instructions share, in the access order
of R140.
-/

namespace Sys2Proof.Machine

/-- A page cross: bits 15..8 differ (R151). For a branch the base is PCnext (R152; DEDUCED, log entry 13, against vector
BR-10). -/
def pageCross (base ea : Addr) : Bool :=
  hiByte base != hiByte ea

/-- The effective address of a form, with whether the step has a page cross (R143 to R149). -/
def effAddr (m : MemMode) : Work (Addr × Bool) := do
  let r ← regs
  match m with
  | .zp b => pure (zeroPage b, false)
  | .zpx b => pure (zeroPage (b + r.x), false)
  | .zpy b => pure (zeroPage (b + r.y), false)
  | .abs w => pure (w, false)
  | .abx w => pure (w + zeroPage r.x, pageCross w (w + zeroPage r.x))
  | .aby w => pure (w + zeroPage r.y, pageCross w (w + zeroPage r.y))
  | .izx b => do
    let lo ← cpuRead (zeroPage (b + r.x))
    let hi ← cpuRead (zeroPage (b + r.x + 1))
    pure (hiLo hi lo, false)
  | .izy b => do
    let lo ← cpuRead (zeroPage b)
    let hi ← cpuRead (zeroPage (b + 1))
    let base := hiLo hi lo
    pure (base + zeroPage r.y, pageCross base (base + zeroPage r.y))

/-- `ReadOperand()`: `b1` in mode IMM, else the byte at the effective address. -/
def readOperand (m : ReadMode) : Work (Byte × Bool) :=
  match m with
  | .imm b => pure (b, false)
  | .mem mm => do
    let (ea, crossed) ← effAddr mm
    let v ← cpuRead ea
    pure (v, crossed)

/-- The target of JMP: the operand itself, or the word its pointer holds, whose high byte comes from the same page as its
low byte (R145, R147). -/
def jumpTarget (m : JumpMode) : Work Addr :=
  match m with
  | .abs w => pure w
  | .ind p => do
    let lo ← cpuRead p
    let hi ← cpuRead ((p &&& 0xFF00) ||| ((p + 1) &&& 0x00FF))
    pure (hiLo hi lo)

/-- The branch target from the address after the branch (R152). -/
def branchTarget (pcNext : Addr) (b1 : Byte) : Addr :=
  pcNext + displacement b1

/-! ## Shapes of work -/

/-- The read class (R140): read the operand, then let it act on the registers. -/
def readWork (m : ReadMode) (f : RegFile → Byte → RegFile) : Work Path := do
  let (v, crossed) ← readOperand m
  modifyRegs fun r => f r v
  pure { crossed := crossed }

/-- The write class (R140): one write of a register at the effective address, no read of it. -/
def storeWork (m : MemMode) (value : RegFile → Byte) : Work Path := do
  let (ea, crossed) ← effAddr m
  let r ← regs
  cpuWrite ea (value r)
  pure { crossed := crossed }

/-- The read-modify-write class on memory (R78, R140): one read, then one write to the same address. -/
def modifyWork (m : MemMode) (f : RegFile → Byte → ByteAndRegs) : Work Path := do
  let (ea, crossed) ← effAddr m
  let v ← cpuRead ea
  let r ← regs
  cpuWrite ea (f r v).1
  modifyRegs fun r => (f r v).2
  pure { crossed := crossed }

/-- A shift or rotate: on A with no data access, or on memory (R140). -/
def shiftWork (m : RmwMode) (f : RegFile → Byte → ByteAndRegs) : Work Path :=
  match m with
  | .acc => do
    modifyRegs fun r => { (f r r.a).2 with a := (f r r.a).1 }
    pure {}
  | .mem mm => modifyWork mm f

/-- An instruction that touches registers only. -/
def regWork (f : RegFile → RegFile) : Work Path := do
  modifyRegs f
  pure {}

/-- A conditional branch (R290): taken if the condition holds of the registers. -/
def branchWork (cond : RegFile → Bool) (b1 : Byte) : Work Path := do
  let r ← regs
  let target := branchTarget r.pc b1
  if cond r then
    setPc target
    pure { taken := true, crossed := pageCross r.pc target }
  else
    pure {}

end Sys2Proof.Machine
end

