-- ==== Sys2Proof/Machine/Arith.lean ====
section
/-!
DEFINITION. Arithmetic, compare, increment and decrement (42_arithmetic R234 to R245).
-/

namespace Sys2Proof.Machine

/-- ADC (R234), binary or decimal by D. -/
def execAdc (m : ReadMode) (s : State) : Host.Outcome State Fault Refusal :=
  conclude (.adc m) (readWork m fun r v => r.adc v) s

/-- SBC (R235), binary or decimal by D. -/
def execSbc (m : ReadMode) (s : State) : Host.Outcome State Fault Refusal :=
  conclude (.sbc m) (readWork m fun r v => r.sbc v) s

/-- CMP (R237). -/
def execCmp (m : ReadMode) (s : State) : Host.Outcome State Fault Refusal :=
  conclude (.cmp m) (readWork m fun r v => r.compare r.a v) s

/-- CPX (R238). -/
def execCpx (m : ReadMode) (s : State) : Host.Outcome State Fault Refusal :=
  conclude (.cpx m) (readWork m fun r v => r.compare r.x v) s

/-- CPY (R239). -/
def execCpy (m : ReadMode) (s : State) : Host.Outcome State Fault Refusal :=
  conclude (.cpy m) (readWork m fun r v => r.compare r.y v) s

/-- INC (R240). -/
def execInc (m : MemMode) (s : State) : Host.Outcome State Fault Refusal :=
  conclude (.inc m) (modifyWork m fun r v => r.incByte v) s

/-- DEC (R241). -/
def execDec (m : MemMode) (s : State) : Host.Outcome State Fault Refusal :=
  conclude (.dec m) (modifyWork m fun r v => r.decByte v) s

/-- INX (R242). -/
def execInx (s : State) : Host.Outcome State Fault Refusal :=
  conclude .inx (regWork fun r => { r with x := r.x + 1 }.setNZ (r.x + 1)) s

/-- INY (R243). -/
def execIny (s : State) : Host.Outcome State Fault Refusal :=
  conclude .iny (regWork fun r => { r with y := r.y + 1 }.setNZ (r.y + 1)) s

/-- DEX (R244). -/
def execDex (s : State) : Host.Outcome State Fault Refusal :=
  conclude .dex (regWork fun r => { r with x := r.x - 1 }.setNZ (r.x - 1)) s

/-- DEY (R245). -/
def execDey (s : State) : Host.Outcome State Fault Refusal :=
  conclude .dey (regWork fun r => { r with y := r.y - 1 }.setNZ (r.y - 1)) s

end Sys2Proof.Machine
end

