-- ==== Sys2Proof/Machine/Control.lean ====
section
/-!
DEFINITION. Branches, jumps, subroutines, BRK, RTI, NOP and ILLEGAL (44_control_transfer R290 to R304; 46_illegal R350).
-/

namespace Sys2Proof.Machine

/-- BCC (R291). -/
def execBcc (b1 : Byte) (s : State) : Host.Outcome State Fault Refusal :=
  conclude (.bcc b1) (branchWork (fun r => !r.c) b1) s

/-- BCS (R292). -/
def execBcs (b1 : Byte) (s : State) : Host.Outcome State Fault Refusal :=
  conclude (.bcs b1) (branchWork (fun r => r.c) b1) s

/-- BEQ (R293). -/
def execBeq (b1 : Byte) (s : State) : Host.Outcome State Fault Refusal :=
  conclude (.beq b1) (branchWork (fun r => r.z) b1) s

/-- BNE (R294). -/
def execBne (b1 : Byte) (s : State) : Host.Outcome State Fault Refusal :=
  conclude (.bne b1) (branchWork (fun r => !r.z) b1) s

/-- BMI (R295). -/
def execBmi (b1 : Byte) (s : State) : Host.Outcome State Fault Refusal :=
  conclude (.bmi b1) (branchWork (fun r => r.n) b1) s

/-- BPL (R296). -/
def execBpl (b1 : Byte) (s : State) : Host.Outcome State Fault Refusal :=
  conclude (.bpl b1) (branchWork (fun r => !r.n) b1) s

/-- BVC (R297). -/
def execBvc (b1 : Byte) (s : State) : Host.Outcome State Fault Refusal :=
  conclude (.bvc b1) (branchWork (fun r => !r.v) b1) s

/-- BVS (R298). -/
def execBvs (b1 : Byte) (s : State) : Host.Outcome State Fault Refusal :=
  conclude (.bvs b1) (branchWork (fun r => r.v) b1) s

/-- JMP (R299). -/
def execJmp (m : JumpMode) (s : State) : Host.Outcome State Fault Refusal :=
  conclude (.jmp m) (do setPc (← jumpTarget m); pure {}) s

/-- JSR (R300): the address of its own last byte, PC0 + 2, goes on the stack. -/
def execJsr (w : Addr) (s : State) : Host.Outcome State Fault Refusal :=
  conclude (.jsr w) (do pushAddr (s.file.pc + 2); setPc w; pure {}) s

/-- RTS (R301): the pulled address plus one. -/
def execRts (s : State) : Host.Outcome State Fault Refusal :=
  conclude .rts (do setPc ((← pullAddr) + 1); pure {}) s

/-- BRK (R302): the block's one trap (R401). -/
def execBrk (s : State) : Host.Outcome State Fault Refusal :=
  conclude .brk (do takeBreak; pure {}) s

/-- RTI (R303): the trap return (R402). -/
def execRti (s : State) : Host.Outcome State Fault Refusal :=
  conclude .rti (do returnFromBreak; pure {}) s

/-- NOP (R304). -/
def execNop (s : State) : Host.Outcome State Fault Refusal :=
  conclude .nop (pure {}) s

/-- ILLEGAL (R350): one IllegalOpcode event and nothing else. -/
def execIllegal (op : Byte) (s : State) : Host.Outcome State Fault Refusal :=
  conclude (.illegal op) (do emitIllegal op; pure {}) s

end Sys2Proof.Machine
end

