-- ==== Sys2Proof/Machine/LoadStore.lean ====
section
/-!
DEFINITION. Loads, stores and register transfers (41_load_store_transfer R200 to R211).
-/

namespace Sys2Proof.Machine

/-- LDA (R200). -/
def execLda (m : ReadMode) (s : State) : Host.Outcome State Fault Refusal :=
  conclude (.lda m) (readWork m fun r v => { r with a := v }.setNZ v) s

/-- LDX (R201). -/
def execLdx (m : ReadMode) (s : State) : Host.Outcome State Fault Refusal :=
  conclude (.ldx m) (readWork m fun r v => { r with x := v }.setNZ v) s

/-- LDY (R202). -/
def execLdy (m : ReadMode) (s : State) : Host.Outcome State Fault Refusal :=
  conclude (.ldy m) (readWork m fun r v => { r with y := v }.setNZ v) s

/-- STA (R203). -/
def execSta (m : MemMode) (s : State) : Host.Outcome State Fault Refusal :=
  conclude (.sta m) (storeWork m fun r => r.a) s

/-- STX (R204). -/
def execStx (m : MemMode) (s : State) : Host.Outcome State Fault Refusal :=
  conclude (.stx m) (storeWork m fun r => r.x) s

/-- STY (R205). -/
def execSty (m : MemMode) (s : State) : Host.Outcome State Fault Refusal :=
  conclude (.sty m) (storeWork m fun r => r.y) s

/-- TAX (R206). -/
def execTax (s : State) : Host.Outcome State Fault Refusal :=
  conclude .tax (regWork fun r => { r with x := r.a }.setNZ r.a) s

/-- TAY (R207). -/
def execTay (s : State) : Host.Outcome State Fault Refusal :=
  conclude .tay (regWork fun r => { r with y := r.a }.setNZ r.a) s

/-- TXA (R208). -/
def execTxa (s : State) : Host.Outcome State Fault Refusal :=
  conclude .txa (regWork fun r => { r with a := r.x }.setNZ r.x) s

/-- TYA (R209). -/
def execTya (s : State) : Host.Outcome State Fault Refusal :=
  conclude .tya (regWork fun r => { r with a := r.y }.setNZ r.y) s

/-- TSX (R210). -/
def execTsx (s : State) : Host.Outcome State Fault Refusal :=
  conclude .tsx (regWork fun r => { r with x := r.sp }.setNZ r.sp) s

/-- TXS (R211): the one transfer that writes no flag. -/
def execTxs (s : State) : Host.Outcome State Fault Refusal :=
  conclude .txs (regWork fun r => { r with sp := r.x }) s

end Sys2Proof.Machine
end

