-- ==== Sys2Proof/Machine/Logic.lean ====
section
/-!
DEFINITION. Logical operations, bit test, shifts and rotates (43_logic_shift R260 to R267).
-/

namespace Sys2Proof.Machine

/-- AND (R260). -/
def execAnd (m : ReadMode) (s : State) : Host.Outcome State Fault Refusal :=
  conclude (.and m) (readWork m fun r v => { r with a := r.a &&& v }.setNZ (r.a &&& v)) s

/-- ORA (R261). -/
def execOra (m : ReadMode) (s : State) : Host.Outcome State Fault Refusal :=
  conclude (.ora m) (readWork m fun r v => { r with a := r.a ||| v }.setNZ (r.a ||| v)) s

/-- EOR (R262). -/
def execEor (m : ReadMode) (s : State) : Host.Outcome State Fault Refusal :=
  conclude (.eor m) (readWork m fun r v => { r with a := r.a ^^^ v }.setNZ (r.a ^^^ v)) s

/-- BIT (R263). -/
def execBit (m : MemMode) (s : State) : Host.Outcome State Fault Refusal :=
  conclude (.bit m) (readWork (.mem m) fun r v => r.bitTest v) s

/-- ASL (R264). -/
def execAsl (m : RmwMode) (s : State) : Host.Outcome State Fault Refusal :=
  conclude (.asl m) (shiftWork m fun r v => r.asl v) s

/-- LSR (R265). -/
def execLsr (m : RmwMode) (s : State) : Host.Outcome State Fault Refusal :=
  conclude (.lsr m) (shiftWork m fun r v => r.lsr v) s

/-- ROL (R266). -/
def execRol (m : RmwMode) (s : State) : Host.Outcome State Fault Refusal :=
  conclude (.rol m) (shiftWork m fun r v => r.rol v) s

/-- ROR (R267). -/
def execRor (m : RmwMode) (s : State) : Host.Outcome State Fault Refusal :=
  conclude (.ror m) (shiftWork m fun r v => r.ror v) s

end Sys2Proof.Machine
end

