-- ==== Sys2Proof/Machine/Stack.lean ====
section
/-!
DEFINITION. Stack push and pull, flag set and clear (45_stack_flags R320 to R330).
-/

namespace Sys2Proof.Machine

/-- PHA (R320). -/
def execPha (s : State) : Host.Outcome State Fault Refusal :=
  conclude .pha (do push (← regs).a; pure {}) s

/-- PHP (R321): B and U are pushed as 1. -/
def execPhp (s : State) : Host.Outcome State Fault Refusal :=
  conclude .php (do push ((← regs).pbyte true); pure {}) s

/-- PLA (R322). -/
def execPla (s : State) : Host.Outcome State Fault Refusal :=
  conclude .pla (do let v ← pull; modifyRegs (fun r => { r with a := v }.setNZ v); pure {}) s

/-- PLP (R323): bits 5 and 4 are ignored. -/
def execPlp (s : State) : Host.Outcome State Fault Refusal :=
  conclude .plp (do let p ← pull; modifyRegs (fun r => r.loadP p); pure {}) s

/-- CLC (R324). -/
def execClc (s : State) : Host.Outcome State Fault Refusal :=
  conclude .clc (regWork fun r => { r with c := false }) s

/-- SEC (R325). -/
def execSec (s : State) : Host.Outcome State Fault Refusal :=
  conclude .sec (regWork fun r => { r with c := true }) s

/-- CLI (R326). -/
def execCli (s : State) : Host.Outcome State Fault Refusal :=
  conclude .cli (regWork fun r => { r with i := false }) s

/-- SEI (R327). -/
def execSei (s : State) : Host.Outcome State Fault Refusal :=
  conclude .sei (regWork fun r => { r with i := true }) s

/-- CLD (R328). -/
def execCld (s : State) : Host.Outcome State Fault Refusal :=
  conclude .cld (regWork fun r => { r with d := false }) s

/-- SED (R329). -/
def execSed (s : State) : Host.Outcome State Fault Refusal :=
  conclude .sed (regWork fun r => { r with d := true }) s

/-- CLV (R330). -/
def execClv (s : State) : Host.Outcome State Fault Refusal :=
  conclude .clv (regWork fun r => { r with v := false }) s

end Sys2Proof.Machine
end

