-- ==== Sys2Proof/Machine/Dispatch.lean ====
section
/-!
DEFINITION. The dispatch on the operation tag (30_encoding R104): one arm per constructor of Instr, each one call of the
instruction's own meaning.
-/

namespace Sys2Proof.Machine

def exec (i : Instr) (s : State) : Host.Outcome State Fault Refusal :=
  match i with
  | .lda m => Sys2Proof.Machine.execLda m s
  | .ldx m => Sys2Proof.Machine.execLdx m s
  | .ldy m => Sys2Proof.Machine.execLdy m s
  | .sta m => Sys2Proof.Machine.execSta m s
  | .stx m => Sys2Proof.Machine.execStx m s
  | .sty m => Sys2Proof.Machine.execSty m s
  | .tax => Sys2Proof.Machine.execTax s
  | .tay => Sys2Proof.Machine.execTay s
  | .txa => Sys2Proof.Machine.execTxa s
  | .tya => Sys2Proof.Machine.execTya s
  | .tsx => Sys2Proof.Machine.execTsx s
  | .txs => Sys2Proof.Machine.execTxs s
  | .adc m => Sys2Proof.Machine.execAdc m s
  | .sbc m => Sys2Proof.Machine.execSbc m s
  | .cmp m => Sys2Proof.Machine.execCmp m s
  | .cpx m => Sys2Proof.Machine.execCpx m s
  | .cpy m => Sys2Proof.Machine.execCpy m s
  | .inc m => Sys2Proof.Machine.execInc m s
  | .dec m => Sys2Proof.Machine.execDec m s
  | .inx => Sys2Proof.Machine.execInx s
  | .iny => Sys2Proof.Machine.execIny s
  | .dex => Sys2Proof.Machine.execDex s
  | .dey => Sys2Proof.Machine.execDey s
  | .and m => Sys2Proof.Machine.execAnd m s
  | .ora m => Sys2Proof.Machine.execOra m s
  | .eor m => Sys2Proof.Machine.execEor m s
  | .bit m => Sys2Proof.Machine.execBit m s
  | .asl m => Sys2Proof.Machine.execAsl m s
  | .lsr m => Sys2Proof.Machine.execLsr m s
  | .rol m => Sys2Proof.Machine.execRol m s
  | .ror m => Sys2Proof.Machine.execRor m s
  | .bcc b1 => Sys2Proof.Machine.execBcc b1 s
  | .bcs b1 => Sys2Proof.Machine.execBcs b1 s
  | .beq b1 => Sys2Proof.Machine.execBeq b1 s
  | .bne b1 => Sys2Proof.Machine.execBne b1 s
  | .bmi b1 => Sys2Proof.Machine.execBmi b1 s
  | .bpl b1 => Sys2Proof.Machine.execBpl b1 s
  | .bvc b1 => Sys2Proof.Machine.execBvc b1 s
  | .bvs b1 => Sys2Proof.Machine.execBvs b1 s
  | .jmp m => Sys2Proof.Machine.execJmp m s
  | .jsr w => Sys2Proof.Machine.execJsr w s
  | .rts => Sys2Proof.Machine.execRts s
  | .brk => Sys2Proof.Machine.execBrk s
  | .rti => Sys2Proof.Machine.execRti s
  | .nop => Sys2Proof.Machine.execNop s
  | .pha => Sys2Proof.Machine.execPha s
  | .php => Sys2Proof.Machine.execPhp s
  | .pla => Sys2Proof.Machine.execPla s
  | .plp => Sys2Proof.Machine.execPlp s
  | .clc => Sys2Proof.Machine.execClc s
  | .sec => Sys2Proof.Machine.execSec s
  | .cli => Sys2Proof.Machine.execCli s
  | .sei => Sys2Proof.Machine.execSei s
  | .cld => Sys2Proof.Machine.execCld s
  | .sed => Sys2Proof.Machine.execSed s
  | .clv => Sys2Proof.Machine.execClv s
  | .illegal op => Sys2Proof.Machine.execIllegal op s

end Sys2Proof.Machine
end

