-- ==== Sys2Proof/Machine/Fetch.lean ====
section
/-!
DEFINITION. Fetch and decode (40_execution_cycle R132 to R134), the frame of a step around the instruction (R130), and
where an instruction is placed so that the next step fetches it.
-/

namespace Sys2Proof.Machine

/-- Keep the fetched opcode byte for the fault record (R411). -/
def State.latched (s : State) (op : Byte) : State :=
  { s with opcode := some op }

/-- Fetch the opcode byte at PC and advance PC (R132). -/
def fetchOpcode : Work Byte := do
  let r ← regs
  let op ← cpuFetch r.pc
  modify fun s => s.latched op
  modifyRegs fun r => { r with pc := r.pc + 1 }
  pure op

/-- Read one operand byte at PC, a data read, and advance PC (R134). -/
def fetchOperand : Work Byte := do
  let r ← regs
  let b ← cpuRead r.pc
  modifyRegs fun r => { r with pc := r.pc + 1 }
  pure b

/-- Read as many operand bytes as the descriptor has, in order (R134). -/
def fetchOperands : Nat → Work (List Byte)
  | 0 => pure []
  | n + 1 => do
    let b ← fetchOperand
    let rest ← fetchOperands n
    pure (b :: rest)

/-- Fetch and decode one instruction (R130, R133): the opcode byte, then the operand bytes its descriptor has. -/
def fetchInstr : Work Instr := do
  let op ← fetchOpcode
  let operands ← fetchOperands (lookup op).operandBytes
  match decodeBytes (op :: operands) with
  | .ok (i, _) => pure i
  | .error e => throw (.refused (.undecodable e))

/-- The instruction fetched is run, or the step ends where the fetch stopped. -/
def afterFetch (run : Instr → State → Host.Outcome State Fault Refusal) (r : EStateM.Result Stop State Instr) :
    Host.Outcome State Fault Refusal :=
  match r with
  | .ok i t => run i t
  | .error (.hookFailed h a k) t => .next (t.raise (t.stepFault h a k))
  | .error (.refused why) _ => .refused why

/-- One step around a way to run instructions (R130): admitted in status Running only (R33; DESIGN CHOICE, log entry 15,
safe). -/
def stepWith (run : Instr → State → Host.Outcome State Fault Refusal) (s : State) : Host.Outcome State Fault Refusal :=
  match s.status with
  | .unreset => .refused .stepBeforeReset
  | .faulted info => .fault (.executionFault info)
  | .running => afterFetch run (fetchInstr s.begin)

/-- Store bytes at consecutive addresses, modulo 65536 (R100), directly in the byte store. -/
def Memory.place (m : Memory) (a : Addr) : List Byte → Memory
  | [] => m
  | b :: rest => Memory.place (m.write a b) (a + 1) rest

/-- A state with the bytes of an instruction stored where the next step fetches: at PC, the first byte lowest. -/
def State.placeWord (s : State) (nbits w : Nat) : State :=
  { s with mem := s.mem.place s.file.pc (bytesOfWord nbits w) }

end Sys2Proof.Machine
end

