-- ==== Sys2Proof/Machine/Step.lean ====
section
/-!
DEFINITION. `step()` of 40_execution_cycle R130, and the state in which the next step fetches a given instruction.
-/

namespace Sys2Proof.Machine

/-- One step (R130): fetch, decode, run, commit. -/
def step (s : State) : Host.Outcome State Fault Refusal :=
  stepWith exec s

/-- `s` with the instruction whose bits are `w` stored at PC, its bits above `nbits` zero. A program is loaded from
outside the machine (R460; DESIGN CHOICE, log entry 5); this stands for that load. -/
def State.withFetchWord (s : State) (nbits w : Nat) : State :=
  s.placeWord nbits w

end Sys2Proof.Machine
end

