-- ==== Sys2Proof/Machine/HostCalls.lean ====
section
/-!
DEFINITION. The host's control surface between steps (60_exceptions R419), but for `step`: reset (70 R450), snapshots
(10_state R39, R40), the cycle count (R32), reads and writes (20_memory R51), hook registration (R57, R58) and image
loading (70 R460). They are not steps (DESIGN CHOICE, log entry 16). What the host may do
inside a callback is `runCallback` (Hooks.lean).
-/

namespace Sys2Proof.Machine

/-- How an access made for a host call ends the call: with its value, with an ExecutionFault that leaves the status
Faulted (R411; no PC0, as there is no instruction; a status that is Faulted already keeps its record, log entry 18), or
with no move. -/
def endCall {α : Type} (r : EStateM.Result Stop State α) : CallResult α :=
  match r with
  | .ok v t => .returned v t
  | .error (.hookFailed h a k) t =>
    let info : FaultInfo := { handle := h, address := a, kind := k, pc0 := none, opcode := none }
    .executionFault info (t.raise info)
  | .error (.refused _) _ => .notAdmitted

/-- `read(addr)` (R51, R62): a data read, with the current register file as the hooks' snapshot (R69). The address is a
number from 0 up (DESIGN CHOICE, log entry 19, safe). -/
def hostRead (a : Nat) (s : State) : CallResult Byte :=
  let s := { s with out := Output.empty }
  if a < 65536 then endCall (memRead s.file.snapshot (BitVec.ofNat 16 a) s) else .addressError a s

/-- `write(addr, byte)` (R51); a byte outside 0–255 has no move (D30). The address is checked first, so a write with both
out of range raises AddressError (DESIGN CHOICE, log entry 17, safe). -/
def hostWrite (a v : Nat) (s : State) : CallResult Unit :=
  let s := { s with out := Output.empty }
  if a < 65536 then
    if v < 256 then endCall (memWrite s.file.snapshot (BitVec.ofNat 16 a) (BitVec.ofNat 8 v) s) else .notAdmitted
  else .addressError a s

/-- Whether `reset()` and `apply_snapshot()` are admitted: in any status but Faulted (R33, R40, R450). -/
def Status.admitsReset (st : Status) : Bool :=
  match st with
  | .unreset => true
  | .running => true
  | .faulted _ => false

/-- The bytes of an image, written in ascending address order (R460). A write that does not return ends the load there: the
bytes before it stay, and its AddressError or ExecutionFault is the load's (DESIGN CHOICE, log entry 22, unsafe only for
what such a load leaves). -/
def loadBytes : Nat → List Byte → State → CallResult Unit
  | _, [], s => .returned () s
  | a, b :: rest, s =>
    match hostWrite a b.toNat s with
    | .returned _ t => loadBytes (a + 1) rest t
    | .addressError k t => .addressError k t
    | .executionFault info t => .executionFault info t
    | .notAdmitted => .notAdmitted

/-- Loading an image (R460), admitted only before the first step (R419), and not in a Faulted block, which has no step to
come (DESIGN CHOICE, log entry 20, safe). -/
def loadImage (a : Nat) (bytes : List Byte) (s : State) : CallResult Unit :=
  if s.begun || !s.status.admitsReset then .notAdmitted else loadBytes a bytes { s with out := Output.empty }

/-- `register_hook` (R55, R57): answers the handle of the new record. -/
def registerHook (t : Trigger) (k : HookKind) (callback : Nat) (s : State) : CallResult Nat :=
  match t.check k with
  | .ok => .returned s.nextHandle (s.register t k callback)
  | .addressError a => .addressError a s
  | .notAdmitted => .notAdmitted

/-- `remove_hook` (R58): an unknown handle changes nothing. -/
def removeHook (handle : Nat) (s : State) : CallResult Unit :=
  .returned () (s.unregister handle)

/-- `register_snapshot()` (R39). -/
def registerSnapshot (s : State) : Snapshot :=
  s.file.snapshot

/-- `cycle_count()` (R32). -/
def cycleCount (s : State) : Nat :=
  s.cycles

/-- What the host passes to `apply_snapshot`: numbers, which may be out of range (R40). -/
structure HostSnapshot where
  a : Nat
  x : Nat
  y : Nat
  sp : Nat
  pc : Nat
  p : Nat
deriving DecidableEq, Repr

/-- Every field within its width (R40). -/
def HostSnapshot.inRange (q : HostSnapshot) : Bool :=
  decide (q.a < 256) && decide (q.x < 256) && decide (q.y < 256) && decide (q.sp < 256) && decide (q.pc < 65536)
    && decide (q.p < 256)

/-- The register file a snapshot gives (R40): the registers, and the six stored flags of its P. -/
def HostSnapshot.toFile (q : HostSnapshot) (r : RegFile) : RegFile :=
  { r with a := BitVec.ofNat 8 q.a, x := BitVec.ofNat 8 q.x, y := BitVec.ofNat 8 q.y, sp := BitVec.ofNat 8 q.sp,
           pc := BitVec.ofNat 16 q.pc }.loadP (BitVec.ofNat 8 q.p)

/-- Write the register file between steps: the pending copy follows it. -/
def State.setFile (s : State) (r : RegFile) : State :=
  { s with file := r, pend := r, opcode := none }

/-- `apply_snapshot(s)` (R40): from Unreset the status becomes Running; memory, cycles and hooks stay. -/
def applySnapshot (q : HostSnapshot) (s : State) : CallResult Unit :=
  if s.status.admitsReset && q.inRange then
    .returned () { s.setFile (q.toFile s.file) with status := .running, out := Output.empty }
  else .notAdmitted

/-- The two vector reads of `reset()` (R450), as data reads whose snapshot is the pending copy with PC = 0xFFFC (D20). -/
def resetVector (snap : Snapshot) : Work Addr := do
  logAccess (.read 0xFFFC)
  let lo ← memRead snap 0xFFFC
  logAccess (.read 0xFFFD)
  let hi ← memRead snap 0xFFFD
  pure (hiLo hi lo)

/-- `reset()` completes (R450): the register file, with PC from the vector; cycles 0; status Running. -/
def State.afterReset (t : State) (p : ResetParams) (pc : Addr) : State :=
  { t.setFile (RegFile.ofReset p pc) with cycles := 0, status := .running }

/-- `reset()` (R450), for any values of the parameters the spec leaves open (R7). A failing vector hook is an
ExecutionFault that leaves the register file and the cycle counter as they were. -/
def resetCall (p : ResetParams) (s : State) : CallResult Unit :=
  if s.status.admitsReset then
    match endCall (resetVector (RegFile.ofReset p 0xFFFC).snapshot { s with out := Output.empty }) with
    | .returned pc t => .returned () (t.afterReset p pc)
    | .addressError a t => .addressError a t
    | .executionFault info t => .executionFault info t
    | .notAdmitted => .notAdmitted
  else .notAdmitted

end Sys2Proof.Machine
end

