-- ==== Sys2Proof/Safety.lean ====
section
/-!
DEFINITION. The terms claims are stated in: the invariant of the machine between steps, what hooks may change, what a
completed instruction is, and the plain reading of operands (the spec's formulas over numbers and stored bytes, with no
dispatch) that the machine's own operand forms are held against.
-/

namespace Sys2Proof.Machine

/-! ## The invariant -/

/-- The hook registry is as R54 to R57 build it: handles rise in registration order and are all below the next one, and
every record passed the checks of R55. -/
abbrev State.RegistryOk (s : State) : Prop :=
  s.hooks.Pairwise (fun h h' => h.handle < h'.handle)
    ∧ (∀ h ∈ s.hooks, h.handle < s.nextHandle)
    ∧ (∀ h ∈ s.hooks, h.trigger.check h.kind = .ok)

/-- What holds of the stores during a step as well: memory canonical, registry in order. -/
abbrev State.StoresOk (s : State) : Prop :=
  s.mem.wf = true ∧ s.RegistryOk

/-- The machine between steps: the stores are in order, the pending copy is the register file (R131), and no opcode is
held. -/
abbrev State.Inv (s : State) : Prop :=
  s.StoresOk ∧ s.pend = s.file ∧ s.opcode = none

/-! ## Hooks -/

/-- No hook is registered: every access is plain storage (R68, R72). -/
abbrev State.Quiet (s : State) : Prop :=
  s.hooks = []

/-- The host writes no byte at this address in any move still to come. -/
abbrev State.HostSpares (s : State) (a : Addr) : Prop :=
  ∀ v, HostMove.write a.toNat v ∉ s.host

/-- Whether a host move changes the registry. -/
def HostMove.touchesRegistry : HostMove → Bool
  | .answer _ => false
  | .read _ => false
  | .write _ _ => false
  | .register _ _ _ => true
  | .remove _ => true
  | .registerSnapshot => false
  | .cycleCount => false

/-- Every host move still to come is one the spec has a move for (R51, R55). -/
abbrev State.HostAdmitted (s : State) : Prop :=
  ∀ m ∈ s.host, m.admitted = true

/-- No handle handed out before `s` names a new record in `t` (R57): every record of `t` is one of `s` or has a handle from
`s.nextHandle` on, and the counter has not fallen. -/
abbrev HandlesFresh (s t : State) : Prop :=
  s.nextHandle ≤ t.nextHandle ∧ ∀ h ∈ t.hooks, h ∈ s.hooks ∨ s.nextHandle ≤ h.handle

/-- How the callbacks of a read, if they only answer, give it its byte (R63): the hooks of the list that are called, the
host moves they use, and the byte. -/
inductive ReadAnswered (list : List Hook) (stored : Byte) : List Hook → List HostMove → Byte → Prop where
  | fallThrough : ReadAnswered list stored list (List.replicate list.length (.answer .noOverride)) stored
  | override (before : List Hook) (h : Hook) (after : List Hook) (v : Nat) : list = before ++ h :: after → v < 256 →
      ReadAnswered list stored (before ++ [h])
        (List.replicate before.length (.answer .noOverride) ++ [.answer (.override v)]) (BitVec.ofNat 8 v)

/-- What the dispatch of one access may do to the machine (R68, R70, R71): the callbacks use up host moves, write
memory where a host move writes it, change the registry where a host move does, and are recorded; nothing else
changes. -/
structure HostRan (s t : State) : Prop where
  file : t.file = s.file
  pend : t.pend = s.pend
  opcode : t.opcode = s.opcode
  cycles : t.cycles = s.cycles
  status : t.status = s.status
  begun : t.begun = s.begun
  consumed : t.out.consumed = s.out.consumed
  illegal : t.out.illegal = s.out.illegal
  accesses : t.out.accesses = s.out.accesses
  calls : s.out.calls <+: t.out.calls
  replies : s.out.replies <+: t.out.replies
  host : t.host <:+ s.host
  mem : ∀ a, s.HostSpares a → t.mem.read a = s.mem.read a
  registry : (∀ m ∈ s.host, m.touchesRegistry = false) → t.hooks = s.hooks ∧ t.nextHandle = s.nextHandle
  handles : HandlesFresh s t

/-! ## The host's calls -/

/-- A call of the host between steps that can change the state (60_exceptions R419), other than `step()`. -/
inductive HostCall where
  | read (a : Nat)
  | write (a v : Nat)
  | loadImage (a : Nat) (bytes : List Byte)
  | registerHook (t : Trigger) (k : HookKind) (callback : Nat)
  | removeHook (handle : Nat)
  | applySnapshot (q : HostSnapshot)
  | reset (p : ResetParams)
deriving DecidableEq, Repr

/-- The state a call leaves, whether it returns, raises AddressError or raises ExecutionFault; none if it has no move. -/
def CallResult.state? {α : Type} (r : CallResult α) : Option State :=
  match r with
  | .returned _ t => some t
  | .addressError _ t => some t
  | .executionFault _ t => some t
  | .notAdmitted => none

/-- The state a host call leaves, unless it has no move. -/
def HostCall.leaves? (c : HostCall) (s : State) : Option State :=
  match c with
  | .read a => (hostRead a s).state?
  | .write a v => (hostWrite a v s).state?
  | .loadImage a bytes => (Sys2Proof.Machine.loadImage a bytes s).state?
  | .registerHook t k callback => (Sys2Proof.Machine.registerHook t k callback s).state?
  | .removeHook handle => (Sys2Proof.Machine.removeHook handle s).state?
  | .applySnapshot q => (Sys2Proof.Machine.applySnapshot q s).state?
  | .reset p => (resetCall p s).state?

/-! ## How work and exec end -/

/-- The state a piece of work leaves, whether it answered or stopped. -/
def Work.leaves {α : Type} (w : Work α) (s : State) : State :=
  match w s with
  | .ok _ t => t
  | .error _ t => t

/-- The instruction completes: exec answers a next state that is still Running. (The other next state exec can answer
is that of an ExecutionFault, in status Faulted.) -/
abbrev Completes (i : Instr) (s t : State) : Prop :=
  s.status = .running ∧ exec i s = .next t ∧ t.status = .running

/-- The state after an instruction completed in `s` that left these registers and this memory, took `n` cycles and made
these accesses: R131's commit, and nothing else changed. -/
def State.done (s : State) (r : RegFile) (mem : Memory) (n : Nat) (acc : List Access) : State :=
  { s with file := r, pend := r, opcode := none, mem := mem, cycles := s.cycles + n
           out := { s.out with consumed := n, accesses := s.out.accesses ++ acc } }

/-! ## Plain operands: R141 to R149 as formulas over numbers -/

/-- The pointer bytes an operand form reads, in order (R140 item 3), as numbers. -/
def plainPointer (r : RegFile) : MemMode → List Nat
  | .izx b => [(b.toNat + r.x.toNat) % 256, ((b.toNat + r.x.toNat) % 256 + 1) % 256]
  | .izy b => [b.toNat, (b.toNat + 1) % 256]
  | .zp _ | .zpx _ | .zpy _ | .abs _ | .abx _ | .aby _ => []

/-- The 16-bit value of the pointer bytes at two address numbers, low byte first. -/
def plainWord (mem : Memory) (lo hi : Nat) : Nat :=
  (mem.get lo).toNat + 256 * (mem.get hi).toNat

/-- The base address an index is added to with a carry into the high byte (R146, R149); for the other forms, the
effective address itself. -/
def plainBase (r : RegFile) (mem : Memory) : MemMode → Nat
  | .zp b => b.toNat
  | .zpx b => (b.toNat + r.x.toNat) % 256
  | .zpy b => (b.toNat + r.y.toNat) % 256
  | .abs w | .abx w | .aby w => w.toNat
  | .izx b => plainWord mem ((b.toNat + r.x.toNat) % 256) (((b.toNat + r.x.toNat) % 256 + 1) % 256)
  | .izy b => plainWord mem b.toNat ((b.toNat + 1) % 256)

/-- The effective address (R143 to R149), as a number. -/
def plainEA (r : RegFile) (mem : Memory) (m : MemMode) : Nat :=
  match m with
  | .abx _ => (plainBase r mem m + r.x.toNat) % 65536
  | .aby _ | .izy _ => (plainBase r mem m + r.y.toNat) % 65536
  | .zp _ | .zpx _ | .zpy _ | .abs _ | .izx _ => plainBase r mem m

/-- Whether an operand form has a page cross (R146, R149, R151). -/
def plainCross (r : RegFile) (mem : Memory) (m : MemMode) : Bool :=
  plainBase r mem m / 256 != plainEA r mem m / 256

/-- The accesses of an operand form's pointer bytes. -/
def plainPointerReads (r : RegFile) (m : MemMode) : List Access :=
  (plainPointer r m).map fun k => .read (BitVec.ofNat 16 k)

/-- The address of an operand form. -/
def plainAddr (r : RegFile) (mem : Memory) (m : MemMode) : Addr :=
  BitVec.ofNat 16 (plainEA r mem m)

/-- `ReadOperand()` over plain storage. -/
def plainOperand (r : RegFile) (mem : Memory) : ReadMode → Byte
  | .imm b => b
  | .mem m => mem.read (plainAddr r mem m)

/-- Whether reading an operand has a page cross. -/
def plainOperandCross (r : RegFile) (mem : Memory) : ReadMode → Bool
  | .imm _ => false
  | .mem m => plainCross r mem m

/-- The accesses of reading an operand (R140). -/
def plainOperandReads (r : RegFile) (mem : Memory) : ReadMode → List Access
  | .imm _ => []
  | .mem m => plainPointerReads r m ++ [.read (plainAddr r mem m)]

/-- The stack byte SP designates, `k` pushes further down (R23, R24): the stack wraps within page 1. -/
def stackByte (sp : Byte) (k : Nat) : Addr :=
  BitVec.ofNat 16 (256 + (sp.toNat + 256 - k % 256) % 256)

/-- The stack byte `k` pulls further up (R25). -/
def stackByteUp (sp : Byte) (k : Nat) : Addr :=
  BitVec.ofNat 16 (256 + (sp.toNat + k) % 256)

/-- The register file with N and Z set from a result byte (R30). -/
def RegFile.withNZ (r : RegFile) (v : Byte) : RegFile :=
  { r with z := decide (v = 0), n := decide (128 ≤ v.toNat) }

/-- `sext_8` of a byte (R11). -/
def signedByte (b : Byte) : Int :=
  if b.toNat < 128 then (b.toNat : Int) else (b.toNat : Int) - 256

/-- The branch target of R152, as a number. -/
def plainTarget (pcNext : Addr) (b1 : Byte) : Addr :=
  BitVec.ofInt 16 ((pcNext.toNat : Int) + signedByte b1)

/-! ## Cycles by class (R467) -/

/-- The read class of R467, by mode and page cross. -/
def readClassCycles (m : Mode) (crossed : Bool) : Nat :=
  match m with
  | .imm => 2
  | .zp => 3
  | .zpx | .zpy | .abs => 4
  | .abx | .aby => 4 + bitNat crossed
  | .izx => 6
  | .izy => 5 + bitNat crossed
  | .imp | .acc | .ind | .rel => 0

/-- The write class of R467. -/
def storeClassCycles (m : Mode) : Nat :=
  match m with
  | .zp => 3
  | .zpx | .zpy | .abs => 4
  | .abx | .aby => 5
  | .izx | .izy => 6
  | .imp | .acc | .imm | .ind | .rel => 0

/-- The read-modify-write class of R467. -/
def rmwClassCycles (m : Mode) : Nat :=
  match m with
  | .acc => 2
  | .zp => 5
  | .zpx | .abs => 6
  | .abx => 7
  | .imp | .imm | .zpy | .aby | .ind | .izx | .izy | .rel => 0

/-- The cycles of a branch (R290, R467). -/
def branchCycles (p : Path) : Nat :=
  2 + bitNat p.taken + bitNat (p.taken && p.crossed)

/-- The cycles of an instruction by the class table of R467. -/
def classCycles (i : Instr) (p : Path) : Nat :=
  match i with
  | .lda m | .ldx m | .ldy m | .adc m | .sbc m | .cmp m | .cpx m | .cpy m | .and m | .ora m | .eor m =>
    readClassCycles m.tag p.crossed
  | .bit m => readClassCycles m.tag p.crossed
  | .sta m | .stx m | .sty m => storeClassCycles m.tag
  | .inc m | .dec m => rmwClassCycles m.tag
  | .asl m | .lsr m | .rol m | .ror m => rmwClassCycles m.tag
  | .bcc _ | .bcs _ | .beq _ | .bne _ | .bmi _ | .bpl _ | .bvc _ | .bvs _ => branchCycles p
  | .jmp (.abs _) => 3
  | .jmp (.ind _) => 5
  | .jsr _ | .rts | .rti => 6
  | .brk => 7
  | .pha | .php => 3
  | .pla | .plp => 4
  | .illegal _ => 1
  | .tax | .tay | .txa | .tya | .tsx | .txs | .inx | .iny | .dex | .dey | .nop | .clc | .sec | .cli | .sei | .cld | .sed
  | .clv => 2

/-! ## Steps -/

/-- The state in which an instruction of `len` bytes at PC is run when no hook is registered: PC is past it, its opcode
is held, its bytes have been read (R130, R132, R134), and a step has begun. -/
def State.fetched (s : State) (len : Nat) : State :=
  { s with pend := { s.file with pc := s.file.pc + BitVec.ofNat 16 len }, opcode := some (s.mem.read s.file.pc)
           begun := true
           out := { Output.empty with accesses := .fetch s.file.pc ::
             (List.range (len - 1)).map fun k => .read (s.file.pc + BitVec.ofNat 16 (k + 1)) } }

/-- The three bytes stored from PC on, modulo 65536. -/
def State.bytesAtPc (s : State) : List Byte :=
  [s.mem.read s.file.pc, s.mem.read (s.file.pc + 1), s.mem.read (s.file.pc + 2)]

/-- The same reply with a cycle count further on. -/
def HostReply.addCycles (k : Nat) (r : HostReply) : HostReply :=
  match r with
  | .count n => .count (n + k)
  | .byte v => .byte v
  | .done => .done
  | .handle h => .handle h
  | .snapshot q => .snapshot q
  | .addressError a => .addressError a
  | .executionFault h a kind => .executionFault h a kind

/-- The same state with the cycle counter further on, and what `cycle_count()` has given callbacks with it. -/
def State.addCycles (s : State) (k : Nat) : State :=
  { s with cycles := s.cycles + k, out := { s.out with replies := s.out.replies.map (HostReply.addCycles k) } }

/-- Change the state of a next-state outcome. -/
def mapNext (f : State → State) (o : Host.Outcome State Fault Refusal) : Host.Outcome State Fault Refusal :=
  match o with
  | .next t => .next (f t)
  | .fault r => .fault r
  | .refused r => .refused r

/-- The operations whose work commits bytes: stores, read-modify-writes and pushes (R140). The accumulator form of a
shift commits none. -/
def commitsByte : Instr → Bool
  | .sta _ | .stx _ | .sty _ | .inc _ | .dec _ | .jsr _ | .brk | .pha | .php => true
  | .asl m | .lsr m | .rol m | .ror m => m != .acc
  | .lda _ | .ldx _ | .ldy _ | .adc _ | .sbc _ | .cmp _ | .cpx _ | .cpy _ | .and _ | .ora _ | .eor _ | .bit _ => false
  | .bcc _ | .bcs _ | .beq _ | .bne _ | .bmi _ | .bpl _ | .bvc _ | .bvs _ | .jmp _ | .rts | .rti | .nop => false
  | .tax | .tay | .txa | .tya | .tsx | .txs | .inx | .iny | .dex | .dey | .pla | .plp => false
  | .clc | .sec | .cli | .sei | .cld | .sed | .clv | .illegal _ => false

/-- The memory operand an instruction stores to, if it stores through an operand form. -/
def storeOperand? : Instr → Option MemMode
  | .sta m | .stx m | .sty m | .inc m | .dec m => some m
  | .asl (.mem m) | .lsr (.mem m) | .rol (.mem m) | .ror (.mem m) => some m
  | _ => none

/-! ## Decimal digits -/

/-- `AddDec` as R231 writes it, over numbers with their bits: the result and C, V, N, Z. -/
def addDecPseudo (a m c : Nat) : Nat × Bool × Bool × Bool × Bool :=
  let lo0 := (a &&& 0x0F) + (m &&& 0x0F) + c
  let lo := if lo0 ≥ 0x0A then ((lo0 + 0x06) &&& 0x0F) + 0x10 else lo0
  let s := (a &&& 0xF0) + (m &&& 0xF0) + lo
  let s' := if s ≥ 0xA0 then s + 0x60 else s
  (s' % 256, decide (s' ≥ 0x100), ((a ^^^ s) &&& (m ^^^ s) &&& 0x80) != 0, s.testBit 7, (a + m + c) % 256 == 0)

/-- The result of `SubDec` as R233 writes it, over signed numbers with their bits; 0x100 and 0x400, which no mask or
modulus sees, keep what is masked or reduced from being negative. -/
def subDecPseudo (a m c : Nat) : Nat :=
  let lo0 : Int := (a &&& 0x0F : Nat) - (m &&& 0x0F : Nat) + c - 1
  let lo : Int := if lo0 < 0 then ((lo0 - 0x06 + 0x100).toNat &&& 0x0F : Nat) - 0x10 else lo0
  let s : Int := (a &&& 0xF0 : Nat) - (m &&& 0xF0 : Nat) + lo
  let s' : Int := if s < 0 then s - 0x60 else s
  (s' + 0x400).toNat % 256

/-- A byte whose two digits are decimal (R231). -/
abbrev isBcd (b : Byte) : Prop :=
  b.toNat / 16 < 10 ∧ b.toNat % 16 < 10

/-- The number two decimal digits stand for. -/
def bcdValue (b : Byte) : Nat :=
  10 * (b.toNat / 16) + b.toNat % 16

end Sys2Proof.Machine
end

