-- ==== Sys2Proof/Certificates/Slice0/Obligations.lean ====
section
/-!
DEFINITION. The statements for the provers. `Quiet` states have no hook registered; there every result is stated as one
equation `exec i s = .next (s.done registers memory cycles accesses)`, which says what changes and that nothing else
does. Statements without `Quiet` hold whatever hooks are registered and whatever the host does in them.
-/

open Sys2Proof Sys2Proof.Machine

/-! ## Encoding -/

/-- R114: decoding the bytes of a well-formed instruction gives the instruction back, with every operand, whatever
follows. -/
def Obligations.DecodeInvertsEncode : Prop :=
  ∀ (i : Instr) (rest : List Byte), i.wf = true → decodeBytes (encode i ++ rest) = .ok (i, rest)

/-- R100, R106, R107: whatever decodes is a well-formed instruction and the bytes are its encoding. -/
def Obligations.EncodeInvertsDecode : Prop :=
  ∀ (bytes rest : List Byte) (i : Instr), decodeBytes bytes = .ok (i, rest) → i.wf = true ∧ encode i ++ rest = bytes

/-- R105: decoding never fails on any opcode byte; the opcode byte alone gives the operation, the mode and the length. -/
def Obligations.EveryOpcodeByteDecodes : Prop :=
  ∀ (op : Byte) (rest : List Byte), (lookup op).operandBytes ≤ rest.length →
    ∃ i, decodeBytes (op :: rest) = .ok (i, rest.drop (lookup op).operandBytes)
      ∧ i.operation = (lookup op).operation ∧ i.mode = (lookup op).mode

/-- R106, R107: 151 bytes are documented, each (operation, mode) pair has one of them, and the rest are exactly the
ILLEGAL bytes, all with one descriptor. -/
def Obligations.OpcodeMapIsUnambiguous : Prop :=
  ((List.range 256).filter fun k => (lookup (BitVec.ofNat 8 k)).operation != .illegal).length = 151
    ∧ (∀ a b : Byte, (lookup a).operation ≠ .illegal → (lookup a).operation = (lookup b).operation →
        (lookup a).mode = (lookup b).mode → a = b)
    ∧ (∀ a : Byte, (lookup a).operation = .illegal ↔ a ∈ illegalBytes)
    ∧ (∀ a : Byte, a ∈ illegalBytes → lookup a = ⟨.illegal, .imp, 0, 1, .none⟩)

/-- Words written out from R100 and R106 decode to the instructions they stand for, one for each family. -/
def Obligations.SpecWordsDecode : Prop :=
  decodeTableWord 16 0x41A9 = some (.lda (.imm 0x41)) ∧ decodeTableWord 24 0x02008D = some (.sta (.abs 0x0200))
    ∧ decodeTableWord 24 0x12FF6C = some (.jmp (.ind 0x12FF)) ∧ decodeTableWord 16 0x40B1 = some (.lda (.mem (.izy 0x40)))
    ∧ decodeTableWord 16 0xFF96 = some (.stx (.zpy 0xFF)) ∧ decodeTableWord 24 0x300020 = some (.jsr 0x3000)
    ∧ decodeTableWord 24 0x30007E = some (.ror (.mem (.abx 0x3000))) ∧ decodeTableWord 16 0xF9D0 = some (.bne 0xF9)
    ∧ decodeTableWord 8 0x68 = some .pla ∧ decodeTableWord 8 0x02 = some (.illegal 0x02)

/-- R111: which rows pay for a page cross (23, in modes ABX, ABY and IZY of the read operations), which pay as branches
(the 8 REL rows), and that no other does. -/
def Obligations.PenaltyColumnMarksReadsAndBranches : Prop :=
  (∀ op : Byte, (lookup op).penalty = .pageCross ↔
      ((lookup op).operation ∈ [.adc, .and, .cmp, .eor, .lda, .ora, .sbc, .ldx, .ldy]
        ∧ (lookup op).mode ∈ [.abx, .aby, .izy]))
    ∧ (∀ op : Byte, (lookup op).penalty = .branch ↔ (lookup op).mode = .rel)
    ∧ ((List.range 256).filter fun k => (lookup (BitVec.ofNat 8 k)).penalty == .pageCross).length = 23
    ∧ ((List.range 256).filter fun k => (lookup (BitVec.ofNat 8 k)).penalty == .branch).length = 8

/-- R150, R151, R467: the cycles the opcode table and its penalty column give are those of the class table. -/
def Obligations.CyclesFollowTheClassTable : Prop :=
  ∀ (i : Instr) (p : Path), i.wf = true → i.cycles p = classCycles i p

/-! ## Memory -/

/-- R50: the canonical form is one per content: two canonical stores that read alike at all 65,536 addresses are equal. -/
def Obligations.CanonicalMemoriesAreDeterminedByReads : Prop :=
  ∀ m m' : Memory, m.wf = true → m'.wf = true → (∀ a : Addr, m.read a = m'.read a) → m = m'

/-! ## The step -/

/-- R130, R132, R134: with no hook registered, the step at bytes that decode to `i` is exec of `i` in the state with PC
past the instruction and its bytes read. -/
def Obligations.StepRunsDecodedInstruction : Prop :=
  ∀ (s : State) (i : Instr) (rest : List Byte), s.status = .running → s.Quiet →
    decodeBytes s.bytesAtPc = .ok (i, rest) → step s = exec i (s.fetched (3 - rest.length))

/-- R33, R455, K15, K16: no step before reset, and none after an ExecutionFault; which outcome of the model says so is the
model's choice (log entry 15). -/
def Obligations.StepStopsUnlessRunning : Prop :=
  ∀ (s : State), (s.status = .unreset → step s = .refused .stepBeforeReset)
    ∧ (∀ info, s.status = .faulted info → step s = .fault (.executionFault info))

/-- R105, R133: whatever hooks are registered, what a fetch gives exec is a well-formed instruction. -/
def Obligations.FetchedInstructionsAreWellFormed : Prop :=
  ∀ (s u : State) (i : Instr), fetchInstr s = .ok i u → i.wf = true

/-- R105, R400, R406: in status Running every step answers a next state, Running or Faulted, whatever the instruction and
whatever hooks do, as long as the host makes only moves the spec has. (That a fault is a next state is log entry 15.) -/
def Obligations.RunningStepAlwaysAnswers : Prop :=
  ∀ (s : State), s.status = .running → s.HostAdmitted →
    ∃ t, step s = .next t ∧ (t.status = .running ∨ ∃ info, t.status = .faulted info)

/-- R131, R411, R450: a step, a host read, a host write or a reset that ends in an ExecutionFault leaves the register file
and the cycle counter as they were, and the bytes a write committed. The record of a step's fault names the instruction's
address, the opcode byte exactly if its fetch completed, and a hook that matches the access (one registered before the
step, unless a host move changes the registry). That a step's fault is a next state is log entry 15; that a block Faulted
already keeps its first record is log entry 18. -/
def Obligations.FaultsKeepRegistersAndCounter : Prop :=
  ∀ (s : State),
    let left := fun (info : FaultInfo) (t : State) =>
      t.file = s.file ∧ t.pend = s.file ∧ t.cycles = s.cycles ∧ t.opcode = none ∧ info.pc0 = none ∧ info.opcode = none
        ∧ (s.status = .unreset ∨ s.status = .running → t.status = .faulted info)
        ∧ (∀ first, s.status = .faulted first → t.status = .faulted first)
    (∀ (t : State) (info : FaultInfo), s.status = .running → step s = .next t → t.status = .faulted info →
      t.file = s.file ∧ t.pend = s.file ∧ t.cycles = s.cycles ∧ t.opcode = none ∧ info.pc0 = some s.file.pc
        ∧ (∀ op u, fetchOpcode s.begin = .ok op u → info.opcode = some op)
        ∧ (∀ e u, fetchOpcode s.begin = .error e u → info.opcode = none)
        ∧ ((∀ m ∈ s.host, m.touchesRegistry = false) → ∃ h ∈ s.hooks,
            h.handle = info.handle ∧ h.kind = info.kind ∧ h.trigger.matchesAddr info.address = true))
    ∧ (∀ a info t, hostRead a s = .executionFault info t → left info t)
    ∧ (∀ a v info t, hostWrite a v s = .executionFault info t → left info t
        ∧ ∀ b : Addr, s.HostSpares b → t.mem.read b = if b.toNat = a then BitVec.ofNat 8 v else s.mem.read b)
    ∧ (∀ p info t, resetCall p s = .executionFault info t → left info t)

/-- R32, R131, R150, R467: a completed step adds to the counter what it returns, between 1 and 7 cycles. -/
def Obligations.CompletedStepAddsItsCycles : Prop :=
  ∀ (s t : State), s.status = .running → step s = .next t → t.status = .running →
    t.cycles = s.cycles + t.out.consumed ∧ 1 ≤ t.out.consumed ∧ t.out.consumed ≤ 7

/-- R50, R55, R57, R131: every step keeps the invariant: memory canonical, handles rising and fresh, triggers checked,
the pending copy equal to the register file, no opcode held. -/
def Obligations.StepKeepsInvariant : Prop :=
  ∀ (s t : State), s.Inv → step s = .next t → t.Inv

/-- `State.reset` is what `reset()` makes of a newly built block with the spec's suggested default parameters (the model's
choice, log entry 1), and it has the invariant. -/
def Obligations.ResetStateHasInvariant : Prop :=
  resetCall Config.resetDefaults State.constructed = .returned () State.reset ∧ State.reset.Inv

/-- R40, R51, R57, R58, R410, R411, R450, R460: whatever state a host call leaves, when it returns and when it raises
AddressError or ExecutionFault, it has the invariant if the state before had it, in every status. -/
def Obligations.HostCallsKeepInvariant : Prop :=
  ∀ (s t : State) (c : HostCall), s.Inv → c.leaves? s = some t → t.Inv

/-- R32, R466: the cycle counter feeds nothing: a step from a state with a higher count is the same step, with the count
as much higher, in the counter and in what `cycle_count()` gave a callback. -/
def Obligations.CycleCountIsInert : Prop :=
  ∀ (s : State) (k : Nat), step (s.addCycles k) = mapNext (fun t => t.addCycles k) (step s)

/-- R68: hooks that answer None and do nothing else are transparent: the step changes registers, memory, cycles and
status, makes accesses and emits events, as it would with no hook registered. -/
def Obligations.UnansweringHooksAreTransparent : Prop :=
  ∀ (s : State), s.status = .running → (∀ m ∈ s.host, m = .answer .noOverride) →
    6 * s.hooks.length ≤ s.host.length →
    ∃ t t', step s = .next t ∧ step { s with hooks := [] } = .next t' ∧ t.file = t'.file ∧ t.mem = t'.mem
      ∧ t.cycles = t'.cycles ∧ t.status = t'.status ∧ t.out.accesses = t'.out.accesses
      ∧ t.out.illegal = t'.out.illegal ∧ t.out.consumed = t'.out.consumed ∧ t.hooks = s.hooks

/-! ## Frames, whatever hooks are registered -/

/-- R29, R31: a flag that an instruction's rule does not name is unchanged when the instruction completes. -/
def Obligations.FlagsKeptUnlessNamed : Prop :=
  ∀ (i : Instr) (s t : State), Completes i s t →
    (i.operation ∉ [.adc, .sbc, .cmp, .cpx, .cpy, .asl, .lsr, .rol, .ror, .clc, .sec, .plp, .rti] →
      t.file.c = s.pend.c)
    ∧ (i.operation ∉ [.adc, .sbc, .and, .ora, .eor, .bit, .cmp, .cpx, .cpy, .inc, .dec, .inx, .iny, .dex, .dey, .lda,
        .ldx, .ldy, .tax, .tay, .txa, .tya, .tsx, .pla, .asl, .lsr, .rol, .ror, .plp, .rti] →
      t.file.z = s.pend.z ∧ t.file.n = s.pend.n)
    ∧ (i.operation ∉ [.sei, .cli, .brk, .plp, .rti] → t.file.i = s.pend.i)
    ∧ (i.operation ∉ [.sed, .cld, .plp, .rti] → t.file.d = s.pend.d)
    ∧ (i.operation ∉ [.adc, .sbc, .bit, .clv, .plp, .rti] → t.file.v = s.pend.v)

/-- R21, R22, R23, R26: A, X, Y, SP and PC are changed only by the instructions the spec names for each; PC is otherwise
the address after the instruction. -/
def Obligations.RegistersKeptUnlessNamed : Prop :=
  ∀ (i : Instr) (s t : State), Completes i s t →
    (i.operation ∉ [.lda, .adc, .sbc, .and, .ora, .eor, .txa, .tya, .pla] →
      (i.operation ∈ [.asl, .lsr, .rol, .ror] → i.mode ≠ .acc) → t.file.a = s.pend.a)
    ∧ (i.operation ∉ [.ldx, .inx, .dex, .tax, .tsx] → t.file.x = s.pend.x)
    ∧ (i.operation ∉ [.ldy, .iny, .dey, .tay] → t.file.y = s.pend.y)
    ∧ (i.operation ∉ [.txs, .pha, .php, .pla, .plp, .jsr, .rts, .brk, .rti] → t.file.sp = s.pend.sp)
    ∧ (i.operation ∉ [.bcc, .bcs, .beq, .bne, .bmi, .bpl, .bvc, .bvs, .jmp, .jsr, .rts, .brk, .rti] →
      t.file.pc = s.pend.pc)

/-- R140: an instruction that commits no byte leaves every byte as it was that no move of the host's writes, whether it
completes or faults. -/
def Obligations.ReadersKeepMemory : Prop :=
  ∀ (i : Instr) (s t : State) (a : Addr), commitsByte i = false → exec i s = .next t → s.HostSpares a →
    t.mem.read a = s.mem.read a

/-- R78, R140, R203: an instruction that stores through an operand form changes no byte but the one at that form's
effective address (and those the host writes). -/
def Obligations.StoresKeepOtherBytes : Prop :=
  ∀ (i : Instr) (m : MemMode) (s t : State) (a : Addr), storeOperand? i = some m → exec i s = .next t →
    (∀ ea crossed u, effAddr m s = .ok (ea, crossed) u → a ≠ ea) → s.HostSpares a → t.mem.read a = s.mem.read a

/-- R24, R300, R302, R320, R321: a push changes no byte but the stack byte SP designates: one for PHA and PHP, two for
JSR, three for BRK. -/
def Obligations.PushesKeepOtherBytes : Prop :=
  ∀ (i : Instr) (s t : State) (a : Addr), exec i s = .next t → s.HostSpares a →
    ((i = .pha ∨ i = .php) → a ≠ stackAddr s.pend.sp → t.mem.read a = s.mem.read a)
    ∧ (i.operation = .jsr → a ≠ stackAddr s.pend.sp → a ≠ stackAddr (s.pend.sp - 1) → t.mem.read a = s.mem.read a)
    ∧ (i = .brk → a ≠ stackAddr s.pend.sp → a ≠ stackAddr (s.pend.sp - 1) → a ≠ stackAddr (s.pend.sp - 2) →
        t.mem.read a = s.mem.read a)

/-- R57, R58, R81: the core creates and removes no hook of its own: unless a host move does, a step leaves the registry as it
is, and it only uses host moves up. Whatever host moves do, no handle given before the step names a new record after it
(R57). -/
def Obligations.StepChangesNoHookItself : Prop :=
  ∀ (s t : State), step s = .next t →
    t.host <:+ s.host
    ∧ ((∀ m ∈ s.host, m.touchesRegistry = false) → t.hooks = s.hooks ∧ t.nextHandle = s.nextHandle)
    ∧ HandlesFresh s t

/-! ## Results of the read and write classes, with no hook registered -/

/-- R200, R201, R202: the loads write the operand to their register and set N and Z from it. -/
def Obligations.LoadsTakeTheirOperand : Prop :=
  ∀ (s : State) (m : ReadMode), s.Quiet →
    let v := plainOperand s.pend s.mem m
    let n := readClassCycles m.tag (plainOperandCross s.pend s.mem m)
    let acc := plainOperandReads s.pend s.mem m
    ((Instr.lda m).wf = true → exec (.lda m) s = .next (s.done ({ s.pend with a := v }.withNZ v) s.mem n acc))
    ∧ ((Instr.ldx m).wf = true → exec (.ldx m) s = .next (s.done ({ s.pend with x := v }.withNZ v) s.mem n acc))
    ∧ ((Instr.ldy m).wf = true → exec (.ldy m) s = .next (s.done ({ s.pend with y := v }.withNZ v) s.mem n acc))

/-- R203, R204, R205: the stores write their register at the effective address and change nothing else. -/
def Obligations.StoresWriteTheirRegister : Prop :=
  ∀ (s : State) (m : MemMode), s.Quiet →
    let ea := plainAddr s.pend s.mem m
    let n := storeClassCycles m.tag
    let acc := fun v => plainPointerReads s.pend m ++ [.write ea v]
    ((Instr.sta m).wf = true → exec (.sta m) s = .next (s.done s.pend (s.mem.write ea s.pend.a) n (acc s.pend.a)))
    ∧ ((Instr.stx m).wf = true → exec (.stx m) s = .next (s.done s.pend (s.mem.write ea s.pend.x) n (acc s.pend.x)))
    ∧ ((Instr.sty m).wf = true → exec (.sty m) s = .next (s.done s.pend (s.mem.write ea s.pend.y) n (acc s.pend.y)))

/-- R206 to R211: the six transfers; all but TXS set N and Z from the value moved. -/
def Obligations.TransfersMoveRegisters : Prop :=
  ∀ (s : State),
    exec .tax s = .next (s.done ({ s.pend with x := s.pend.a }.withNZ s.pend.a) s.mem 2 [])
    ∧ exec .tay s = .next (s.done ({ s.pend with y := s.pend.a }.withNZ s.pend.a) s.mem 2 [])
    ∧ exec .txa s = .next (s.done ({ s.pend with a := s.pend.x }.withNZ s.pend.x) s.mem 2 [])
    ∧ exec .tya s = .next (s.done ({ s.pend with a := s.pend.y }.withNZ s.pend.y) s.mem 2 [])
    ∧ exec .tsx s = .next (s.done ({ s.pend with x := s.pend.sp }.withNZ s.pend.sp) s.mem 2 [])
    ∧ exec .txs s = .next (s.done { s.pend with sp := s.pend.x } s.mem 2 [])

/-! ## Arithmetic -/

/-- R230: AddBin: the sum modulo 256, the carry out of bit 7, the signed overflow both as the formula and as leaving
−128..127, N and Z. -/
def Obligations.BinaryAdditionIsExact : Prop :=
  ∀ (a m : Byte) (c : Bool),
    (addBin a m c).r.toNat = (a.toNat + m.toNat + bitNat c) % 256
    ∧ ((addBin a m c).c = true ↔ a.toNat + m.toNat + bitNat c > 255)
    ∧ ((addBin a m c).v = true ↔ ((a ^^^ (addBin a m c).r) &&& (m ^^^ (addBin a m c).r) &&& 0x80) ≠ 0)
    ∧ ((addBin a m c).v = true ↔
        ¬ (-128 ≤ signedByte a + signedByte m + bitNat c ∧ signedByte a + signedByte m + bitNat c ≤ 127))
    ∧ ((addBin a m c).n = true ↔ 128 ≤ (addBin a m c).r.toNat)
    ∧ ((addBin a m c).z = true ↔ (addBin a m c).r = 0)

/-- R232: SubBin: the difference modulo 256 with C as not-borrow; C exactly when there is no borrow; V exactly when the
signed difference leaves −128..127. -/
def Obligations.BinarySubtractionIsExact : Prop :=
  ∀ (a m : Byte) (c : Bool),
    subBin a m c = addBin a (~~~m) c
    ∧ ((subBin a m c).r.toNat : Int) = ((a.toNat : Int) - m.toNat - (1 - bitNat c)) % 256
    ∧ ((subBin a m c).c = true ↔ 0 ≤ (a.toNat : Int) - m.toNat - (1 - bitNat c))
    ∧ ((subBin a m c).v = true ↔ ¬ (-128 ≤ signedByte a - signedByte m - (1 - bitNat c)
        ∧ signedByte a - signedByte m - (1 - bitNat c) ≤ 127))

/-- R231: AddDec is the function the rule writes, for all operands; for decimal operands its result is the decimal sum
modulo 100 and C is the decimal carry. That N, V and Z, and every output for other operands, are this function's is the
model's choice for DECIMAL_MODEL (log entry 6). -/
def Obligations.DecimalAdditionFollowsItsRule : Prop :=
  ∀ (a m : Byte) (c : Bool),
    ((addDec a m c).r.toNat, (addDec a m c).c, (addDec a m c).v, (addDec a m c).n, (addDec a m c).z)
      = addDecPseudo a.toNat m.toNat (bitNat c)
    ∧ (isBcd a → isBcd m → isBcd (addDec a m c).r
        ∧ bcdValue (addDec a m c).r = (bcdValue a + bcdValue m + bitNat c) % 100
        ∧ ((addDec a m c).c = true ↔ 100 ≤ bcdValue a + bcdValue m + bitNat c))

/-- R233: SubDec is the function the rule writes, for all operands, with its flags from the binary subtraction; for
decimal operands its result is the decimal difference modulo 100, and C is 0 exactly when a borrow occurred. That N, V and
Z, and every output for other operands, are this function's is the model's choice for DECIMAL_MODEL (log entry 6). -/
def Obligations.DecimalSubtractionFollowsItsRule : Prop :=
  ∀ (a m : Byte) (c : Bool),
    (subDec a m c).r.toNat = subDecPseudo a.toNat m.toNat (bitNat c)
    ∧ ((subDec a m c).c = (subBin a m c).c ∧ (subDec a m c).v = (subBin a m c).v ∧ (subDec a m c).n = (subBin a m c).n
      ∧ (subDec a m c).z = (subBin a m c).z)
    ∧ (isBcd a → isBcd m → isBcd (subDec a m c).r
        ∧ (bcdValue (subDec a m c).r : Int) = ((bcdValue a : Int) - bcdValue m - (1 - bitNat c)) % 100
        ∧ ((subDec a m c).c = false ↔ (bcdValue a : Int) - bcdValue m - (1 - bitNat c) < 0))

/-- R234, R235: ADC and SBC read their operand and take result and flags from the adder of the mode D selects; I and D
stay. -/
def Obligations.AdcAndSbcUseTheAdder : Prop :=
  ∀ (s : State) (m : ReadMode), s.Quiet →
    let v := plainOperand s.pend s.mem m
    let n := readClassCycles m.tag (plainOperandCross s.pend s.mem m)
    let acc := plainOperandReads s.pend s.mem m
    let out := fun o : AdderOut => { s.pend with a := o.r, c := o.c, v := o.v, n := o.n, z := o.z }
    ((Instr.adc m).wf = true →
      (s.pend.d = false → exec (.adc m) s = .next (s.done (out (addBin s.pend.a v s.pend.c)) s.mem n acc))
      ∧ (s.pend.d = true → exec (.adc m) s = .next (s.done (out (addDec s.pend.a v s.pend.c)) s.mem n acc)))
    ∧ ((Instr.sbc m).wf = true →
      (s.pend.d = false → exec (.sbc m) s = .next (s.done (out (subBin s.pend.a v s.pend.c)) s.mem n acc))
      ∧ (s.pend.d = true → exec (.sbc m) s = .next (s.done (out (subDec s.pend.a v s.pend.c)) s.mem n acc)))

/-- R236 to R239: the comparisons set C (unsigned ≥), Z (equal) and N (bit 7 of the difference), in either mode, and
write nothing else. -/
def Obligations.ComparesSetFlagsOnly : Prop :=
  ∀ (s : State) (m : ReadMode), s.Quiet →
    let v := plainOperand s.pend s.mem m
    let n := readClassCycles m.tag (plainOperandCross s.pend s.mem m)
    let acc := plainOperandReads s.pend s.mem m
    let flags := fun q : Byte => { s.pend with c := decide (v.toNat ≤ q.toNat), z := decide (q = v),
                                               n := decide (128 ≤ (q.toNat + 256 - v.toNat) % 256) }
    ((Instr.cmp m).wf = true → exec (.cmp m) s = .next (s.done (flags s.pend.a) s.mem n acc))
    ∧ ((Instr.cpx m).wf = true → exec (.cpx m) s = .next (s.done (flags s.pend.x) s.mem n acc))
    ∧ ((Instr.cpy m).wf = true → exec (.cpy m) s = .next (s.done (flags s.pend.y) s.mem n acc))

/-- R78, R240, R241: INC and DEC read the byte once and write it once, one more or one less modulo 256, and set N and Z
from it. -/
def Obligations.MemoryIncrementsWrap : Prop :=
  ∀ (s : State) (m : MemMode), s.Quiet →
    let ea := plainAddr s.pend s.mem m
    let v := s.mem.read ea
    let up := BitVec.ofNat 8 ((v.toNat + 1) % 256)
    let down := BitVec.ofNat 8 ((v.toNat + 255) % 256)
    let acc := fun w => plainPointerReads s.pend m ++ [.read ea, .write ea w]
    ((Instr.inc m).wf = true →
      exec (.inc m) s = .next (s.done (s.pend.withNZ up) (s.mem.write ea up) (rmwClassCycles m.tag) (acc up)))
    ∧ ((Instr.dec m).wf = true →
      exec (.dec m) s = .next (s.done (s.pend.withNZ down) (s.mem.write ea down) (rmwClassCycles m.tag) (acc down)))

/-- R242 to R245: INX, INY, DEX and DEY wrap modulo 256 and set N and Z. -/
def Obligations.RegisterIncrementsWrap : Prop :=
  ∀ (s : State),
    let up := fun b : Byte => BitVec.ofNat 8 ((b.toNat + 1) % 256)
    let down := fun b : Byte => BitVec.ofNat 8 ((b.toNat + 255) % 256)
    exec .inx s = .next (s.done ({ s.pend with x := up s.pend.x }.withNZ (up s.pend.x)) s.mem 2 [])
    ∧ exec .iny s = .next (s.done ({ s.pend with y := up s.pend.y }.withNZ (up s.pend.y)) s.mem 2 [])
    ∧ exec .dex s = .next (s.done ({ s.pend with x := down s.pend.x }.withNZ (down s.pend.x)) s.mem 2 [])
    ∧ exec .dey s = .next (s.done ({ s.pend with y := down s.pend.y }.withNZ (down s.pend.y)) s.mem 2 [])

/-! ## Logic and shifts -/

/-- R260 to R263: AND, ORA and EOR combine A and the operand bit by bit and set N and Z; BIT sets Z from the conjunction
and N, V from bits 7 and 6 of the operand. -/
def Obligations.LogicActsBitByBit : Prop :=
  ∀ (s : State) (m : ReadMode), s.Quiet →
    let v := plainOperand s.pend s.mem m
    let n := readClassCycles m.tag (plainOperandCross s.pend s.mem m)
    let acc := plainOperandReads s.pend s.mem m
    let a := s.pend.a
    ((Instr.and m).wf = true →
      exec (.and m) s = .next (s.done ({ s.pend with a := a &&& v }.withNZ (a &&& v)) s.mem n acc))
    ∧ ((Instr.ora m).wf = true →
      exec (.ora m) s = .next (s.done ({ s.pend with a := a ||| v }.withNZ (a ||| v)) s.mem n acc))
    ∧ ((Instr.eor m).wf = true →
      exec (.eor m) s = .next (s.done ({ s.pend with a := a ^^^ v }.withNZ (a ^^^ v)) s.mem n acc))
    ∧ (∀ mm, m = .mem mm → (Instr.bit mm).wf = true →
      exec (.bit mm) s = .next (s.done { s.pend with z := decide (a &&& v = 0), n := decide (128 ≤ v.toNat)
                                                     v := decide (64 ≤ v.toNat % 128) } s.mem n acc))

/-- R264 to R267: the shifts and rotates, as arithmetic on numbers, on A and on memory: one read, then one write. -/
def Obligations.ShiftsMoveOneBit : Prop :=
  ∀ (s : State),
    let asl := fun v : Byte => (BitVec.ofNat 8 (2 * v.toNat % 256), decide (128 ≤ v.toNat))
    let lsr := fun v : Byte => (BitVec.ofNat 8 (v.toNat / 2), decide (v.toNat % 2 = 1))
    let rol := fun v : Byte => (BitVec.ofNat 8 ((2 * v.toNat + bitNat s.pend.c) % 256), decide (128 ≤ v.toNat))
    let ror := fun v : Byte => (BitVec.ofNat 8 (v.toNat / 2 + 128 * bitNat s.pend.c), decide (v.toNat % 2 = 1))
    let onA := fun f : Byte → Byte × Bool =>
      s.done ({ s.pend with a := (f s.pend.a).1, c := (f s.pend.a).2 }.withNZ (f s.pend.a).1) s.mem 2 []
    let onMem := fun (m : MemMode) (f : Byte → Byte × Bool) =>
      let ea := plainAddr s.pend s.mem m
      let v := f (s.mem.read ea)
      s.done ({ s.pend with c := v.2 }.withNZ v.1) (s.mem.write ea v.1) (rmwClassCycles m.tag)
        (plainPointerReads s.pend m ++ [.read ea, .write ea v.1])
    (exec (.asl .acc) s = .next (onA asl) ∧ exec (.lsr .acc) s = .next (onA lsr)
      ∧ exec (.rol .acc) s = .next (onA rol) ∧ exec (.ror .acc) s = .next (onA ror))
    ∧ (s.Quiet → ∀ m,
        ((Instr.asl (.mem m)).wf = true → exec (.asl (.mem m)) s = .next (onMem m asl))
        ∧ ((Instr.lsr (.mem m)).wf = true → exec (.lsr (.mem m)) s = .next (onMem m lsr))
        ∧ ((Instr.rol (.mem m)).wf = true → exec (.rol (.mem m)) s = .next (onMem m rol))
        ∧ ((Instr.ror (.mem m)).wf = true → exec (.ror (.mem m)) s = .next (onMem m ror)))

/-! ## Control transfer -/

/-- R152, R290 to R298: each branch goes to PCnext plus its signed displacement, modulo 65536, exactly when its flag has
the value its rule names; it writes no flag and costs 2 cycles, 3 if taken, 4 if taken to another page. (For a branch at
0xFFFE the count is that of R152, against vector BR-10: log entry 13.) -/
def Obligations.BranchesTestOneFlag : Prop :=
  ∀ (s : State) (b : Byte),
    let target := plainTarget s.pend.pc b
    let cross := s.pend.pc.toNat / 256 ≠ target.toNat / 256
    let go := fun taken : Bool =>
      if taken then s.done { s.pend with pc := target } s.mem (if cross then 4 else 3) [] else s.done s.pend s.mem 2 []
    exec (.bcc b) s = .next (go (!s.pend.c)) ∧ exec (.bcs b) s = .next (go s.pend.c)
    ∧ exec (.beq b) s = .next (go s.pend.z) ∧ exec (.bne b) s = .next (go (!s.pend.z))
    ∧ exec (.bmi b) s = .next (go s.pend.n) ∧ exec (.bpl b) s = .next (go (!s.pend.n))
    ∧ exec (.bvc b) s = .next (go (!s.pend.v)) ∧ exec (.bvs b) s = .next (go s.pend.v)

/-- R147, R299: JMP goes to its operand, or to the word its pointer holds, whose high byte is read in the pointer's own
page. -/
def Obligations.JumpsGoToTheirTarget : Prop :=
  ∀ (s : State) (w : Addr),
    let second := BitVec.ofNat 16 (w.toNat / 256 * 256 + (w.toNat % 256 + 1) % 256)
    exec (.jmp (.abs w)) s = .next (s.done { s.pend with pc := w } s.mem 3 [])
    ∧ (s.Quiet → exec (.jmp (.ind w)) s =
        .next (s.done { s.pend with pc := BitVec.ofNat 16 ((s.mem.read w).toNat + 256 * (s.mem.read second).toNat) }
          s.mem 5 [.read w, .read second]))

/-- R300, R301: JSR pushes the address of its own last byte, PC0 + 2, high byte first, and RTS pulls an address and goes
one past it; SP wraps within page 1. -/
def Obligations.CallsAndReturnsUseTheStack : Prop :=
  ∀ (s : State), s.Quiet →
    let ret := s.file.pc.toNat + 2
    let hi := BitVec.ofNat 8 (ret / 256)
    let lo := BitVec.ofNat 8 ret
    let up := fun k => stackByteUp s.pend.sp k
    (∀ w, exec (.jsr w) s = .next (s.done { s.pend with pc := w, sp := s.pend.sp - 2 }
        ((s.mem.write (stackByte s.pend.sp 0) hi).write (stackByte s.pend.sp 1) lo) 6
        [.write (stackByte s.pend.sp 0) hi, .write (stackByte s.pend.sp 1) lo]))
    ∧ exec .rts s = .next (s.done
        { s.pend with pc := BitVec.ofNat 16 ((s.mem.read (up 1)).toNat + 256 * (s.mem.read (up 2)).toNat + 1)
                      sp := s.pend.sp + 2 } s.mem 6 [.read (up 1), .read (up 2)])

/-- R302, R401: BRK pushes PC0 + 2 and the status byte with B = 1, sets I, changes no other flag, and goes to the word at
0xFFFE/0xFFFF, which no push of it changes. -/
def Obligations.BreakTakesTheTrap : Prop :=
  ∀ (s : State), s.Quiet →
    let ret := s.file.pc.toNat + 2
    let hi := BitVec.ofNat 8 (ret / 256)
    let lo := BitVec.ofNat 8 ret
    let p := s.pend.pbyte true
    let mem := ((s.mem.write (stackByte s.pend.sp 0) hi).write (stackByte s.pend.sp 1) lo).write
      (stackByte s.pend.sp 2) p
    exec .brk s = .next (s.done
      { s.pend with i := true, sp := s.pend.sp - 3
                    pc := BitVec.ofNat 16 ((s.mem.read 0xFFFE).toNat + 256 * (s.mem.read 0xFFFF).toNat) } mem 7
      [.write (stackByte s.pend.sp 0) hi, .write (stackByte s.pend.sp 1) lo, .write (stackByte s.pend.sp 2) p,
        .read 0xFFFE, .read 0xFFFF])

/-- R28, R303: RTI pulls the status byte, whose bits 5 and 4 it ignores, and then the address it goes to, with no
increment. -/
def Obligations.ReturnFromBreakPullsStatusAndAddress : Prop :=
  ∀ (s : State), s.Quiet →
    let up := fun k => stackByteUp s.pend.sp k
    let p := (s.mem.read (up 1)).toNat
    exec .rti s = .next (s.done
      { s.pend with n := p.testBit 7, v := p.testBit 6, d := p.testBit 3, i := p.testBit 2, z := p.testBit 1
                    c := p.testBit 0, sp := s.pend.sp + 3
                    pc := BitVec.ofNat 16 ((s.mem.read (up 2)).toNat + 256 * (s.mem.read (up 3)).toNat) } s.mem 6
      [.read (up 1), .read (up 2), .read (up 3)])

/-- R304, R350, R413: NOP changes nothing; an ILLEGAL byte changes nothing and emits one IllegalOpcode event with its
address and byte, in one cycle. -/
def Obligations.NopAndIllegalChangeNothing : Prop :=
  ∀ (s : State),
    exec .nop s = .next (s.done s.pend s.mem 2 [])
    ∧ ∀ op, (Instr.illegal op).wf = true → exec (.illegal op) s = .next
        { s.done s.pend s.mem 1 [] with
          out := { s.out with consumed := 1, illegal := s.out.illegal ++ [{ pc := s.file.pc, op := op }] } }

/-! ## Stack and flags -/

/-- R24, R25, R320 to R323: PHA and PHP store at the byte SP designates and then lower SP; PLA and PLP raise SP and then
load; PHP pushes bits 5 and 4 as 1, and PLP ignores them. -/
def Obligations.PushesAndPullsMoveOneByte : Prop :=
  ∀ (s : State), s.Quiet →
    let here := stackByte s.pend.sp 0
    let above := stackByteUp s.pend.sp 1
    let v := s.mem.read above
    exec .pha s = .next (s.done { s.pend with sp := s.pend.sp - 1 } (s.mem.write here s.pend.a) 3
        [.write here s.pend.a])
    ∧ exec .php s = .next (s.done { s.pend with sp := s.pend.sp - 1 } (s.mem.write here (s.pend.pbyte true)) 3
        [.write here (s.pend.pbyte true)])
    ∧ exec .pla s = .next (s.done ({ s.pend with sp := s.pend.sp + 1, a := v }.withNZ v) s.mem 4 [.read above])
    ∧ exec .plp s = .next (s.done
        { s.pend with sp := s.pend.sp + 1, n := v.toNat.testBit 7, v := v.toNat.testBit 6, d := v.toNat.testBit 3
                      i := v.toNat.testBit 2, z := v.toNat.testBit 1, c := v.toNat.testBit 0 } s.mem 4 [.read above])

/-- R27, R28: the status byte has N, V, 1, B, D, I, Z, C from bit 7 to bit 0, and loading it back restores the six
flags. -/
def Obligations.StatusByteLayout : Prop :=
  ∀ (r q : RegFile) (b : Bool),
    (r.pbyte b).toNat = 128 * bitNat r.n + 64 * bitNat r.v + 32 + 16 * bitNat b + 8 * bitNat r.d + 4 * bitNat r.i
      + 2 * bitNat r.z + bitNat r.c
    ∧ q.loadP (r.pbyte b) = { q with n := r.n, v := r.v, d := r.d, i := r.i, z := r.z, c := r.c }

/-- R301, R323, R402: an RTS, RTI or PLP fetched as the next instruction undoes JSR, BRK or PHP (`t.fetched 1` is the state
in which the next step runs it): the RTS goes to the address after the JSR with SP as it was; the RTI goes two past the
BRK with SP and every flag as before it; the PLP restores every flag and SP, with PC past it. -/
def Obligations.ReturnsAndPullsUndoTheirPush : Prop :=
  ∀ (s t : State), s.Quiet →
    (∀ w, exec (.jsr w) s = .next t → ∃ u, exec .rts (t.fetched 1) = .next u ∧ u.file = { s.pend with pc := s.file.pc + 3 })
    ∧ (exec .brk s = .next t → ∃ u, exec .rti (t.fetched 1) = .next u ∧ u.file = { s.pend with pc := s.file.pc + 2 })
    ∧ (exec .php s = .next t → ∃ u, exec .plp (t.fetched 1) = .next u ∧ u.file = { s.pend with pc := s.pend.pc + 1 })

/-- R324 to R330: each flag instruction writes its one flag. -/
def Obligations.FlagInstructionsWriteOneFlag : Prop :=
  ∀ (s : State),
    exec .clc s = .next (s.done { s.pend with c := false } s.mem 2 [])
    ∧ exec .sec s = .next (s.done { s.pend with c := true } s.mem 2 [])
    ∧ exec .cli s = .next (s.done { s.pend with i := false } s.mem 2 [])
    ∧ exec .sei s = .next (s.done { s.pend with i := true } s.mem 2 [])
    ∧ exec .cld s = .next (s.done { s.pend with d := false } s.mem 2 [])
    ∧ exec .sed s = .next (s.done { s.pend with d := true } s.mem 2 [])
    ∧ exec .clv s = .next (s.done { s.pend with v := false } s.mem 2 [])

/-! ## Hooks -/

/-- R55, R56, R59: the dispatch list of an access holds exactly the records whose kind is the access's and whose trigger
matches its address, both ends of a range included, in registration order: it is the greatest sublist of the registry
with that property. -/
def Obligations.DispatchListHoldsTheMatchingHooks : Prop :=
  ∀ (s : State) (k : HookKind) (a : Addr),
    let fits := fun h : Hook => h.kind = k ∧
      (match h.trigger with
        | .addr b => a.toNat = b
        | .range lo hi => lo ≤ a.toNat ∧ a.toNat ≤ hi
        | .anyExecute => True)
    (∀ h, h ∈ s.dispatchList k a ↔ h ∈ s.hooks ∧ fits h)
    ∧ (s.dispatchList k a).Sublist s.hooks
    ∧ (∀ l : List Hook, l.Sublist s.hooks → (∀ h ∈ l, fits h) → l.Sublist (s.dispatchList k a))

/-- R62, R63, R64, R66, R132: if the hooks before it in the dispatch list answer None, a hook's override is the byte a CPU
read or a host read gives, or the opcode a fetch gives; no later hook is called and storage does not change; each callback
is called with the stored byte and the snapshot of the register file (R60, R61, R69). -/
def Obligations.FirstOverrideIsTheByteRead : Prop :=
  ∀ (s : State) (a : Addr) (before : List Hook) (h : Hook) (l : List Hook) (v : Nat) (rest : List HostMove), v < 256 →
    s.host = List.replicate before.length (.answer .noOverride) ++ .answer (.override v) :: rest →
    let call := fun h : Hook =>
      ({ callback := h.callback, address := a, value := s.mem.read a, snapshot := s.file.snapshot } : HookCall)
    let after := fun acc => { s with
      host := rest
      out := { s.out with accesses := s.out.accesses ++ [acc], calls := s.out.calls ++ (before ++ [h]).map call } }
    (s.dispatchList .preRead a = before ++ h :: l → cpuRead a s = .ok (BitVec.ofNat 8 v) (after (.read a)))
    ∧ (s.dispatchList .preExecute a = before ++ h :: l → cpuFetch a s = .ok (BitVec.ofNat 8 v) (after (.fetch a)))
    ∧ (s.dispatchList .preRead a = before ++ h :: l → hostRead a.toNat s = .returned (BitVec.ofNat 8 v)
        { s with host := rest, out := { Output.empty with calls := (before ++ [h]).map call } })

/-- R60, R63, R65, R66, R67: if the hooks before it in the dispatch list answer None and a callback fails, the access ends
at once with that hook's handle and kind: no later hook is called, no further host move is used, and nothing else changes
but a write's byte, which is committed already. An override outside 0–255 on a read or fetch is a failure too. -/
def Obligations.FailedCallbackEndsTheAccess : Prop :=
  ∀ (s : State) (a : Addr) (w : Byte) (before : List Hook) (h : Hook) (l : List Hook) (o : HookOutcome)
    (rest : List HostMove),
    s.host = List.replicate before.length (.answer .noOverride) ++ .answer o :: rest →
    let call := fun (v : Byte) (h : Hook) =>
      ({ callback := h.callback, address := a, value := v, snapshot := s.file.snapshot } : HookCall)
    let after := fun acc v => { s with
      host := rest
      out := { s.out with accesses := s.out.accesses ++ [acc], calls := s.out.calls ++ (before ++ [h]).map (call v) } }
    let fails := o = .failed ∨ ∃ v, 256 ≤ v ∧ o = .override v
    (s.dispatchList .preRead a = before ++ h :: l → fails →
      cpuRead a s = .error (.hookFailed h.handle a .preRead) (after (.read a) (s.mem.read a)))
    ∧ (s.dispatchList .preExecute a = before ++ h :: l → fails →
      cpuFetch a s = .error (.hookFailed h.handle a .preExecute) (after (.fetch a) (s.mem.read a)))
    ∧ (s.dispatchList .postWrite a = before ++ h :: l → o = .failed →
      cpuWrite a w s = .error (.hookFailed h.handle a .postWrite)
        { after (.write a w) w with mem := s.mem.write a w })

/-- R65, R72: a CPU write commits its byte whatever hooks it dispatches and however they end: unless a host move writes
that address, the byte is there afterwards, and every other byte no host move writes is as before. -/
def Obligations.WritesCommitWhateverHooksDo : Prop :=
  ∀ (s : State) (a b : Addr) (v : Byte) (r : EStateM.Result Stop State Unit), cpuWrite a v s = r → s.HostSpares b →
    ∀ u, (r = .ok () u ∨ ∃ e, r = .error e u) → u.mem.read b = if b = a then v else s.mem.read b

/-- R56, R59, R60, R61, R63, R65, R66, R68: an access whose callbacks only answer calls hooks of its own dispatch list
alone, from the first on, in order, each once: a read the pre_read hooks, a fetch the pre_execute hooks, a write the
post_write hooks, which it has all called when it completes. If every answer is None, a read or fetch calls the whole
list and then gives the stored byte. -/
def Obligations.DispatchCallsMatchingHooksInOrder : Prop :=
  ∀ (s : State) (a : Addr) (w : Byte), (∀ m ∈ s.host, ∃ o, m = .answer o) →
    let call := fun (v : Byte) (h : Hook) =>
      ({ callback := h.callback, address := a, value := v, snapshot := s.file.snapshot } : HookCall)
    let called := fun (list : List Hook) (v : Byte) (u : State) (l : List Hook) =>
      l <+: list ∧ (list ≠ [] → l ≠ []) ∧ u.out.calls = s.out.calls ++ l.map (call v)
    let whole := fun (list : List Hook) acc => { s with
      host := s.host.drop list.length
      out := { s.out with accesses := s.out.accesses ++ [acc], calls := s.out.calls ++ list.map (call (s.mem.read a)) } }
    (∃ l, called (s.dispatchList .preRead a) (s.mem.read a) ((cpuRead a).leaves s) l)
    ∧ (∃ l, called (s.dispatchList .preExecute a) (s.mem.read a) ((cpuFetch a).leaves s) l)
    ∧ (∃ l, called (s.dispatchList .postWrite a) w ((cpuWrite a w).leaves s) l
        ∧ ∀ u, cpuWrite a w s = .ok () u → l = s.dispatchList .postWrite a)
    ∧ ((∀ m ∈ s.host, m = .answer .noOverride) →
        ((s.dispatchList .preRead a).length ≤ s.host.length →
          cpuRead a s = .ok (s.mem.read a) (whole (s.dispatchList .preRead a) (.read a)))
        ∧ ((s.dispatchList .preExecute a).length ≤ s.host.length →
          cpuFetch a s = .ok (s.mem.read a) (whole (s.dispatchList .preExecute a) (.fetch a))))

/-- R32, R39, R61, R63, R70, R71, R419: what one call made inside the one callback of a read does, and what it gives back to the
callback, which goes on and answers None: a write commits, and if it is to the address being read, its byte is what the read
falls through to; a read gives the stored byte; a registration gives its handle; an address outside the space gives
AddressError and changes nothing, and that the callback goes on after it is log entry 14 (a write of it whatever its byte:
log entry 17; a range with either end outside, the first end checked first: log entry 11); a removal deletes the record;
`register_snapshot()` gives the register file (log entry 21), and `cycle_count()` the counter. -/
def Obligations.NestedCallsActAndReply : Prop :=
  ∀ (s : State) (a : Addr) (h : Hook) (m : HostMove) (rest : List HostMove),
    s.dispatchList .preRead a = [h] → s.host = m :: .answer .noOverride :: rest →
    let call : HookCall := { callback := h.callback, address := a, value := s.mem.read a, snapshot := s.file.snapshot }
    let after := fun (t : State) (r : HostReply) => { t with
      host := rest
      out := { s.out with accesses := s.out.accesses ++ [.read a], calls := s.out.calls ++ [call],
                          replies := s.out.replies ++ [r] } }
    (∀ v < 256, m = .write a.toNat v → s.dispatchList .postWrite a = [] →
      cpuRead a s = .ok (BitVec.ofNat 8 v) (after { s with mem := s.mem.write a (BitVec.ofNat 8 v) } .done))
    ∧ (∀ b : Addr, ∀ v < 256, b ≠ a → m = .write b.toNat v → s.dispatchList .postWrite b = [] →
      cpuRead a s = .ok (s.mem.read a) (after { s with mem := s.mem.write b (BitVec.ofNat 8 v) } .done))
    ∧ (∀ b : Addr, m = .read b.toNat → s.dispatchList .preRead b = [] →
      cpuRead a s = .ok (s.mem.read a) (after s (.byte (s.mem.read b))))
    ∧ (∀ g k cb, m = .register g k cb → g.check k = .ok →
      cpuRead a s = .ok (s.mem.read a) (after (s.register g k cb) (.handle s.nextHandle)))
    ∧ (∀ n v, 65536 ≤ n → m = .read n ∨ m = .write n v ∨ (∃ k cb, m = .register (.addr n) k cb)
        ∨ (∃ hi k cb, m = .register (.range n hi) k cb) ∨ (∃ lo < 65536, ∃ k cb, m = .register (.range lo n) k cb) →
      cpuRead a s = .ok (s.mem.read a) (after s (.addressError n)))
    ∧ (∀ hd, m = .remove hd → cpuRead a s = .ok (s.mem.read a) (after (s.unregister hd) .done))
    ∧ (m = .registerSnapshot → cpuRead a s = .ok (s.mem.read a) (after s (.snapshot s.file.snapshot)))
    ∧ (m = .cycleCount → cpuRead a s = .ok (s.mem.read a) (after s (.count s.cycles)))

/-! ## The host's calls -/

/-- R41, R69, R450: reset, for any values of the parameters the spec leaves open: I = 1, D = 0, PC from the vector, cycles 0,
status Running, memory and hooks unchanged; it is not admitted in status Faulted. With hooks registered that only answer,
each vector byte is the first override of its pre_read hooks, or else the stored byte, and the hooks are called with the
snapshot of the reset registers whose PC is 0xFFFC. -/
def Obligations.ResetLoadsTheVector : Prop :=
  ∀ (s : State) (p : ResetParams),
    let r := fun pc : Addr => ({ a := p.a, x := p.x, y := p.y, sp := p.sp, pc := pc, c := p.c, z := p.z, i := true
                                 d := false, v := p.v, n := p.n } : RegFile)
    let vector := fun lo hi : Byte => BitVec.ofNat 16 (lo.toNat + 256 * hi.toNat)
    let after := fun (pc : Addr) (rest : List HostMove) (calls : List HookCall) =>
      { s with file := r pc, pend := r pc, opcode := none, cycles := 0, status := .running, host := rest
               out := { Output.empty with accesses := [.read 0xFFFC, .read 0xFFFD], calls := calls } }
    let call := fun (a : Addr) (h : Hook) =>
      ({ callback := h.callback, address := a, value := s.mem.read a, snapshot := (r 0xFFFC).snapshot } : HookCall)
    (∀ info, s.status = .faulted info → resetCall p s = .notAdmitted)
    ∧ (s.status = .unreset ∨ s.status = .running → s.Quiet → resetCall p s = .returned ()
        (after (vector (s.mem.read 0xFFFC) (s.mem.read 0xFFFD)) s.host []))
    ∧ (s.status = .unreset ∨ s.status = .running →
        ∀ called moves lo, ReadAnswered (s.dispatchList .preRead 0xFFFC) (s.mem.read 0xFFFC) called moves lo →
        ∀ called' moves' hi, ReadAnswered (s.dispatchList .preRead 0xFFFD) (s.mem.read 0xFFFD) called' moves' hi →
        ∀ rest, s.host = moves ++ moves' ++ rest → resetCall p s = .returned ()
          (after (vector lo hi) rest (called.map (call 0xFFFC) ++ called'.map (call 0xFFFD))))

/-- R451, R452: whatever hooks are registered, a reset changes no byte of memory and no registration that no host move
changes; with none, a second reset leaves the same state. -/
def Obligations.ResetKeepsMemoryAndIsIdempotent : Prop :=
  ∀ (s t : State) (p : ResetParams), resetCall p s = .returned () t →
    (∀ a, s.HostSpares a → t.mem.read a = s.mem.read a)
    ∧ ((∀ m ∈ s.host, m.touchesRegistry = false) → t.hooks = s.hooks)
    ∧ (s.Quiet → resetCall p t = .returned () t)

/-- R28, R39, R40: applying any record with its fields in range, from Unreset or Running, writes the registers and the six
stored flags (bits 5 and 4 of P are ignored) and makes the status Running; nothing else changes. Applying the snapshot of
another state gives its register file. -/
def Obligations.SnapshotRestoresRegisters : Prop :=
  ∀ (s t : State) (q : HostSnapshot), (t.status = .unreset ∨ t.status = .running) →
    let after := fun r : RegFile =>
      { t with file := r, pend := r, opcode := none, status := .running, out := Output.empty }
    let taken := registerSnapshot s
    let given : RegFile :=
      { a := BitVec.ofNat 8 q.a, x := BitVec.ofNat 8 q.x, y := BitVec.ofNat 8 q.y, sp := BitVec.ofNat 8 q.sp
        pc := BitVec.ofNat 16 q.pc
        n := q.p.testBit 7, v := q.p.testBit 6, d := q.p.testBit 3, i := q.p.testBit 2, z := q.p.testBit 1
        c := q.p.testBit 0 }
    (q.a < 256 → q.x < 256 → q.y < 256 → q.sp < 256 → q.pc < 65536 → q.p < 256 →
      applySnapshot q t = .returned () (after given))
    ∧ applySnapshot
        ⟨taken.a.toNat, taken.x.toNat, taken.y.toNat, taken.sp.toNat, taken.pc.toNat, taken.p.toNat⟩ t
      = .returned () (after s.file)

/-- R40, R51, R55, R410, R419, K11, K13: what the host may not pass, and when it may not call: an address outside the space
raises AddressError and changes nothing; an out-of-range byte or snapshot field, an inverted range, AnyExecute with a data
kind, apply_snapshot in status Faulted, or an image after the first step has no move. Where a call breaks two rules the
address is checked first (log entries 11 and 17); that no image is loaded in status Faulted is log entry 20. -/
def Obligations.HostArgumentsAreChecked : Prop :=
  ∀ (s : State) (a v cb : Nat) (k : HookKind) (q : HostSnapshot),
    (65536 ≤ a → hostRead a s = .addressError a { s with out := Output.empty }
      ∧ hostWrite a v s = .addressError a { s with out := Output.empty }
      ∧ registerHook (.addr a) k cb s = .addressError a s
      ∧ (∀ hi, registerHook (.range a hi) k cb s = .addressError a s)
      ∧ (∀ lo < 65536, registerHook (.range lo a) k cb s = .addressError a s))
    ∧ (a < 65536 → 256 ≤ v → hostWrite a v s = .notAdmitted)
    ∧ (∀ lo < 65536, a < lo → registerHook (.range lo a) k cb s = .notAdmitted)
    ∧ (k ≠ .preExecute → registerHook .anyExecute k cb s = .notAdmitted)
    ∧ ((256 ≤ q.a ∨ 256 ≤ q.x ∨ 256 ≤ q.y ∨ 256 ≤ q.sp ∨ 65536 ≤ q.pc ∨ 256 ≤ q.p) → applySnapshot q s = .notAdmitted)
    ∧ (∀ first, s.status = .faulted first → applySnapshot q s = .notAdmitted)
    ∧ ((s.begun = true ∨ ∃ first, s.status = .faulted first) → ∀ bytes, loadImage a bytes s = .notAdmitted)

/-- R54, R57, R58: a registration appends its record under a handle no record has; removing it deletes the record alone;
removing an unknown handle changes nothing. Handles are never used again: after any step and any host call, every record
is one from before or has a handle from the old next handle on, and the next handle has not fallen. (That the next handle
rises by one is log entry 2.) -/
def Obligations.RegistrationAppendsAndRemoves : Prop :=
  ∀ (s : State) (g : Trigger) (k : HookKind) (cb : Nat), s.RegistryOk → g.check k = .ok →
    let added : Hook := { handle := s.nextHandle, trigger := g, kind := k, callback := cb }
    let t := { s with hooks := s.hooks ++ [added], nextHandle := s.nextHandle + 1 }
    registerHook g k cb s = .returned s.nextHandle t
    ∧ (∀ h ∈ s.hooks, h.handle ≠ s.nextHandle)
    ∧ removeHook s.nextHandle t = .returned () { t with hooks := s.hooks }
    ∧ (∀ hd, (∀ h ∈ s.hooks, h.handle ≠ hd) → removeHook hd s = .returned () s)
    ∧ (∀ u, step s = .next u ∨ (∃ c : HostCall, c.leaves? s = some u) → HandlesFresh s u)

/-- R51, R72, R460: with no hook registered, the host's write changes one byte and nothing else, its read gives the byte
stored and changes nothing, and an image loaded before the first step puts its bytes at consecutive addresses. -/
def Obligations.HostReadsBackItsWrite : Prop :=
  ∀ (s : State) (a v : Nat), s.Quiet → a < 65536 → v < 256 →
    let t := { s with mem := s.mem.write (BitVec.ofNat 16 a) (BitVec.ofNat 8 v), out := Output.empty }
    hostWrite a v s = .returned () t ∧ hostRead a t = .returned (BitVec.ofNat 8 v) t
    ∧ hostRead a s = .returned (s.mem.read (BitVec.ofNat 16 a)) { s with out := Output.empty }
    ∧ (∀ bytes : List Byte, a + bytes.length ≤ 65536 → s.begun = false → s.status = .unreset ∨ s.status = .running →
        loadImage a bytes s = .returned ()
          { s with mem := s.mem.place (BitVec.ofNat 16 a) bytes, out := Output.empty })
end

