-- ==== Sys2Proof/Laws/Decode.lean ====
section
/-!
SUPPORT. Facts of the opcode map over all 256 bytes, each by evaluation of the ROM, and the small lemmas of the decoder.
-/

namespace Sys2Proof

/-- The ROM's ILLEGAL entries are the bytes of R107, and they are all alike. -/
theorem lookup_illegal {op : Byte} (h : illegalBytes.contains op = true) : lookup op = undoc := by
  revert op; decide +kernel

theorem lookup_operation_illegal (op : Byte) : (lookup op).operation = .illegal ↔ illegalBytes.contains op = true := by
  revert op; decide +kernel

/-- Every descriptor has its mode's number of operand bytes (R101). -/
theorem lookup_operandBytes (op : Byte) : (lookup op).operandBytes = (lookup op).mode.operandBytes := by
  revert op; decide +kernel

/-- Every descriptor pairs an operation with a mode its own rule gives it. -/
theorem lookup_mode_legal (op : Byte) : (lookup op).operation.modes.contains (lookup op).mode = true := by
  revert op; decide +kernel

/-- The encoder's table inverts the ROM on the documented bytes (R106). -/
theorem opcodes_lookup (op : Byte) (h : (lookup op).operation ≠ .illegal) :
    (lookup op).operation.opcodes.lookup (lookup op).mode = some op := by
  revert op; decide +kernel

end Sys2Proof
end

