-- ==== Sys2Proof/Laws/Memory.lean ====
section
/-!
SUPPORT. The byte store: a read after a write, on any list of cells; the canonical form is kept by every write; and two
canonical stores that read alike are equal.
-/

namespace Sys2Proof.Machine

@[simp] theorem Memory.get_nil (k : Nat) : Memory.get [] k = Memory.blank := rfl

theorem Memory.get_filter_ne (m : Memory) (j k : Nat) :
    Memory.get (m.filter (fun c => c.1 != j)) k = if k = j then Memory.blank else Memory.get m k := by
  induction m with
  | nil => simp
  | cons c m ih =>
    by_cases hc : c.1 = j
    · have : (c :: m).filter (fun c => c.1 != j) = m.filter (fun c => c.1 != j) := by simp [hc]
      rw [this, ih]
      by_cases hk : k = j
      · simp [hk]
      · simp [hk, Memory.get, hc, Ne.symm hk]
    · have : (c :: m).filter (fun c => c.1 != j) = c :: m.filter (fun c => c.1 != j) := by simp [hc]
      rw [this]
      by_cases hk : k = j
      · subst hk; simp [Memory.get, hc, ih]
      · simp [hk, Memory.get, ih]

theorem Memory.get_insertCell (m : Memory) (c : Host.Cell) (h : Memory.get m c.1 = Memory.blank)
    (hm : ∀ c' ∈ m, c'.1 ≠ c.1) (k : Nat) :
    Memory.get (Memory.insertCell m c) k = if k = c.1 then c.2 else Memory.get m k := by
  induction m with
  | nil => simp [Memory.insertCell, Memory.get, eq_comm]
  | cons c' m ih =>
    have hne : c'.1 ≠ c.1 := hm c' (by simp)
    have h' : Memory.get m c.1 = Memory.blank := by simpa [Memory.get, hne] using h
    simp only [Memory.insertCell]
    split
    · by_cases hk : c.1 = k
      · simp [Memory.get, hk]
      · simp [Memory.get, hk, Ne.symm hk]
    · by_cases hk : c'.1 = k
      · have : ¬ k = c.1 := by rintro rfl; exact hne hk
        simp [Memory.get, hk, this]
      · simp [Memory.get, hk, ih h' (fun c'' hc'' => hm c'' (by simp [hc'']))]

/-- What every address number reads as after a byte is put. -/
theorem Memory.get_put (m : Memory) (j : Nat) (v : Byte) (k : Nat) :
    Memory.get (Memory.put m j v) k = if k = j then v else Memory.get m k := by
  simp only [Memory.put]
  split
  · rename_i hv
    rw [Memory.get_filter_ne, hv]
  · rw [Memory.get_insertCell _ (j, v) (by rw [Memory.get_filter_ne]; simp) (by simp), Memory.get_filter_ne]
    by_cases hk : k = j <;> simp [hk]

/-- A read after a write (R72). -/
theorem Memory.read_write (m : Memory) (a b : Addr) (v : Byte) :
    (m.write a v).read b = if b = a then v else m.read b := by
  simp [Memory.read, Memory.write, Memory.get_put, BitVec.toNat_inj]

@[simp] theorem Memory.read_write_same (m : Memory) (a : Addr) (v : Byte) : (m.write a v).read a = v := by
  simp [Memory.read_write]

theorem Memory.read_write_ne (m : Memory) {a b : Addr} (v : Byte) (h : b ≠ a) : (m.write a v).read b = m.read b := by
  simp [Memory.read_write, h]

/-! ## The canonical form -/

theorem Memory.wf_cons (c : Host.Cell) (m : Memory) :
    Memory.wf (c :: m) = true ↔
      c.1 < 65536 ∧ c.2 ≠ Memory.blank ∧ (∀ c' ∈ m, c.1 < c'.1) ∧ Memory.wf m = true := by
  simp [Memory.wf, and_assoc]

theorem Memory.wf_filter (m : Memory) (p : Host.Cell → Bool) (h : m.wf = true) :
    Memory.wf (m.filter p) = true := by
  induction m with
  | nil => simpa using h
  | cons c m ih =>
    obtain ⟨h1, h2, h3, h4⟩ := (Memory.wf_cons c m).mp h
    by_cases hp : p c
    · rw [List.filter_cons_of_pos hp, Memory.wf_cons]
      exact ⟨h1, h2, fun c' hc' => h3 c' (List.mem_of_mem_filter hc'), ih h4⟩
    · rw [List.filter_cons_of_neg hp]
      exact ih h4

theorem Memory.mem_insertCell {m : Memory} {c c' : Host.Cell} (h : c' ∈ Memory.insertCell m c) : c' = c ∨ c' ∈ m := by
  induction m with
  | nil => simpa [Memory.insertCell] using h
  | cons d m ih =>
    simp only [Memory.insertCell] at h
    split at h
    · simpa using h
    · rcases List.mem_cons.mp h with rfl | h
      · simp
      · rcases ih h with rfl | h <;> simp [*]

theorem Memory.wf_insertCell (m : Memory) (c : Host.Cell) (hm : m.wf = true) (hc : c.1 < 65536)
    (hv : c.2 ≠ Memory.blank) (hne : ∀ c' ∈ m, c'.1 ≠ c.1) : Memory.wf (Memory.insertCell m c) = true := by
  induction m with
  | nil => simp [Memory.insertCell, Memory.wf, hc, hv]
  | cons d m ih =>
    obtain ⟨h1, h2, h3, h4⟩ := (Memory.wf_cons d m).mp hm
    simp only [Memory.insertCell]
    split
    · rename_i hlt
      rw [Memory.wf_cons]
      refine ⟨hc, hv, ?_, hm⟩
      intro c' hc'
      rcases List.mem_cons.mp hc' with rfl | hc'
      · exact hlt
      · exact Nat.lt_trans hlt (h3 c' hc')
    · rename_i hge
      rw [Memory.wf_cons]
      refine ⟨h1, h2, ?_, ih h4 (fun c' hc' => hne c' (by simp [hc']))⟩
      intro c' hc'
      have hd := hne d (by simp)
      rcases Memory.mem_insertCell hc' with rfl | hc'
      · omega
      · exact h3 c' hc'

/-- Every write keeps the canonical form. -/
theorem Memory.wf_write (m : Memory) (a : Addr) (v : Byte) (h : m.wf = true) : (m.write a v).wf = true := by
  simp only [Memory.write, Memory.put]
  split
  · exact Memory.wf_filter _ _ h
  · rename_i hv
    exact Memory.wf_insertCell _ _ (Memory.wf_filter _ _ h) (by simpa using a.isLt) hv (by simp)

/-- Below its first address a canonical store is blank. -/
theorem Memory.get_of_forall_lt {m : Memory} {k : Nat} (h : ∀ c ∈ m, k < c.1) : Memory.get m k = Memory.blank := by
  induction m with
  | nil => rfl
  | cons c m ih =>
    have hk : c.1 ≠ k := by have := h c (by simp); omega
    simp [Memory.get, hk, ih (fun c' hc' => h c' (by simp [hc']))]

/-- The memory of `State.reset` is canonical. -/
theorem Memory.wf_reset : State.reset.mem.wf = true := rfl

end Sys2Proof.Machine
end

