-- ==== Sys2Proof/Laws/State.lean ====
section
/-!
SUPPORT. One lemma per field of State per named update, each true by definition, so that no later proof unfolds a record
update.
-/

namespace Sys2Proof.Machine

@[simp] theorem State.stored_file (s : State) (a : Addr) (v : Byte) : (s.stored a v).file = s.file := rfl
@[simp] theorem State.stored_pend (s : State) (a : Addr) (v : Byte) : (s.stored a v).pend = s.pend := rfl
@[simp] theorem State.stored_opcode (s : State) (a : Addr) (v : Byte) : (s.stored a v).opcode = s.opcode := rfl
@[simp] theorem State.stored_cycles (s : State) (a : Addr) (v : Byte) : (s.stored a v).cycles = s.cycles := rfl
@[simp] theorem State.stored_status (s : State) (a : Addr) (v : Byte) : (s.stored a v).status = s.status := rfl
@[simp] theorem State.stored_begun (s : State) (a : Addr) (v : Byte) : (s.stored a v).begun = s.begun := rfl
@[simp] theorem State.stored_mem (s : State) (a : Addr) (v : Byte) : (s.stored a v).mem = s.mem.write a v := rfl
@[simp] theorem State.stored_hooks (s : State) (a : Addr) (v : Byte) : (s.stored a v).hooks = s.hooks := rfl
@[simp] theorem State.stored_nextHandle (s : State) (a : Addr) (v : Byte) : (s.stored a v).nextHandle = s.nextHandle := rfl
@[simp] theorem State.stored_host (s : State) (a : Addr) (v : Byte) : (s.stored a v).host = s.host := rfl
@[simp] theorem State.stored_consults (s : State) (a : Addr) (v : Byte) : (s.stored a v).consults = s.consults := rfl
@[simp] theorem State.stored_out (s : State) (a : Addr) (v : Byte) : (s.stored a v).out = s.out := rfl

@[simp] theorem State.setPend_file (s : State) (r : RegFile) : (s.setPend r).file = s.file := rfl
@[simp] theorem State.setPend_pend (s : State) (r : RegFile) : (s.setPend r).pend = r := rfl
@[simp] theorem State.setPend_opcode (s : State) (r : RegFile) : (s.setPend r).opcode = s.opcode := rfl
@[simp] theorem State.setPend_cycles (s : State) (r : RegFile) : (s.setPend r).cycles = s.cycles := rfl
@[simp] theorem State.setPend_status (s : State) (r : RegFile) : (s.setPend r).status = s.status := rfl
@[simp] theorem State.setPend_begun (s : State) (r : RegFile) : (s.setPend r).begun = s.begun := rfl
@[simp] theorem State.setPend_mem (s : State) (r : RegFile) : (s.setPend r).mem = s.mem := rfl
@[simp] theorem State.setPend_hooks (s : State) (r : RegFile) : (s.setPend r).hooks = s.hooks := rfl
@[simp] theorem State.setPend_nextHandle (s : State) (r : RegFile) : (s.setPend r).nextHandle = s.nextHandle := rfl
@[simp] theorem State.setPend_host (s : State) (r : RegFile) : (s.setPend r).host = s.host := rfl
@[simp] theorem State.setPend_consults (s : State) (r : RegFile) : (s.setPend r).consults = s.consults := rfl
@[simp] theorem State.setPend_out (s : State) (r : RegFile) : (s.setPend r).out = s.out := rfl

@[simp] theorem State.logged_file (s : State) (acc : Access) : (s.logged acc).file = s.file := rfl
@[simp] theorem State.logged_pend (s : State) (acc : Access) : (s.logged acc).pend = s.pend := rfl
@[simp] theorem State.logged_opcode (s : State) (acc : Access) : (s.logged acc).opcode = s.opcode := rfl
@[simp] theorem State.logged_cycles (s : State) (acc : Access) : (s.logged acc).cycles = s.cycles := rfl
@[simp] theorem State.logged_status (s : State) (acc : Access) : (s.logged acc).status = s.status := rfl
@[simp] theorem State.logged_begun (s : State) (acc : Access) : (s.logged acc).begun = s.begun := rfl
@[simp] theorem State.logged_mem (s : State) (acc : Access) : (s.logged acc).mem = s.mem := rfl
@[simp] theorem State.logged_hooks (s : State) (acc : Access) : (s.logged acc).hooks = s.hooks := rfl
@[simp] theorem State.logged_nextHandle (s : State) (acc : Access) : (s.logged acc).nextHandle = s.nextHandle := rfl
@[simp] theorem State.logged_host (s : State) (acc : Access) : (s.logged acc).host = s.host := rfl
@[simp] theorem State.logged_consults (s : State) (acc : Access) : (s.logged acc).consults = s.consults := rfl
@[simp] theorem State.logged_out (s : State) (acc : Access) : (s.logged acc).out = { s.out with accesses := s.out.accesses ++ [acc] } := rfl

@[simp] theorem State.emitted_file (s : State) (op : Byte) : (s.emitted op).file = s.file := rfl
@[simp] theorem State.emitted_pend (s : State) (op : Byte) : (s.emitted op).pend = s.pend := rfl
@[simp] theorem State.emitted_opcode (s : State) (op : Byte) : (s.emitted op).opcode = s.opcode := rfl
@[simp] theorem State.emitted_cycles (s : State) (op : Byte) : (s.emitted op).cycles = s.cycles := rfl
@[simp] theorem State.emitted_status (s : State) (op : Byte) : (s.emitted op).status = s.status := rfl
@[simp] theorem State.emitted_begun (s : State) (op : Byte) : (s.emitted op).begun = s.begun := rfl
@[simp] theorem State.emitted_mem (s : State) (op : Byte) : (s.emitted op).mem = s.mem := rfl
@[simp] theorem State.emitted_hooks (s : State) (op : Byte) : (s.emitted op).hooks = s.hooks := rfl
@[simp] theorem State.emitted_nextHandle (s : State) (op : Byte) : (s.emitted op).nextHandle = s.nextHandle := rfl
@[simp] theorem State.emitted_host (s : State) (op : Byte) : (s.emitted op).host = s.host := rfl
@[simp] theorem State.emitted_consults (s : State) (op : Byte) : (s.emitted op).consults = s.consults := rfl
@[simp] theorem State.emitted_out (s : State) (op : Byte) : (s.emitted op).out = { s.out with illegal := s.out.illegal ++ [{ pc := s.file.pc, op := op }] } := rfl

@[simp] theorem State.latched_file (s : State) (op : Byte) : (s.latched op).file = s.file := rfl
@[simp] theorem State.latched_pend (s : State) (op : Byte) : (s.latched op).pend = s.pend := rfl
@[simp] theorem State.latched_opcode (s : State) (op : Byte) : (s.latched op).opcode = some op := rfl
@[simp] theorem State.latched_cycles (s : State) (op : Byte) : (s.latched op).cycles = s.cycles := rfl
@[simp] theorem State.latched_status (s : State) (op : Byte) : (s.latched op).status = s.status := rfl
@[simp] theorem State.latched_begun (s : State) (op : Byte) : (s.latched op).begun = s.begun := rfl
@[simp] theorem State.latched_mem (s : State) (op : Byte) : (s.latched op).mem = s.mem := rfl
@[simp] theorem State.latched_hooks (s : State) (op : Byte) : (s.latched op).hooks = s.hooks := rfl
@[simp] theorem State.latched_nextHandle (s : State) (op : Byte) : (s.latched op).nextHandle = s.nextHandle := rfl
@[simp] theorem State.latched_host (s : State) (op : Byte) : (s.latched op).host = s.host := rfl
@[simp] theorem State.latched_consults (s : State) (op : Byte) : (s.latched op).consults = s.consults := rfl
@[simp] theorem State.latched_out (s : State) (op : Byte) : (s.latched op).out = s.out := rfl

@[simp] theorem State.begin_file (s : State) : (s.begin).file = s.file := rfl
@[simp] theorem State.begin_pend (s : State) : (s.begin).pend = s.file := rfl
@[simp] theorem State.begin_opcode (s : State) : (s.begin).opcode = none := rfl
@[simp] theorem State.begin_cycles (s : State) : (s.begin).cycles = s.cycles := rfl
@[simp] theorem State.begin_status (s : State) : (s.begin).status = s.status := rfl
@[simp] theorem State.begin_begun (s : State) : (s.begin).begun = true := rfl
@[simp] theorem State.begin_mem (s : State) : (s.begin).mem = s.mem := rfl
@[simp] theorem State.begin_hooks (s : State) : (s.begin).hooks = s.hooks := rfl
@[simp] theorem State.begin_nextHandle (s : State) : (s.begin).nextHandle = s.nextHandle := rfl
@[simp] theorem State.begin_host (s : State) : (s.begin).host = s.host := rfl
@[simp] theorem State.begin_consults (s : State) : (s.begin).consults = s.consults := rfl
@[simp] theorem State.begin_out (s : State) : (s.begin).out = Output.empty := rfl

@[simp] theorem State.commit_file (s : State) (n : Nat) : (s.commit n).file = s.pend := rfl
@[simp] theorem State.commit_pend (s : State) (n : Nat) : (s.commit n).pend = s.pend := rfl
@[simp] theorem State.commit_opcode (s : State) (n : Nat) : (s.commit n).opcode = none := rfl
@[simp] theorem State.commit_cycles (s : State) (n : Nat) : (s.commit n).cycles = s.cycles + n := rfl
@[simp] theorem State.commit_status (s : State) (n : Nat) : (s.commit n).status = s.status := rfl
@[simp] theorem State.commit_begun (s : State) (n : Nat) : (s.commit n).begun = s.begun := rfl
@[simp] theorem State.commit_mem (s : State) (n : Nat) : (s.commit n).mem = s.mem := rfl
@[simp] theorem State.commit_hooks (s : State) (n : Nat) : (s.commit n).hooks = s.hooks := rfl
@[simp] theorem State.commit_nextHandle (s : State) (n : Nat) : (s.commit n).nextHandle = s.nextHandle := rfl
@[simp] theorem State.commit_host (s : State) (n : Nat) : (s.commit n).host = s.host := rfl
@[simp] theorem State.commit_consults (s : State) (n : Nat) : (s.commit n).consults = s.consults := rfl
@[simp] theorem State.commit_out (s : State) (n : Nat) : (s.commit n).out = { s.out with consumed := n } := rfl

@[simp] theorem State.raise_file (s : State) (info : FaultInfo) : (s.raise info).file = s.file := rfl
@[simp] theorem State.raise_pend (s : State) (info : FaultInfo) : (s.raise info).pend = s.file := rfl
@[simp] theorem State.raise_opcode (s : State) (info : FaultInfo) : (s.raise info).opcode = none := rfl
@[simp] theorem State.raise_cycles (s : State) (info : FaultInfo) : (s.raise info).cycles = s.cycles := rfl
@[simp] theorem State.raise_status (s : State) (info : FaultInfo) : (s.raise info).status = s.status.withFault info := rfl
@[simp] theorem State.raise_begun (s : State) (info : FaultInfo) : (s.raise info).begun = s.begun := rfl
@[simp] theorem State.raise_mem (s : State) (info : FaultInfo) : (s.raise info).mem = s.mem := rfl
@[simp] theorem State.raise_hooks (s : State) (info : FaultInfo) : (s.raise info).hooks = s.hooks := rfl
@[simp] theorem State.raise_nextHandle (s : State) (info : FaultInfo) : (s.raise info).nextHandle = s.nextHandle := rfl
@[simp] theorem State.raise_host (s : State) (info : FaultInfo) : (s.raise info).host = s.host := rfl
@[simp] theorem State.raise_consults (s : State) (info : FaultInfo) : (s.raise info).consults = s.consults := rfl
@[simp] theorem State.raise_out (s : State) (info : FaultInfo) : (s.raise info).out = s.out := rfl

@[simp] theorem State.replied_file (s : State) (r : HostReply) : (s.replied r).file = s.file := rfl
@[simp] theorem State.replied_pend (s : State) (r : HostReply) : (s.replied r).pend = s.pend := rfl
@[simp] theorem State.replied_opcode (s : State) (r : HostReply) : (s.replied r).opcode = s.opcode := rfl
@[simp] theorem State.replied_cycles (s : State) (r : HostReply) : (s.replied r).cycles = s.cycles := rfl
@[simp] theorem State.replied_status (s : State) (r : HostReply) : (s.replied r).status = s.status := rfl
@[simp] theorem State.replied_begun (s : State) (r : HostReply) : (s.replied r).begun = s.begun := rfl
@[simp] theorem State.replied_mem (s : State) (r : HostReply) : (s.replied r).mem = s.mem := rfl
@[simp] theorem State.replied_hooks (s : State) (r : HostReply) : (s.replied r).hooks = s.hooks := rfl
@[simp] theorem State.replied_nextHandle (s : State) (r : HostReply) : (s.replied r).nextHandle = s.nextHandle := rfl
@[simp] theorem State.replied_host (s : State) (r : HostReply) : (s.replied r).host = s.host := rfl
@[simp] theorem State.replied_consults (s : State) (r : HostReply) : (s.replied r).consults = s.consults := rfl
@[simp] theorem State.replied_out (s : State) (r : HostReply) : (s.replied r).out = { s.out with replies := s.out.replies ++ [r] } := rfl

@[simp] theorem State.register_file (s : State) (t : Trigger) (k : HookKind) (cb : Nat) : (s.register t k cb).file = s.file := rfl
@[simp] theorem State.register_pend (s : State) (t : Trigger) (k : HookKind) (cb : Nat) : (s.register t k cb).pend = s.pend := rfl
@[simp] theorem State.register_opcode (s : State) (t : Trigger) (k : HookKind) (cb : Nat) : (s.register t k cb).opcode = s.opcode := rfl
@[simp] theorem State.register_cycles (s : State) (t : Trigger) (k : HookKind) (cb : Nat) : (s.register t k cb).cycles = s.cycles := rfl
@[simp] theorem State.register_status (s : State) (t : Trigger) (k : HookKind) (cb : Nat) : (s.register t k cb).status = s.status := rfl
@[simp] theorem State.register_begun (s : State) (t : Trigger) (k : HookKind) (cb : Nat) : (s.register t k cb).begun = s.begun := rfl
@[simp] theorem State.register_mem (s : State) (t : Trigger) (k : HookKind) (cb : Nat) : (s.register t k cb).mem = s.mem := rfl
@[simp] theorem State.register_hooks (s : State) (t : Trigger) (k : HookKind) (cb : Nat) : (s.register t k cb).hooks = s.hooks ++ [{ handle := s.nextHandle, trigger := t, kind := k, callback := cb }] := rfl
@[simp] theorem State.register_nextHandle (s : State) (t : Trigger) (k : HookKind) (cb : Nat) : (s.register t k cb).nextHandle = s.nextHandle + 1 := rfl
@[simp] theorem State.register_host (s : State) (t : Trigger) (k : HookKind) (cb : Nat) : (s.register t k cb).host = s.host := rfl
@[simp] theorem State.register_consults (s : State) (t : Trigger) (k : HookKind) (cb : Nat) : (s.register t k cb).consults = s.consults := rfl
@[simp] theorem State.register_out (s : State) (t : Trigger) (k : HookKind) (cb : Nat) : (s.register t k cb).out = s.out := rfl

@[simp] theorem State.unregister_file (s : State) (h : Nat) : (s.unregister h).file = s.file := rfl
@[simp] theorem State.unregister_pend (s : State) (h : Nat) : (s.unregister h).pend = s.pend := rfl
@[simp] theorem State.unregister_opcode (s : State) (h : Nat) : (s.unregister h).opcode = s.opcode := rfl
@[simp] theorem State.unregister_cycles (s : State) (h : Nat) : (s.unregister h).cycles = s.cycles := rfl
@[simp] theorem State.unregister_status (s : State) (h : Nat) : (s.unregister h).status = s.status := rfl
@[simp] theorem State.unregister_begun (s : State) (h : Nat) : (s.unregister h).begun = s.begun := rfl
@[simp] theorem State.unregister_mem (s : State) (h : Nat) : (s.unregister h).mem = s.mem := rfl
@[simp] theorem State.unregister_hooks (s : State) (h : Nat) : (s.unregister h).hooks = s.hooks.filter (fun h' => h'.handle != h) := rfl
@[simp] theorem State.unregister_nextHandle (s : State) (h : Nat) : (s.unregister h).nextHandle = s.nextHandle := rfl
@[simp] theorem State.unregister_host (s : State) (h : Nat) : (s.unregister h).host = s.host := rfl
@[simp] theorem State.unregister_consults (s : State) (h : Nat) : (s.unregister h).consults = s.consults := rfl
@[simp] theorem State.unregister_out (s : State) (h : Nat) : (s.unregister h).out = s.out := rfl

@[simp] theorem State.setFile_file (s : State) (r : RegFile) : (s.setFile r).file = r := rfl
@[simp] theorem State.setFile_pend (s : State) (r : RegFile) : (s.setFile r).pend = r := rfl
@[simp] theorem State.setFile_opcode (s : State) (r : RegFile) : (s.setFile r).opcode = none := rfl
@[simp] theorem State.setFile_cycles (s : State) (r : RegFile) : (s.setFile r).cycles = s.cycles := rfl
@[simp] theorem State.setFile_status (s : State) (r : RegFile) : (s.setFile r).status = s.status := rfl
@[simp] theorem State.setFile_begun (s : State) (r : RegFile) : (s.setFile r).begun = s.begun := rfl
@[simp] theorem State.setFile_mem (s : State) (r : RegFile) : (s.setFile r).mem = s.mem := rfl
@[simp] theorem State.setFile_hooks (s : State) (r : RegFile) : (s.setFile r).hooks = s.hooks := rfl
@[simp] theorem State.setFile_nextHandle (s : State) (r : RegFile) : (s.setFile r).nextHandle = s.nextHandle := rfl
@[simp] theorem State.setFile_host (s : State) (r : RegFile) : (s.setFile r).host = s.host := rfl
@[simp] theorem State.setFile_consults (s : State) (r : RegFile) : (s.setFile r).consults = s.consults := rfl
@[simp] theorem State.setFile_out (s : State) (r : RegFile) : (s.setFile r).out = s.out := rfl

@[simp] theorem State.done_file (s : State) (r : RegFile) (m : Memory) (n : Nat) (acc : List Access) : (s.done r m n acc).file = r := rfl
@[simp] theorem State.done_pend (s : State) (r : RegFile) (m : Memory) (n : Nat) (acc : List Access) : (s.done r m n acc).pend = r := rfl
@[simp] theorem State.done_opcode (s : State) (r : RegFile) (m : Memory) (n : Nat) (acc : List Access) : (s.done r m n acc).opcode = none := rfl
@[simp] theorem State.done_cycles (s : State) (r : RegFile) (m : Memory) (n : Nat) (acc : List Access) : (s.done r m n acc).cycles = s.cycles + n := rfl
@[simp] theorem State.done_status (s : State) (r : RegFile) (m : Memory) (n : Nat) (acc : List Access) : (s.done r m n acc).status = s.status := rfl
@[simp] theorem State.done_begun (s : State) (r : RegFile) (m : Memory) (n : Nat) (acc : List Access) : (s.done r m n acc).begun = s.begun := rfl
@[simp] theorem State.done_mem (s : State) (r : RegFile) (m : Memory) (n : Nat) (acc : List Access) : (s.done r m n acc).mem = m := rfl
@[simp] theorem State.done_hooks (s : State) (r : RegFile) (m : Memory) (n : Nat) (acc : List Access) : (s.done r m n acc).hooks = s.hooks := rfl
@[simp] theorem State.done_nextHandle (s : State) (r : RegFile) (m : Memory) (n : Nat) (acc : List Access) : (s.done r m n acc).nextHandle = s.nextHandle := rfl
@[simp] theorem State.done_host (s : State) (r : RegFile) (m : Memory) (n : Nat) (acc : List Access) : (s.done r m n acc).host = s.host := rfl
@[simp] theorem State.done_consults (s : State) (r : RegFile) (m : Memory) (n : Nat) (acc : List Access) : (s.done r m n acc).consults = s.consults := rfl
@[simp] theorem State.done_out (s : State) (r : RegFile) (m : Memory) (n : Nat) (acc : List Access) : (s.done r m n acc).out = { s.out with consumed := n, accesses := s.out.accesses ++ acc } := rfl

@[simp] theorem Status.withFault_unreset (info : FaultInfo) : Status.unreset.withFault info = .faulted info := rfl
@[simp] theorem Status.withFault_running (info : FaultInfo) : Status.running.withFault info = .faulted info := rfl
@[simp] theorem Status.withFault_faulted (first info : FaultInfo) :
    (Status.faulted first).withFault info = .faulted first := rfl

end Sys2Proof.Machine
end

