-- ==== Sys2Proof/Laws/Work.lean ====
section
/-!
SUPPORT. How a piece of work runs: the equations of the monad `Work`, and the two rules every later lemma about work is
built with: what a sequence answers, and that a preorder kept by both parts is kept by the sequence.
-/

namespace Sys2Proof.Machine

variable {α β : Type}

@[simp] theorem Work.pure_apply (v : α) (s : State) : (pure v : Work α) s = .ok v s := rfl

@[simp] theorem Work.get_apply (s : State) : (get : Work State) s = .ok s s := rfl

@[simp] theorem Work.set_apply (t s : State) : (set t : Work PUnit) s = .ok ⟨⟩ t := rfl

@[simp] theorem Work.modify_apply (f : State → State) (s : State) : (modify f : Work PUnit) s = .ok ⟨⟩ (f s) := rfl

@[simp] theorem Work.modifyGet_apply (f : State → α × State) (s : State) :
    (modifyGet f : Work α) s = .ok (f s).1 (f s).2 := rfl

@[simp] theorem Work.throw_apply (e : Stop) (s : State) : (throw e : Work α) s = .error e s := rfl

theorem Work.bind_apply (w : Work α) (f : α → Work β) (s : State) :
    (w >>= f) s = match w s with
      | .ok v t => f v t
      | .error e t => .error e t := by
  show EStateM.bind w f s = _
  unfold EStateM.bind
  cases w s <;> rfl

theorem Work.map_apply (g : α → β) (w : Work α) (s : State) :
    (g <$> w) s = match w s with
      | .ok v t => .ok (g v) t
      | .error e t => .error e t := by
  show EStateM.map g w s = _
  unfold EStateM.map
  cases w s <;> rfl

/-- A sequence goes on from what its first part answered. -/
theorem Work.bind_ok {w : Work α} {s t : State} {v : α} (h : w s = .ok v t) (f : α → Work β) :
    (w >>= f) s = f v t := by rw [Work.bind_apply, h]

/-- A sequence stops where its first part stops. -/
theorem Work.bind_error {w : Work α} {s t : State} {e : Stop} (h : w s = .error e t) (f : α → Work β) :
    (w >>= f) s = .error e t := by rw [Work.bind_apply, h]

/-- If a sequence answers, so did its first part. -/
theorem Work.of_bind_ok {w : Work α} {f : α → Work β} {s u : State} {b : β} (h : (w >>= f) s = .ok b u) :
    ∃ v t, w s = .ok v t ∧ f v t = .ok b u := by
  rw [Work.bind_apply] at h
  split at h
  · exact ⟨_, _, ‹_›, h⟩
  · cases h

@[simp] theorem Work.leaves_pure (v : α) (s : State) : (pure v : Work α).leaves s = s := rfl

theorem Work.leaves_of_ok {w : Work α} {s t : State} {v : α} (h : w s = .ok v t) : w.leaves s = t := by
  simp [Work.leaves, h]

theorem Work.leaves_of_error {w : Work α} {s t : State} {e : Stop} (h : w s = .error e t) : w.leaves s = t := by
  simp [Work.leaves, h]

/-- A transitive relation that holds from some state to what the first part leaves, and across the second part, holds
from that state to what the sequence leaves. -/
theorem Work.leaves_bind_from {R : State → State → Prop} (trans : ∀ {a b c}, R a b → R b c → R a c) {w : Work α}
    {f : α → Work β} {r s : State} (h : R r (w.leaves s)) (hf : ∀ v t, w s = .ok v t → R t ((f v).leaves t)) :
    R r ((w >>= f).leaves s) := by
  cases hw : w s with
  | ok v t =>
    rw [Work.leaves_of_ok hw] at h
    rw [show (w >>= f).leaves s = (f v).leaves t by simp [Work.leaves, Work.bind_ok hw]]
    exact trans h (hf v t hw)
  | error e t =>
    rw [Work.leaves_of_error hw] at h
    rwa [Work.leaves_of_error (Work.bind_error hw f)]

/-- A transitive relation that holds across each part of a sequence holds across the sequence. -/
theorem Work.leaves_bind {R : State → State → Prop} (trans : ∀ {a b c}, R a b → R b c → R a c) {w : Work α}
    {f : α → Work β} {s : State} (h : R s (w.leaves s)) (hf : ∀ v t, w s = .ok v t → R t ((f v).leaves t)) :
    R s ((w >>= f).leaves s) :=
  Work.leaves_bind_from (R := R) trans h hf

end Sys2Proof.Machine
end

