-- ==== Sys2Proof/Laws/Hooks.lean ====
section
/-!
SUPPORT. What the dispatch of an access can do. `HostClosed` names the changes a callback can make; every preorder
closed under them holds across a whole dispatch, nested accesses included, and `HostRan` and `StoresOk` are two such. With
no matching hook an access is plain storage (R68).
-/

namespace Sys2Proof.Machine

/-- A preorder on states that no single change made inside a callback breaks. -/
structure HostClosed (R : State → State → Prop) : Prop where
  refl : ∀ s, R s s
  trans : ∀ {a b c}, R a b → R b c → R a c
  called : ∀ (s : State) (c : HookCall), R s { s with out := { s.out with calls := s.out.calls ++ [c] } }
  replied : ∀ (s : State) (r : HostReply), R s (s.replied r)
  consulted : ∀ s : State, R s { s with consults := s.consults + 1 }
  took : ∀ (s : State) (m : HostMove) (rest : List HostMove), s.host = m :: rest → R s { s with host := rest }
  wrote : ∀ (s : State) (a v : Nat) (rest : List HostMove), s.host = .write a v :: rest → a < 65536 → v < 256 →
    R s { s with host := rest, mem := s.mem.write (BitVec.ofNat 16 a) (BitVec.ofNat 8 v) }
  registered : ∀ (s : State) (t : Trigger) (k : HookKind) (cb : Nat) (rest : List HostMove),
    s.host = .register t k cb :: rest → t.check k = .ok → R s ({ s with host := rest }.register t k cb)
  removed : ∀ (s : State) (h : Nat) (rest : List HostMove), s.host = .remove h :: rest →
    R s ({ s with host := rest }.unregister h)

variable {R : State → State → Prop}

section Dispatch

variable {run : HookCall → Work HookOutcome}

theorem callHook_leaves (hR : HostClosed R) (hrun : ∀ c s, R s ((run c).leaves s)) (snap : Snapshot) (a : Addr)
    (h : Hook) (s : State) : R s ((callHook run snap a h).leaves s) := by
  unfold callHook
  refine Work.leaves_bind (R := R) hR.trans (hR.refl s) fun v t ht => ?_
  obtain ⟨rfl, rfl⟩ : s = v ∧ s = t := by simpa using ht
  refine Work.leaves_bind (R := R) hR.trans (hR.called s _) fun v t ht => ?_
  refine Work.leaves_bind (R := R) hR.trans (hrun _ t) fun o u hu => ?_
  split <;> exact hR.refl u

theorem dispatchRead_leaves (hR : HostClosed R) (hrun : ∀ c s, R s ((run c).leaves s)) (snap : Snapshot) (a : Addr)
    (l : List Hook) (s : State) : R s ((dispatchRead run snap a l).leaves s) := by
  induction l generalizing s with
  | nil => exact hR.refl s
  | cons h rest ih =>
    unfold dispatchRead
    refine Work.leaves_bind (R := R) hR.trans (callHook_leaves hR hrun snap a h s) fun o t ht => ?_
    split
    · exact hR.refl t
    · exact ih t
    · exact ih t

theorem dispatchWrite_leaves (hR : HostClosed R) (hrun : ∀ c s, R s ((run c).leaves s)) (snap : Snapshot) (a : Addr)
    (l : List Hook) (s : State) : R s ((dispatchWrite run snap a l).leaves s) := by
  induction l generalizing s with
  | nil => exact hR.refl s
  | cons h rest ih =>
    unfold dispatchWrite
    exact Work.leaves_bind (R := R) hR.trans (callHook_leaves hR hrun snap a h s) fun o t _ => ih t

theorem readWith_leaves (hR : HostClosed R) (hrun : ∀ c s, R s ((run c).leaves s)) (k : HookKind) (snap : Snapshot)
    (a : Addr) (s : State) : R s ((readWith run k snap a).leaves s) := by
  unfold readWith
  refine Work.leaves_bind (R := R) hR.trans (hR.refl s) fun v t ht => ?_
  obtain ⟨rfl, rfl⟩ : s = v ∧ s = t := by simpa using ht
  refine Work.leaves_bind (R := R) hR.trans (dispatchRead_leaves hR hrun snap a _ s) fun o t _ => ?_
  split
  · exact hR.refl t
  · exact Work.leaves_bind (R := R) hR.trans (hR.refl t) fun v u hu => by
      obtain ⟨rfl, rfl⟩ : t = v ∧ t = u := by simpa using hu
      exact hR.refl t

/-- A write commits and then dispatches: what the commit does is not a change of the host's. -/
theorem writeWith_leaves (hR : HostClosed R) (hrun : ∀ c s, R s ((run c).leaves s)) (snap : Snapshot) (a : Addr)
    (v : Byte) (s : State) :
    R (s.stored a v) ((writeWith run snap a v).leaves s) := by
  have h : (writeWith run snap a v).leaves s =
      (dispatchWrite run snap a ((s.stored a v).dispatchList .postWrite a)).leaves (s.stored a v) := rfl
  rw [h]
  exact dispatchWrite_leaves hR hrun snap a _ _

end Dispatch

theorem reply_leaves (hR : HostClosed R) (r : HostReply) (s : State) : R s ((reply r).leaves s) :=
  hR.replied s r

/-- A nested access and what it gives back: a reply is added to whatever the access leaves. -/
theorem nested_leaves {α : Type} (hR : HostClosed R) {w : Work α} {s t : State} (answer : α → HostReply)
    (h : R t (w.leaves s)) : R t ((nested w answer).leaves s) := by
  unfold nested Work.leaves at *
  cases hw : w s with
  | ok v u => simp only [hw] at h ⊢; exact hR.trans h (hR.replied u _)
  | error e u =>
    cases e with
    | hookFailed hd a k => simp only [hw] at h ⊢; exact hR.trans h (hR.replied u _)
    | refused r => simpa only [hw] using h

theorem freeOutcome_leaves (hR : HostClosed R) (call : HookCall) (s : State) : R s ((freeOutcome call).leaves s) :=
  hR.consulted s

/-- Every closed preorder holds across the run of a callback, to any depth of nesting. -/
theorem runCallback_leaves (hR : HostClosed R) (n : Nat) (call : HookCall) (s : State) :
    R s ((runCallback n call).leaves s) := by
  induction n generalizing call s with
  | zero => exact freeOutcome_leaves hR call s
  | succ n ih =>
    cases hh : s.host with
    | nil =>
      have : (runCallback (n + 1) call).leaves s = (freeOutcome call).leaves s := by
        simp [runCallback, takeMove, Work.leaves, Work.bind_apply, hh]
      rw [this]
      exact freeOutcome_leaves hR call s
    | cons m rest =>
      have took := hR.took s m rest hh
      cases m with
      | answer o =>
        have : (runCallback (n + 1) call).leaves s = { s with host := rest } := by
          simp [runCallback, takeMove, Work.leaves, Work.bind_apply, hh]
        rwa [this]
      | read a =>
        by_cases ha : a < 65536
        · have : (runCallback (n + 1) call).leaves s =
              (nested (readWith (fun c => runCallback n c) .preRead call.snapshot (BitVec.ofNat 16 a)) .byte >>=
                fun _ => runCallback n call).leaves { s with host := rest } := by
            simp [runCallback, takeMove, Work.leaves, Work.bind_apply, hh, ha]
          rw [this]
          exact hR.trans took (Work.leaves_bind (R := R) hR.trans
            (nested_leaves hR _ (readWith_leaves hR ih _ _ _ _)) fun _ t _ => ih call t)
        · have : (runCallback (n + 1) call).leaves s =
              (runCallback n call).leaves ({ s with host := rest }.replied (.addressError a)) := by
            simp [runCallback, takeMove, reply, Work.leaves, Work.bind_apply, hh, ha]
          rw [this]
          exact hR.trans took (hR.trans (hR.replied _ _) (ih _ _))
      | write a v =>
        by_cases ha : a < 65536
        · by_cases hv : v < 256
          · have : (runCallback (n + 1) call).leaves s =
                (nested (writeWith (fun c => runCallback n c) call.snapshot (BitVec.ofNat 16 a) (BitVec.ofNat 8 v))
                  (fun _ => .done) >>= fun _ => runCallback n call).leaves { s with host := rest } := by
              simp [runCallback, takeMove, Work.leaves, Work.bind_apply, hh, ha, hv]
            rw [this]
            have hw := writeWith_leaves hR ih call.snapshot (BitVec.ofNat 16 a) (BitVec.ofNat 8 v)
              { s with host := rest }
            exact hR.trans (hR.wrote s a v rest hh ha hv) (Work.leaves_bind_from (R := R) hR.trans
              (nested_leaves hR _ hw) fun _ t _ => ih call t)
          · have : (runCallback (n + 1) call).leaves s = { s with host := rest } := by
              simp [runCallback, takeMove, Work.leaves, Work.bind_apply, hh, ha, hv]
            rwa [this]
        · have : (runCallback (n + 1) call).leaves s =
              (runCallback n call).leaves ({ s with host := rest }.replied (.addressError a)) := by
            simp [runCallback, takeMove, reply, Work.leaves, Work.bind_apply, hh, ha]
          rw [this]
          exact hR.trans took (hR.trans (hR.replied _ _) (ih _ _))
      | register t k cb =>
        cases hc : t.check k with
        | ok =>
          have : (runCallback (n + 1) call).leaves s = (runCallback n call).leaves
              (({ s with host := rest }.register t k cb).replied (.handle s.nextHandle)) := by
            simp [runCallback, takeMove, Work.leaves, Work.bind_apply, hh, hc]
          rw [this]
          exact hR.trans (hR.registered s t k cb rest hh hc) (hR.trans (hR.replied _ _) (ih _ _))
        | addressError b =>
          have : (runCallback (n + 1) call).leaves s =
              (runCallback n call).leaves ({ s with host := rest }.replied (.addressError b)) := by
            simp [runCallback, takeMove, reply, Work.leaves, Work.bind_apply, hh, hc]
          rw [this]
          exact hR.trans took (hR.trans (hR.replied _ _) (ih _ _))
        | notAdmitted =>
          have : (runCallback (n + 1) call).leaves s = { s with host := rest } := by
            simp [runCallback, takeMove, Work.leaves, Work.bind_apply, hh, hc]
          rwa [this]
      | remove h =>
        have : (runCallback (n + 1) call).leaves s =
            (runCallback n call).leaves (({ s with host := rest }.unregister h).replied .done) := by
          simp [runCallback, takeMove, Work.leaves, Work.bind_apply, hh]
        rw [this]
        exact hR.trans (hR.removed s h rest hh) (hR.trans (hR.replied _ _) (ih _ _))
      | registerSnapshot =>
        have : (runCallback (n + 1) call).leaves s =
            (runCallback n call).leaves ({ s with host := rest }.replied (.snapshot s.file.snapshot)) := by
          simp [runCallback, takeMove, Work.leaves, Work.bind_apply, hh]
        rw [this]
        exact hR.trans took (hR.trans (hR.replied _ _) (ih _ _))
      | cycleCount =>
        have : (runCallback (n + 1) call).leaves s =
            (runCallback n call).leaves ({ s with host := rest }.replied (.count s.cycles)) := by
          simp [runCallback, takeMove, Work.leaves, Work.bind_apply, hh]
        rw [this]
        exact hR.trans took (hR.trans (hR.replied _ _) (ih _ _))

/-! ## The three accesses -/

theorem memRead_leaves (hR : HostClosed R) (snap : Snapshot) (a : Addr) (s : State) :
    R s ((memRead snap a).leaves s) :=
  readWith_leaves hR (fun c t => runCallback_leaves hR _ c t) .preRead snap a s

theorem fetchOp_leaves (hR : HostClosed R) (snap : Snapshot) (a : Addr) (s : State) :
    R s ((fetchOp snap a).leaves s) :=
  readWith_leaves hR (fun c t => runCallback_leaves hR _ c t) .preExecute snap a s

theorem memWrite_leaves (hR : HostClosed R) (snap : Snapshot) (a : Addr) (v : Byte) (s : State) :
    R (s.stored a v) ((memWrite snap a v).leaves s) :=
  writeWith_leaves hR (fun c t => runCallback_leaves hR _ c t) snap a v s

/-! ## Two closed preorders -/

theorem HandlesFresh.refl (s : State) : HandlesFresh s s :=
  ⟨Nat.le_refl _, fun _ h => .inl h⟩

theorem HandlesFresh.trans {s t u : State} (h : HandlesFresh s t) (h' : HandlesFresh t u) : HandlesFresh s u :=
  ⟨Nat.le_trans h.1 h'.1, fun x hx =>
    (h'.2 x hx).elim (h.2 x) fun hge => .inr (Nat.le_trans h.1 hge)⟩

theorem HandlesFresh.register (s : State) (t : Trigger) (k : HookKind) (cb : Nat) :
    HandlesFresh s (s.register t k cb) := by
  refine ⟨Nat.le_succ _, fun x hx => ?_⟩
  simp only [State.register_hooks, List.mem_append, List.mem_singleton] at hx
  exact hx.imp id fun e => by subst e; exact Nat.le_refl _

theorem HandlesFresh.unregister (s : State) (hd : Nat) : HandlesFresh s (s.unregister hd) :=
  ⟨Nat.le_refl _, fun _ hx => .inl (List.mem_of_mem_filter hx)⟩

theorem HostRan.refl (s : State) : HostRan s s :=
  { file := rfl, pend := rfl, opcode := rfl, cycles := rfl, status := rfl, begun := rfl, consumed := rfl, illegal := rfl,
    accesses := rfl, calls := List.prefix_refl _, replies := List.prefix_refl _, host := List.suffix_refl _, mem := fun _ _ => rfl,
    registry := fun _ => ⟨rfl, rfl⟩, handles := HandlesFresh.refl s }

theorem HostRan.trans {s t u : State} (h : HostRan s t) (h' : HostRan t u) : HostRan s u where
  file := h'.file.trans h.file
  pend := h'.pend.trans h.pend
  opcode := h'.opcode.trans h.opcode
  cycles := h'.cycles.trans h.cycles
  status := h'.status.trans h.status
  begun := h'.begun.trans h.begun
  consumed := h'.consumed.trans h.consumed
  illegal := h'.illegal.trans h.illegal
  accesses := h'.accesses.trans h.accesses
  calls := h.calls.trans h'.calls
  replies := h.replies.trans h'.replies
  host := h'.host.trans h.host
  mem := fun a ha =>
    have ha' : t.HostSpares a := fun v hv => ha v (h.host.subset hv)
    (h'.mem a ha').trans (h.mem a ha)
  registry := fun hm =>
    have h1 := h.registry hm
    have h2 := h'.registry fun m hm' => hm m (h.host.subset hm')
    ⟨h2.1.trans h1.1, h2.2.trans h1.2⟩
  handles := h.handles.trans h'.handles

/-- What a dispatch may do is what `HostRan` says. -/
theorem hostRan_closed : HostClosed HostRan where
  refl := HostRan.refl
  trans := HostRan.trans
  called := fun s c =>
    { HostRan.refl s with calls := List.prefix_append _ _ }
  replied := fun s r => { HostRan.refl s with replies := List.prefix_append _ _ }
  consulted := fun s => { HostRan.refl s with }
  took := fun s m rest h =>
    { HostRan.refl s with host := by simp [h] }
  wrote := fun s a v rest h ha _ =>
    { HostRan.refl s with
      host := by simp [h]
      mem := fun b hb => by
        refine Memory.read_write_ne _ _ ?_
        rintro rfl
        exact hb v (by simp [h, Nat.mod_eq_of_lt ha]) }
  registered := fun s t k cb rest h _ =>
    { HostRan.refl s with
      host := by simp [h]
      handles := HandlesFresh.register { s with host := rest } t k cb
      registry := fun hm => absurd (hm _ (by rw [h]; exact List.mem_cons_self ..)) (by simp [HostMove.touchesRegistry]) }
  removed := fun s hd rest h =>
    { HostRan.refl s with
      host := by simp [h]
      handles := HandlesFresh.unregister { s with host := rest } hd
      registry := fun hm => absurd (hm _ (by rw [h]; exact List.mem_cons_self ..)) (by simp [HostMove.touchesRegistry]) }

theorem State.RegistryOk.register {s : State} (h : s.RegistryOk) {t : Trigger} {k : HookKind} (cb : Nat)
    (hc : t.check k = .ok) : (s.register t k cb).RegistryOk := by
  obtain ⟨h1, h2, h3⟩ := h
  refine ⟨?_, ?_, ?_⟩
  · simp only [State.register_hooks, List.pairwise_append, List.mem_singleton]
    exact ⟨h1, by simp, fun a ha b hb => by subst hb; exact h2 a ha⟩
  · intro x hx
    simp only [State.register_hooks, List.mem_append, List.mem_singleton] at hx
    simp only [State.register_nextHandle]
    rcases hx with hx | rfl
    · exact Nat.lt_succ_of_lt (h2 x hx)
    · exact Nat.lt_succ_self _
  · intro x hx
    simp only [State.register_hooks, List.mem_append, List.mem_singleton] at hx
    rcases hx with hx | rfl
    · exact h3 x hx
    · exact hc

theorem State.RegistryOk.unregister {s : State} (h : s.RegistryOk) (hd : Nat) : (s.unregister hd).RegistryOk :=
  ⟨h.1.filter _, fun x hx => h.2.1 x (List.mem_of_mem_filter hx), fun x hx => h.2.2 x (List.mem_of_mem_filter hx)⟩

/-- A dispatch keeps the stores in order. -/
theorem storesOk_closed : HostClosed (fun s t => s.StoresOk → t.StoresOk) where
  refl := fun _ h => h
  trans := fun h h' hs => h' (h hs)
  called := fun _ _ h => h
  replied := fun _ _ h => h
  consulted := fun _ h => h
  took := fun _ _ _ _ h => h
  wrote := fun _ _ _ _ _ _ _ h => ⟨Memory.wf_write _ _ _ h.1, h.2⟩
  registered := fun s _ _ cb _ _ hc h => ⟨h.1, State.RegistryOk.register (s := { s with host := _ }) h.2 cb hc⟩
  removed := fun s hd _ _ h => ⟨h.1, State.RegistryOk.unregister (s := { s with host := _ }) h.2 hd⟩

/-! ## Hooks that answer None -/

/-- What calling some hooks whose answers change nothing leaves: their moves are used and their calls recorded. -/
def State.afterCalls (s : State) (snap : Snapshot) (a : Addr) (l : List Hook) (rest : List HostMove) : State :=
  { s with host := rest
           out := { s.out with calls := s.out.calls ++ l.map fun h => ⟨h.callback, a, s.mem.read a, snap⟩ } }

@[simp] theorem State.afterCalls_nil {s : State} (snap : Snapshot) (a : Addr) {rest : List HostMove}
    (h : s.host = rest) : s.afterCalls snap a [] rest = s := by
  simp [State.afterCalls, ← h]

theorem callHook_none {s : State} {rest : List HostMove} (n : Nat) (snap : Snapshot) (a : Addr) (h : Hook)
    (hh : s.host = .answer .noOverride :: rest) :
    callHook (runCallback (n + 1)) snap a h s = .ok .noOverride (s.afterCalls snap a [h] rest) := by
  simp [callHook, Work.bind_apply, runCallback, takeMove, hh, checkOutcome, State.afterCalls]

/-- A read's dispatch passes over the hooks that answer None (R63). -/
theorem dispatchRead_skip (n : Nat) (snap : Snapshot) (a : Addr) (before l : List Hook) (s : State)
    (rest : List HostMove) (hh : s.host = List.replicate before.length (.answer .noOverride) ++ rest) :
    dispatchRead (runCallback (n + 1)) snap a (before ++ l) s
      = dispatchRead (runCallback (n + 1)) snap a l (s.afterCalls snap a before rest) := by
  induction before generalizing s with
  | nil => rw [State.afterCalls_nil snap a (by simpa using hh)]; rfl
  | cons b before ih =>
    simp only [List.length_cons, List.replicate_succ, List.cons_append] at hh
    simp only [List.cons_append, dispatchRead]
    rw [Work.bind_ok (callHook_none n snap a b hh)]
    dsimp only
    rw [ih _ rfl]
    simp [State.afterCalls]

/-- A write's dispatch passes over the hooks that answer None (R65). -/
theorem dispatchWrite_skip (n : Nat) (snap : Snapshot) (a : Addr) (before l : List Hook) (s : State)
    (rest : List HostMove) (hh : s.host = List.replicate before.length (.answer .noOverride) ++ rest) :
    dispatchWrite (runCallback (n + 1)) snap a (before ++ l) s
      = dispatchWrite (runCallback (n + 1)) snap a l (s.afterCalls snap a before rest) := by
  induction before generalizing s with
  | nil => rw [State.afterCalls_nil snap a (by simpa using hh)]; rfl
  | cons b before ih =>
    simp only [List.length_cons, List.replicate_succ, List.cons_append] at hh
    simp only [List.cons_append, dispatchWrite]
    rw [Work.bind_ok (callHook_none n snap a b hh)]
    rw [ih _ rfl]
    simp [State.afterCalls]

/-- With moves left, the callbacks of an access run on all of them. -/
theorem callbacks_eq {s : State} {n : Nat} (h : s.host.length = n) : callbacks s = runCallback n := by
  funext c
  simp [callbacks, h]

/-! ## No hook matches: plain storage (R68, R72) -/

theorem readWith_plain {run : HookCall → Work HookOutcome} {k : HookKind} {a : Addr} {s : State} (snap : Snapshot)
    (h : s.dispatchList k a = []) : readWith run k snap a s = .ok (s.mem.read a) s := by
  simp [readWith, dispatchRead, Work.bind_apply, Work.map_apply, h]

theorem memRead_plain {a : Addr} {s : State} (snap : Snapshot) (h : s.dispatchList .preRead a = []) :
    memRead snap a s = .ok (s.mem.read a) s :=
  readWith_plain snap h

theorem fetchOp_plain {a : Addr} {s : State} (snap : Snapshot) (h : s.dispatchList .preExecute a = []) :
    fetchOp snap a s = .ok (s.mem.read a) s :=
  readWith_plain snap h

theorem memWrite_plain {a : Addr} {s : State} (snap : Snapshot) (v : Byte) (h : s.dispatchList .postWrite a = []) :
    memWrite snap a v s = .ok () (s.stored a v) := by
  have h' : (s.stored a v).dispatchList .postWrite a = [] := h
  simp [memWrite, writeWith, dispatchWrite, Work.bind_apply, h']

@[simp] theorem State.dispatchList_quiet {s : State} (h : s.Quiet) (k : HookKind) (a : Addr) :
    s.dispatchList k a = [] := by
  simp [State.dispatchList, show s.hooks = [] from h]

end Sys2Proof.Machine
end

