-- ==== Sys2Proof/Laws/Ops.lean ====
section
/-!
SUPPORT. What the shared operations can do. `ReadClosed` adds to `HostClosed` the changes of work that writes no memory,
`WorkClosed` the commit of a byte; each operation keeps every such preorder, whatever hooks are registered. With no hook
registered each operation has one explicit answer.
-/

namespace Sys2Proof.Machine

/-- A preorder that no change made by work without a CPU write breaks. -/
structure ReadClosed (R : State → State → Prop) : Prop extends HostClosed R where
  logged : ∀ (s : State) (acc : Access), R s (s.logged acc)
  setPend : ∀ (s : State) (r : RegFile), R s (s.setPend r)
  emitted : ∀ (s : State) (op : Byte), R s (s.emitted op)
  latched : ∀ (s : State) (op : Byte), R s (s.latched op)

/-- A preorder that no change made by any work breaks. -/
structure WorkClosed (R : State → State → Prop) : Prop extends ReadClosed R where
  stored : ∀ (s : State) (a : Addr) (v : Byte), R s (s.stored a v)

/-- Work that keeps every preorder of `ReadClosed`: it commits no byte of its own. -/
def Work.Reads {α : Type} (w : Work α) : Prop :=
  ∀ R, ReadClosed R → ∀ s, R s (w.leaves s)

/-- Work that keeps every preorder of `WorkClosed`. -/
def Work.Works {α : Type} (w : Work α) : Prop :=
  ∀ R, WorkClosed R → ∀ s, R s (w.leaves s)

variable {α β : Type}

theorem Work.Reads.works {w : Work α} (h : w.Reads) : w.Works :=
  fun R hR s => h R hR.toReadClosed s

theorem Work.Reads.pure (v : α) : (Pure.pure v : Work α).Reads :=
  fun _ hR s => hR.refl s

theorem Work.Works.pure (v : α) : (Pure.pure v : Work α).Works :=
  (Work.Reads.pure v).works

theorem Work.Reads.bind {w : Work α} {f : α → Work β} (h : w.Reads) (hf : ∀ v, (f v).Reads) : (w >>= f).Reads :=
  fun R hR s => Work.leaves_bind (R := R) hR.trans (h R hR s) fun v t _ => hf v R hR t

theorem Work.Works.bind {w : Work α} {f : α → Work β} (h : w.Works) (hf : ∀ v, (f v).Works) : (w >>= f).Works :=
  fun R hR s => Work.leaves_bind (R := R) hR.trans (h R hR s) fun v t _ => hf v R hR t

/-! ## Every operation, whatever hooks are registered -/

theorem get_reads : (get : Work State).Reads := fun _ hR s => hR.refl s

theorem regs_reads : regs.Reads := fun _ hR s => hR.refl s

theorem modifyRegs_reads (f : RegFile → RegFile) : (modifyRegs f).Reads := fun _ hR s => hR.setPend s _

theorem setPc_reads (a : Addr) : (setPc a).Reads := modifyRegs_reads _

theorem emitIllegal_reads (op : Byte) : (emitIllegal op).Reads := fun _ hR s => hR.emitted s op

theorem logAccess_reads (acc : Access) : (logAccess acc).Reads := fun _ hR s => hR.logged s acc

theorem cpuRead_reads (a : Addr) : (cpuRead a).Reads :=
  (logAccess_reads _).bind fun _ => get_reads.bind fun _ _ hR s => memRead_leaves hR.toHostClosed _ a s

theorem cpuFetch_reads (a : Addr) : (cpuFetch a).Reads :=
  (logAccess_reads _).bind fun _ => get_reads.bind fun _ _ hR s => fetchOp_leaves hR.toHostClosed _ a s

theorem cpuWrite_works (a : Addr) (v : Byte) : (cpuWrite a v).Works :=
  (logAccess_reads _).works.bind fun _ => get_reads.works.bind fun _ _ hR s =>
    hR.trans (hR.stored s a v) (memWrite_leaves hR.toHostClosed _ a v s)

theorem push_works (v : Byte) : (push v).Works :=
  regs_reads.works.bind fun _ => (cpuWrite_works _ _).bind fun _ => (modifyRegs_reads _).works

theorem pushAddr_works (a : Addr) : (pushAddr a).Works :=
  (push_works _).bind fun _ => push_works _

theorem pull_reads : pull.Reads :=
  (modifyRegs_reads _).bind fun _ => regs_reads.bind fun _ => cpuRead_reads _

theorem pullAddr_reads : pullAddr.Reads :=
  pull_reads.bind fun _ => pull_reads.bind fun _ => Work.Reads.pure _

theorem readVector_reads (a : Addr) : (readVector a).Reads :=
  (cpuRead_reads _).bind fun _ => (cpuRead_reads _).bind fun _ => Work.Reads.pure _

theorem takeBreak_works : takeBreak.Works :=
  get_reads.works.bind fun _ => (pushAddr_works _).bind fun _ => regs_reads.works.bind fun _ =>
    (push_works _).bind fun _ => (modifyRegs_reads _).works.bind fun _ => (readVector_reads _).works.bind fun _ =>
      (setPc_reads _).works

theorem returnFromBreak_reads : returnFromBreak.Reads :=
  pull_reads.bind fun _ => (modifyRegs_reads _).bind fun _ => pullAddr_reads.bind fun _ => setPc_reads _

/-! ## Two preorders that all work keeps -/

/-- What no work changes: the register file, the counter, the status, and what the call has consumed so far. -/
structure StepRan (s t : State) : Prop where
  file : t.file = s.file
  cycles : t.cycles = s.cycles
  status : t.status = s.status
  begun : t.begun = s.begun
  consumed : t.out.consumed = s.out.consumed
  host : t.host <:+ s.host
  registry : (∀ m ∈ s.host, m.touchesRegistry = false) → t.hooks = s.hooks ∧ t.nextHandle = s.nextHandle
  handles : HandlesFresh s t

theorem StepRan.refl (s : State) : StepRan s s :=
  { file := rfl, cycles := rfl, status := rfl, begun := rfl, consumed := rfl, host := List.suffix_refl _,
    registry := fun _ => ⟨rfl, rfl⟩, handles := HandlesFresh.refl s }

theorem StepRan.trans {s t u : State} (h : StepRan s t) (h' : StepRan t u) : StepRan s u where
  file := h'.file.trans h.file
  cycles := h'.cycles.trans h.cycles
  status := h'.status.trans h.status
  begun := h'.begun.trans h.begun
  consumed := h'.consumed.trans h.consumed
  host := h'.host.trans h.host
  registry := fun hm =>
    have h1 := h.registry hm
    have h2 := h'.registry fun m hm' => hm m (h.host.subset hm')
    ⟨h2.1.trans h1.1, h2.2.trans h1.2⟩
  handles := h.handles.trans h'.handles

theorem HostRan.stepRan {s t : State} (h : HostRan s t) : StepRan s t :=
  { file := h.file, cycles := h.cycles, status := h.status, begun := h.begun, consumed := h.consumed, host := h.host,
    registry := h.registry, handles := h.handles }

theorem stepRan_closed : WorkClosed StepRan where
  refl := StepRan.refl
  trans := StepRan.trans
  called := fun s c => (hostRan_closed.called s c).stepRan
  replied := fun s r => (hostRan_closed.replied s r).stepRan
  consulted := fun s => (hostRan_closed.consulted s).stepRan
  took := fun s m rest h => (hostRan_closed.took s m rest h).stepRan
  wrote := fun s a v rest h ha hv => (hostRan_closed.wrote s a v rest h ha hv).stepRan
  registered := fun s t k cb rest h hc => (hostRan_closed.registered s t k cb rest h hc).stepRan
  removed := fun s hd rest h => (hostRan_closed.removed s hd rest h).stepRan
  logged := fun s _ => { StepRan.refl s with }
  setPend := fun s _ => { StepRan.refl s with }
  emitted := fun s _ => { StepRan.refl s with }
  latched := fun s _ => { StepRan.refl s with }
  stored := fun s _ _ => { StepRan.refl s with }

/-- All work keeps the stores in order. -/
theorem storesOk_workClosed : WorkClosed (fun s t => s.StoresOk → t.StoresOk) where
  toHostClosed := storesOk_closed
  logged := fun _ _ h => h
  setPend := fun _ _ h => h
  emitted := fun _ _ h => h
  latched := fun _ _ h => h
  stored := fun _ _ _ h => ⟨Memory.wf_write _ _ _ h.1, h.2⟩

/-- Work without a CPU write leaves every byte that no host move writes. -/
theorem spared_readClosed (a : Addr) :
    ReadClosed (fun s t => t.host <:+ s.host ∧ (s.HostSpares a → t.mem.read a = s.mem.read a)) where
  refl := fun _ => ⟨List.suffix_refl _, fun _ => rfl⟩
  trans := fun h h' => ⟨h'.1.trans h.1, fun hs =>
    (h'.2 fun v hv => hs v (h.1.subset hv)).trans (h.2 hs)⟩
  called := fun s c => have h := hostRan_closed.called s c; ⟨h.host, h.mem a⟩
  replied := fun s r => have h := hostRan_closed.replied s r; ⟨h.host, h.mem a⟩
  consulted := fun s => have h := hostRan_closed.consulted s; ⟨h.host, h.mem a⟩
  took := fun s m rest hh => have h := hostRan_closed.took s m rest hh; ⟨h.host, h.mem a⟩
  wrote := fun s b v rest hh hb hv => have h := hostRan_closed.wrote s b v rest hh hb hv; ⟨h.host, h.mem a⟩
  registered := fun s t k cb rest hh hc => have h := hostRan_closed.registered s t k cb rest hh hc; ⟨h.host, h.mem a⟩
  removed := fun s hd rest hh => have h := hostRan_closed.removed s hd rest hh; ⟨h.host, h.mem a⟩
  logged := fun _ _ => ⟨List.suffix_refl _, fun _ => rfl⟩
  setPend := fun _ _ => ⟨List.suffix_refl _, fun _ => rfl⟩
  emitted := fun _ _ => ⟨List.suffix_refl _, fun _ => rfl⟩
  latched := fun _ _ => ⟨List.suffix_refl _, fun _ => rfl⟩

/-! ## One access, whatever hooks are registered: `HostRan` from the state with the access recorded -/

theorem cpuRead_hostRan (a : Addr) (s : State) : HostRan (s.logged (.read a)) ((cpuRead a).leaves s) :=
  memRead_leaves hostRan_closed _ a (s.logged (.read a))

theorem cpuFetch_hostRan (a : Addr) (s : State) : HostRan (s.logged (.fetch a)) ((cpuFetch a).leaves s) :=
  fetchOp_leaves hostRan_closed _ a (s.logged (.fetch a))

theorem cpuWrite_hostRan (a : Addr) (v : Byte) (s : State) :
    HostRan ((s.logged (.write a v)).stored a v) ((cpuWrite a v).leaves s) :=
  memWrite_leaves hostRan_closed _ a v (s.logged (.write a v))

/-! ## With no hook registered -/

@[simp] theorem regs_apply (s : State) : regs s = .ok s.pend s := rfl

@[simp] theorem modifyRegs_apply (f : RegFile → RegFile) (s : State) :
    modifyRegs f s = .ok () (s.setPend (f s.pend)) := rfl

@[simp] theorem setPc_apply (a : Addr) (s : State) : setPc a s = .ok () (s.setPend { s.pend with pc := a }) := rfl

@[simp] theorem emitIllegal_apply (op : Byte) (s : State) : emitIllegal op s = .ok () (s.emitted op) := rfl

theorem cpuRead_quiet (a : Addr) {s : State} (h : s.hooks = []) :
    cpuRead a s = .ok (s.mem.read a) (s.logged (.read a)) := by
  show memRead _ a (s.logged (.read a)) = _
  exact memRead_plain _ (State.dispatchList_quiet h _ _)

theorem cpuFetch_quiet (a : Addr) {s : State} (h : s.hooks = []) :
    cpuFetch a s = .ok (s.mem.read a) (s.logged (.fetch a)) := by
  show fetchOp _ a (s.logged (.fetch a)) = _
  exact fetchOp_plain _ (State.dispatchList_quiet h _ _)

theorem cpuWrite_quiet (a : Addr) (v : Byte) {s : State} (h : s.hooks = []) :
    cpuWrite a v s = .ok () ((s.logged (.write a v)).stored a v) := by
  show memWrite _ a v (s.logged (.write a v)) = _
  exact memWrite_plain _ v (State.dispatchList_quiet h _ _)

/-- The state after one push with no hook registered. -/
def State.pushed (s : State) (v : Byte) : State :=
  ((s.logged (.write (stackAddr s.pend.sp) v)).stored (stackAddr s.pend.sp) v).setPend
    { s.pend with sp := s.pend.sp - 1 }

/-- The state after one pull with no hook registered. -/
def State.pulled (s : State) : State :=
  (s.setPend { s.pend with sp := s.pend.sp + 1 }).logged (.read (stackAddr (s.pend.sp + 1)))

theorem push_quiet (v : Byte) {s : State} (h : s.hooks = []) : push v s = .ok () (s.pushed v) := by
  simp [push, Work.bind_apply, cpuWrite_quiet _ _ h, State.pushed]

theorem pull_quiet {s : State} (h : s.hooks = []) :
    pull s = .ok (s.mem.read (stackAddr (s.pend.sp + 1))) s.pulled := by
  simp [pull, Work.bind_apply, State.pulled, cpuRead_quiet, h]

theorem pushAddr_quiet (a : Addr) {s : State} (h : s.hooks = []) :
    pushAddr a s = .ok () ((s.pushed (hiByte a)).pushed (loByte a)) := by
  simp [pushAddr, Work.bind_apply, push_quiet _ h, push_quiet _ (s := s.pushed (hiByte a)) h]

theorem pullAddr_quiet {s : State} (h : s.hooks = []) :
    pullAddr s = .ok (hiLo (s.mem.read (stackAddr (s.pend.sp + 1 + 1))) (s.mem.read (stackAddr (s.pend.sp + 1))))
      s.pulled.pulled := by
  simp [pullAddr, Work.bind_apply, Work.map_apply, pull_quiet h, pull_quiet (s := s.pulled) h]
  rfl

theorem readVector_quiet (a : Addr) {s : State} (h : s.hooks = []) :
    readVector a s = .ok (hiLo (s.mem.read (a + 1)) (s.mem.read a))
      ((s.logged (.read a)).logged (.read (a + 1))) := by
  simp [readVector, Work.bind_apply, Work.map_apply, cpuRead_quiet, h]

end Sys2Proof.Machine
end

