-- ==== Sys2Proof/Laws/Operands.lean ====
section
/-!
SUPPORT. The operand forms and the shapes of work: what they keep, and, with no hook registered, that the machine's
effective address, operand and page cross are the plain ones of Safety.lean (R141 to R149).
-/

namespace Sys2Proof.Machine

theorem effAddr_reads (m : MemMode) : (effAddr m).Reads := by
  refine regs_reads.bind fun r => ?_
  cases m with
  | izx b =>
    exact (cpuRead_reads _).bind fun _ => (cpuRead_reads _).bind fun _ => Work.Reads.pure _
  | izy b =>
    exact (cpuRead_reads _).bind fun _ => (cpuRead_reads _).bind fun _ => Work.Reads.pure _
  | zp | zpx | zpy | abs | abx | aby => exact Work.Reads.pure _

theorem readOperand_reads (m : ReadMode) : (readOperand m).Reads := by
  cases m with
  | imm b => exact Work.Reads.pure _
  | mem mm => exact (effAddr_reads mm).bind fun _ => (cpuRead_reads _).bind fun _ => Work.Reads.pure _

theorem jumpTarget_reads (m : JumpMode) : (jumpTarget m).Reads := by
  cases m with
  | abs w => exact Work.Reads.pure _
  | ind w => exact (cpuRead_reads _).bind fun _ => (cpuRead_reads _).bind fun _ => Work.Reads.pure _

theorem readWork_reads (m : ReadMode) (f : RegFile → Byte → RegFile) : (readWork m f).Reads :=
  (readOperand_reads m).bind fun _ => (modifyRegs_reads _).bind fun _ => Work.Reads.pure _

theorem storeWork_works (m : MemMode) (f : RegFile → Byte) : (storeWork m f).Works :=
  (effAddr_reads m).works.bind fun _ => regs_reads.works.bind fun _ => (cpuWrite_works _ _).bind fun _ =>
    Work.Works.pure _

theorem modifyWork_works (m : MemMode) (f : RegFile → Byte → ByteAndRegs) : (modifyWork m f).Works :=
  (effAddr_reads m).works.bind fun _ => (cpuRead_reads _).works.bind fun _ => regs_reads.works.bind fun _ =>
    (cpuWrite_works _ _).bind fun _ => (modifyRegs_reads _).works.bind fun _ => Work.Works.pure _

theorem shiftWork_works (m : RmwMode) (f : RegFile → Byte → ByteAndRegs) : (shiftWork m f).Works := by
  cases m with
  | acc => exact (modifyRegs_reads _).works.bind fun _ => Work.Works.pure _
  | mem mm => exact modifyWork_works mm f

theorem regWork_reads (f : RegFile → RegFile) : (regWork f).Reads :=
  (modifyRegs_reads _).bind fun _ => Work.Reads.pure _

theorem branchWork_reads (c : RegFile → Bool) (b : Byte) : (branchWork c b).Reads := by
  refine regs_reads.bind fun r => ?_
  dsimp only
  split
  · exact (setPc_reads _).bind fun _ => Work.Reads.pure _
  · exact Work.Reads.pure _

/-! ## Bytes and addresses as numbers -/

theorem zeroPage_toNat (b : Byte) : (zeroPage b).toNat = b.toNat := by
  simp only [zeroPage, BitVec.truncate_eq_setWidth, BitVec.toNat_setWidth]
  omega

theorem hiLo_toNat (hi lo : Byte) : (hiLo hi lo).toNat = lo.toNat + 256 * hi.toNat := by
  have h := lo.isLt
  simp only [hiLo, BitVec.toNat_append, Nat.shiftLeft_eq]
  rw [Nat.mul_comm, show (256 : Nat) = 2 ^ 8 from rfl, ← Nat.two_pow_add_eq_or_of_lt (by simpa using h)]
  omega

theorem hiByte_toNat (a : Addr) : (hiByte a).toNat = a.toNat / 256 := by
  have h := a.isLt
  simp only [hiByte, BitVec.extractLsb'_toNat, Nat.shiftRight_eq_div_pow]
  omega

theorem loByte_toNat (a : Addr) : (loByte a).toNat = a.toNat % 256 := by
  simp [loByte, BitVec.extractLsb'_toNat]

theorem hiLo_hiByte_loByte (a : Addr) : hiLo (hiByte a) (loByte a) = a := by
  apply BitVec.eq_of_toNat_eq
  rw [hiLo_toNat, hiByte_toNat, loByte_toNat]
  omega

theorem hiByte_hiLo (hi lo : Byte) : hiByte (hiLo hi lo) = hi := by
  apply BitVec.eq_of_toNat_eq
  rw [hiByte_toNat, hiLo_toNat]
  have := lo.isLt
  omega

theorem loByte_hiLo (hi lo : Byte) : loByte (hiLo hi lo) = lo := by
  apply BitVec.eq_of_toNat_eq
  rw [loByte_toNat, hiLo_toNat]
  have := lo.isLt
  omega

theorem pageCross_eq (a b : Addr) : pageCross a b = (a.toNat / 256 != b.toNat / 256) := by
  have : (hiByte a = hiByte b) ↔ a.toNat / 256 = b.toNat / 256 := by
    rw [← BitVec.toNat_inj, hiByte_toNat, hiByte_toNat]
  rw [Bool.eq_iff_iff]
  simp [pageCross, this]

theorem read_zeroPage (m : Memory) (b : Byte) : m.read (zeroPage b) = m.get b.toNat := by
  simp [Memory.read, zeroPage_toNat]

/-! ## With no hook registered -/

/-- The state after an operand form's pointer reads with no hook registered. -/
def State.loggedAll (s : State) (acc : List Access) : State :=
  { s with out := { s.out with accesses := s.out.accesses ++ acc } }

/-- The effective address and page cross are the plain ones, and the accesses are the pointer bytes (R143 to R149). -/
theorem effAddr_quiet (m : MemMode) {s : State} (h : s.hooks = []) :
    effAddr m s = .ok (plainAddr s.pend s.mem m, plainCross s.pend s.mem m)
      (s.loggedAll (plainPointerReads s.pend m)) := by
  have z0 : ∀ b : Byte, zeroPage b = BitVec.ofNat 16 b.toNat := fun b => by
    apply BitVec.eq_of_toNat_eq; have := b.isLt; simp [zeroPage_toNat]; omega
  have z1 : ∀ b c : Byte, zeroPage (b + c) = BitVec.ofNat 16 ((b.toNat + c.toNat) % 256) := fun b c => by
    rw [z0]; simp
  have z2 : ∀ b : Byte, zeroPage (b + 1) = BitVec.ofNat 16 ((b.toNat + 1) % 256) := fun b => by
    rw [z0]; simp
  have z3 : ∀ b c : Byte, zeroPage (b + c + 1) = BitVec.ofNat 16 (((b.toNat + c.toNat) % 256 + 1) % 256) :=
    fun b c => by rw [z0]; simp
  have g : ∀ k : Nat, k < 256 → s.mem.read (BitVec.ofNat 16 k) = s.mem.get k := fun k hk => by
    simp [Memory.read, Nat.mod_eq_of_lt (show k < 65536 by omega)]
  have idx : ∀ (w : Addr) (b : Byte), w + zeroPage b = BitVec.ofNat 16 ((w.toNat + b.toNat) % 65536) := fun w b => by
    apply BitVec.eq_of_toNat_eq; simp [zeroPage_toNat]
  have px : ∀ (w : Addr) (n : Nat),
      pageCross w (BitVec.ofNat 16 (n % 65536)) = (w.toNat / 256 != n % 65536 / 256) := fun w n => by
    rw [pageCross_eq]; simp
  have e : s.loggedAll [] = s := by simp [State.loggedAll]
  have e1 : ∀ a b : Access, (s.logged a).logged b = s.loggedAll [a, b] := fun a b => by
    simp [State.loggedAll, State.logged]
  cases m with
  | zp b => simp [effAddr, Work.bind_apply, plainAddr, plainEA, plainBase, plainCross, plainPointerReads, plainPointer,
      z0, e]
  | zpx b => simp [effAddr, Work.bind_apply, plainAddr, plainEA, plainBase, plainCross, plainPointerReads, plainPointer,
      z1, e]
  | zpy b => simp [effAddr, Work.bind_apply, plainAddr, plainEA, plainBase, plainCross, plainPointerReads, plainPointer,
      z1, e]
  | abs w => simp [effAddr, Work.bind_apply, plainAddr, plainEA, plainBase, plainCross, plainPointerReads, plainPointer,
      e]
  | abx w => simp [effAddr, Work.bind_apply, plainAddr, plainEA, plainBase, plainCross, plainPointerReads, plainPointer,
      px, idx, e]
  | aby w => simp [effAddr, Work.bind_apply, plainAddr, plainEA, plainBase, plainCross, plainPointerReads, plainPointer,
      px, idx, e]
  | izx b =>
    have hw : ∀ hi lo : Byte, hiLo hi lo = BitVec.ofNat 16 (lo.toNat + 256 * hi.toNat) := fun hi lo => by
      apply BitVec.eq_of_toNat_eq; rw [← hiLo_toNat]; simp
    have h1 := g ((b.toNat + s.pend.x.toNat) % 256) (Nat.mod_lt _ (by omega))
    have h2 := g (((b.toNat + s.pend.x.toNat) % 256 + 1) % 256) (Nat.mod_lt _ (by omega))
    show (cpuRead (zeroPage (b + s.pend.x)) >>= fun lo => cpuRead (zeroPage (b + s.pend.x + 1)) >>= fun hi =>
      pure (hiLo hi lo, false)) s = _
    rw [Work.bind_ok (cpuRead_quiet _ h), Work.bind_ok (cpuRead_quiet _ (s := s.logged _) h), e1, z1, z3]
    simp only [Work.pure_apply, State.logged_mem, h1, h2, hw]
    simp [plainAddr, plainEA, plainBase, plainCross, plainPointerReads, plainPointer, plainWord]
  | izy b =>
    have h1 := g b.toNat b.isLt
    have h2 := g ((b.toNat + 1) % 256) (Nat.mod_lt _ (by omega))
    show (cpuRead (zeroPage b) >>= fun lo => cpuRead (zeroPage (b + 1)) >>= fun hi =>
      pure (hiLo hi lo + zeroPage s.pend.y, pageCross (hiLo hi lo) (hiLo hi lo + zeroPage s.pend.y))) s = _
    rw [Work.bind_ok (cpuRead_quiet _ h), Work.bind_ok (cpuRead_quiet _ (s := s.logged _) h), e1, z2, z0]
    simp only [Work.pure_apply, State.logged_mem, h1, h2, idx, px, hiLo_toNat]
    simp [plainAddr, plainEA, plainBase, plainCross, plainPointerReads, plainPointer, plainWord]

/-- Reading an operand with no hook registered (R142 to R149). -/
theorem readOperand_quiet (m : ReadMode) {s : State} (h : s.hooks = []) :
    readOperand m s = .ok (plainOperand s.pend s.mem m, plainOperandCross s.pend s.mem m)
      (s.loggedAll (plainOperandReads s.pend s.mem m)) := by
  cases m with
  | imm b => simp [readOperand, plainOperand, plainOperandCross, plainOperandReads, State.loggedAll]
  | mem mm =>
    show (effAddr mm >>= fun x => cpuRead x.1 >>= fun v => pure (v, x.2)) s = _
    rw [Work.bind_ok (effAddr_quiet mm h), Work.bind_ok (cpuRead_quiet _ (s := s.loggedAll _) h)]
    simp [plainOperand, plainOperandCross, plainOperandReads, State.loggedAll, State.logged]

end Sys2Proof.Machine
end

