-- ==== Sys2Proof/Laws/Exec.lean ====
section
/-!
SUPPORT. What exec can do, said once: every instruction is a piece of work and the end of a step, so exec completes
(a commit after the work), faults (Faulted, with the registers of before the step), or is refused.
-/

namespace Sys2Proof.Machine

theorem reads_work {i : Instr} {s : State} (w : Work Path) (h : exec i s = conclude i w s) (hw : w.Reads) {p : Prop} :
    ∃ w : Work Path, exec i s = conclude i w s ∧ w.Works ∧ (p → w.Reads) :=
  ⟨w, h, hw.works, fun _ => hw⟩

theorem shiftWork_acc_reads {m : RmwMode} (h : m = .acc) (f : RegFile → Byte → ByteAndRegs) : (shiftWork m f).Reads := by
  subst h
  exact (modifyRegs_reads _).bind fun _ => Work.Reads.pure _

theorem shift_work {i : Instr} {s : State} {m : RmwMode} {f : RegFile → Byte → ByteAndRegs} (w : Work Path)
    (h : exec i s = conclude i w s) (hw : commitsByte i = false → w.Reads) (hf : w = shiftWork m f := by rfl) :
    ∃ w : Work Path, exec i s = conclude i w s ∧ w.Works ∧ (commitsByte i = false → w.Reads) :=
  ⟨w, h, hf ▸ shiftWork_works m f, hw⟩

/-- exec is the instruction's work and the end of the step; the work keeps every preorder of `WorkClosed`, and of
`ReadClosed` where the instruction commits no byte. -/
theorem exec_work (i : Instr) (s : State) :
    ∃ w : Work Path, exec i s = conclude i w s ∧ w.Works ∧ (commitsByte i = false → w.Reads) := by
  cases i with
  | lda m => exact reads_work (readWork m fun r v => { r with a := v }.setNZ v) rfl (readWork_reads _ _)
  | ldx m => exact reads_work (readWork m fun r v => { r with x := v }.setNZ v) rfl (readWork_reads _ _)
  | ldy m => exact reads_work (readWork m fun r v => { r with y := v }.setNZ v) rfl (readWork_reads _ _)
  | sta m => exact ⟨_, rfl, storeWork_works _ _, fun h => nomatch h⟩
  | stx m => exact ⟨_, rfl, storeWork_works _ _, fun h => nomatch h⟩
  | sty m => exact ⟨_, rfl, storeWork_works _ _, fun h => nomatch h⟩
  | tax => exact reads_work (regWork fun r => { r with x := r.a }.setNZ r.a) rfl (regWork_reads _)
  | tay => exact reads_work (regWork fun r => { r with y := r.a }.setNZ r.a) rfl (regWork_reads _)
  | txa => exact reads_work (regWork fun r => { r with a := r.x }.setNZ r.x) rfl (regWork_reads _)
  | tya => exact reads_work (regWork fun r => { r with a := r.y }.setNZ r.y) rfl (regWork_reads _)
  | tsx => exact reads_work (regWork fun r => { r with x := r.sp }.setNZ r.sp) rfl (regWork_reads _)
  | txs => exact reads_work (regWork fun r => { r with sp := r.x }) rfl (regWork_reads _)
  | adc m => exact reads_work (readWork m fun r v => r.adc v) rfl (readWork_reads _ _)
  | sbc m => exact reads_work (readWork m fun r v => r.sbc v) rfl (readWork_reads _ _)
  | cmp m => exact reads_work (readWork m fun r v => r.compare r.a v) rfl (readWork_reads _ _)
  | cpx m => exact reads_work (readWork m fun r v => r.compare r.x v) rfl (readWork_reads _ _)
  | cpy m => exact reads_work (readWork m fun r v => r.compare r.y v) rfl (readWork_reads _ _)
  | inc m => exact ⟨_, rfl, modifyWork_works _ _, fun h => nomatch h⟩
  | dec m => exact ⟨_, rfl, modifyWork_works _ _, fun h => nomatch h⟩
  | inx => exact reads_work (regWork fun r => { r with x := r.x + 1 }.setNZ (r.x + 1)) rfl (regWork_reads _)
  | iny => exact reads_work (regWork fun r => { r with y := r.y + 1 }.setNZ (r.y + 1)) rfl (regWork_reads _)
  | dex => exact reads_work (regWork fun r => { r with x := r.x - 1 }.setNZ (r.x - 1)) rfl (regWork_reads _)
  | dey => exact reads_work (regWork fun r => { r with y := r.y - 1 }.setNZ (r.y - 1)) rfl (regWork_reads _)
  | and m => exact reads_work (readWork m fun r v => { r with a := r.a &&& v }.setNZ (r.a &&& v)) rfl (readWork_reads _ _)
  | ora m => exact reads_work (readWork m fun r v => { r with a := r.a ||| v }.setNZ (r.a ||| v)) rfl (readWork_reads _ _)
  | eor m => exact reads_work (readWork m fun r v => { r with a := r.a ^^^ v }.setNZ (r.a ^^^ v)) rfl (readWork_reads _ _)
  | bit m => exact reads_work (readWork (.mem m) fun r v => r.bitTest v) rfl (readWork_reads _ _)
  | asl m => exact shift_work (shiftWork m fun r v => r.asl v) rfl fun h => shiftWork_acc_reads (by cases m <;> simp_all [commitsByte]) _
  | lsr m => exact shift_work (shiftWork m fun r v => r.lsr v) rfl fun h => shiftWork_acc_reads (by cases m <;> simp_all [commitsByte]) _
  | rol m => exact shift_work (shiftWork m fun r v => r.rol v) rfl fun h => shiftWork_acc_reads (by cases m <;> simp_all [commitsByte]) _
  | ror m => exact shift_work (shiftWork m fun r v => r.ror v) rfl fun h => shiftWork_acc_reads (by cases m <;> simp_all [commitsByte]) _
  | bcc b1 => exact reads_work (branchWork (fun r => !r.c) b1) rfl (branchWork_reads _ _)
  | bcs b1 => exact reads_work (branchWork (fun r => r.c) b1) rfl (branchWork_reads _ _)
  | beq b1 => exact reads_work (branchWork (fun r => r.z) b1) rfl (branchWork_reads _ _)
  | bne b1 => exact reads_work (branchWork (fun r => !r.z) b1) rfl (branchWork_reads _ _)
  | bmi b1 => exact reads_work (branchWork (fun r => r.n) b1) rfl (branchWork_reads _ _)
  | bpl b1 => exact reads_work (branchWork (fun r => !r.n) b1) rfl (branchWork_reads _ _)
  | bvc b1 => exact reads_work (branchWork (fun r => !r.v) b1) rfl (branchWork_reads _ _)
  | bvs b1 => exact reads_work (branchWork (fun r => r.v) b1) rfl (branchWork_reads _ _)
  | jmp m => exact reads_work (do setPc (← jumpTarget m); pure {}) rfl ((jumpTarget_reads _).bind fun _ => (setPc_reads _).bind fun _ => Work.Reads.pure _)
  | jsr w => exact ⟨_, rfl, (pushAddr_works _).bind fun _ => (setPc_reads _).works.bind fun _ => Work.Works.pure _, fun h => nomatch h⟩
  | rts => exact reads_work (do setPc ((← pullAddr) + 1); pure {}) rfl (pullAddr_reads.bind fun _ => (setPc_reads _).bind fun _ => Work.Reads.pure _)
  | brk => exact ⟨_, rfl, takeBreak_works.bind fun _ => Work.Works.pure _, fun h => nomatch h⟩
  | rti => exact reads_work (do returnFromBreak; pure {}) rfl (returnFromBreak_reads.bind fun _ => Work.Reads.pure _)
  | nop => exact reads_work (pure {}) rfl (Work.Reads.pure _)
  | pha => exact ⟨_, rfl, regs_reads.works.bind fun _ => (push_works _).bind fun _ => Work.Works.pure _, fun h => nomatch h⟩
  | php => exact ⟨_, rfl, regs_reads.works.bind fun _ => (push_works _).bind fun _ => Work.Works.pure _, fun h => nomatch h⟩
  | pla => exact reads_work (do let v ← pull; modifyRegs (fun r => { r with a := v }.setNZ v); pure {}) rfl (pull_reads.bind fun _ => (modifyRegs_reads _).bind fun _ => Work.Reads.pure _)
  | plp => exact reads_work (do let p ← pull; modifyRegs (fun r => r.loadP p); pure {}) rfl (pull_reads.bind fun _ => (modifyRegs_reads _).bind fun _ => Work.Reads.pure _)
  | clc => exact reads_work (regWork fun r => { r with c := false }) rfl (regWork_reads _)
  | sec => exact reads_work (regWork fun r => { r with c := true }) rfl (regWork_reads _)
  | cli => exact reads_work (regWork fun r => { r with i := false }) rfl (regWork_reads _)
  | sei => exact reads_work (regWork fun r => { r with i := true }) rfl (regWork_reads _)
  | cld => exact reads_work (regWork fun r => { r with d := false }) rfl (regWork_reads _)
  | sed => exact reads_work (regWork fun r => { r with d := true }) rfl (regWork_reads _)
  | clv => exact reads_work (regWork fun r => { r with v := false }) rfl (regWork_reads _)
  | illegal op => exact reads_work (do emitIllegal op; pure {}) rfl ((emitIllegal_reads _).bind fun _ => Work.Reads.pure _)

/-- How a concluded piece of work ends, and from what. -/
theorem conclude_cases {i : Instr} {w : Work Path} {s t : State} (h : conclude i w s = .next t) :
    (∃ p u, w s = .ok p u ∧ t = u.commit (i.cycles p)) ∨
      (∃ hd a k u, w s = .error (.hookFailed hd a k) u ∧ t = u.raise (u.stepFault hd a k)) := by
  unfold conclude at h
  rw [Work.bind_apply] at h
  cases hw : w s with
  | ok p u =>
    simp only [hw, Work.pure_apply, endStep, Host.Outcome.next.injEq] at h
    exact .inl ⟨p, u, rfl, h.symm⟩
  | error e u =>
    cases e with
    | hookFailed hd a k =>
      simp only [hw, endStep, Host.Outcome.next.injEq] at h
      exact .inr ⟨hd, a, k, u, rfl, h.symm⟩
    | refused r => simp [hw, endStep] at h

theorem conclude_ok {i : Instr} {w : Work Path} {s u : State} {p : Path} (h : w s = .ok p u) :
    conclude i w s = .next (u.commit (i.cycles p)) := by
  simp [conclude, Work.bind_ok h, endStep]

end Sys2Proof.Machine
end

