-- ==== Sys2Proof/Laws/Fetch.lean ====
section
/-!
SUPPORT. What the fetch of a step can do: it keeps every preorder of `ReadClosed` whatever hooks are registered, and with
no hook registered its opcode and operand bytes are the stored ones. A step is the fetch and then exec.
-/

namespace Sys2Proof.Machine

theorem latch_reads (op : Byte) : (modify fun s => s.latched op : Work PUnit).Reads := fun _ hR s => hR.latched s op

theorem fetchOpcode_reads : fetchOpcode.Reads :=
  regs_reads.bind fun _ => (cpuFetch_reads _).bind fun op => (latch_reads op).bind fun _ =>
    (modifyRegs_reads _).bind fun _ => Work.Reads.pure _

theorem fetchOperand_reads : fetchOperand.Reads :=
  regs_reads.bind fun _ => (cpuRead_reads _).bind fun _ => (modifyRegs_reads _).bind fun _ => Work.Reads.pure _

theorem fetchOperands_reads (n : Nat) : (fetchOperands n).Reads := by
  induction n with
  | zero => exact Work.Reads.pure _
  | succ n ih => exact fetchOperand_reads.bind fun _ => ih.bind fun _ => Work.Reads.pure _

theorem fetchInstr_reads : fetchInstr.Reads := by
  refine fetchOpcode_reads.bind fun op => (fetchOperands_reads _).bind fun bs => ?_
  split
  · exact Work.Reads.pure _
  · exact fun _ hR s => hR.refl s

/-- A step in status Running is the fetch, and then exec of what was fetched. -/
theorem step_running {s : State} (h : s.status = .running) : step s = afterFetch exec (fetchInstr s.begin) := by
  simp [step, stepWith, h]

/-- The opcode fetch with no hook registered (R132). -/
theorem fetchOpcode_quiet {s : State} (h : s.hooks = []) :
    fetchOpcode s = .ok (s.mem.read s.pend.pc)
      (((s.logged (.fetch s.pend.pc)).latched (s.mem.read s.pend.pc)).setPend { s.pend with pc := s.pend.pc + 1 }) := by
  simp [fetchOpcode, Work.bind_apply, Work.map_apply, cpuFetch_quiet, h]

/-- One operand read with no hook registered (R134). -/
theorem fetchOperand_quiet {s : State} (h : s.hooks = []) :
    fetchOperand s = .ok (s.mem.read s.pend.pc)
      ((s.logged (.read s.pend.pc)).setPend { s.pend with pc := s.pend.pc + 1 }) := by
  simp [fetchOperand, Work.bind_apply, Work.map_apply, cpuRead_quiet, h]

end Sys2Proof.Machine
end

