-- ==== Sys2Proof/Laws/HostCalls.lean ====
section
/-!
SUPPORT. What the host's calls do with no hook registered, and what the vector reads of a reset can do whatever hooks are
registered.
-/

namespace Sys2Proof.Machine

/-- A call made by one piece of work leaves what the work leaves, or that state with its ExecutionFault raised. -/
theorem endCall_leaves {α : Type} {w : Work α} {s t : State} (h : (endCall (w s)).state? = some t) :
    t = w.leaves s ∨ ∃ info, t = (w.leaves s).raise info := by
  cases hw : w s with
  | ok v u =>
    simp only [hw, endCall, CallResult.state?, Option.some.injEq] at h
    exact .inl (by rw [Work.leaves_of_ok hw, h])
  | error e u =>
    cases e with
    | hookFailed hd a k =>
      simp only [hw, endCall, CallResult.state?, Option.some.injEq] at h
      exact .inr ⟨_, by rw [Work.leaves_of_error hw, ← h]⟩
    | refused r => simp [hw, endCall, CallResult.state?] at h

/-- A host read with no hook registered (R51, R72). -/
theorem hostRead_quiet {a : Nat} {s : State} (h : s.hooks = []) (ha : a < 65536) :
    hostRead a s = .returned (s.mem.read (BitVec.ofNat 16 a)) { s with out := Output.empty } := by
  have e : memRead s.file.snapshot (BitVec.ofNat 16 a) { s with out := Output.empty }
      = .ok (s.mem.read (BitVec.ofNat 16 a)) { s with out := Output.empty } :=
    memRead_plain _ (State.dispatchList_quiet (s := { s with out := Output.empty }) h _ _)
  simp [hostRead, ha, e, endCall]

/-- A host write with no hook registered (R51, R72). -/
theorem hostWrite_quiet {a v : Nat} {s : State} (h : s.hooks = []) (ha : a < 65536) (hv : v < 256) :
    hostWrite a v s = .returned ()
      ({ s with out := Output.empty }.stored (BitVec.ofNat 16 a) (BitVec.ofNat 8 v)) := by
  have e : memWrite s.file.snapshot (BitVec.ofNat 16 a) (BitVec.ofNat 8 v) { s with out := Output.empty }
      = .ok () ({ s with out := Output.empty }.stored (BitVec.ofNat 16 a) (BitVec.ofNat 8 v)) :=
    memWrite_plain _ _ (State.dispatchList_quiet (s := { s with out := Output.empty }) h _ _)
  simp [hostWrite, ha, hv, e, endCall]

/-- The bytes of an image with no hook registered (R460). -/
theorem loadBytes_quiet (bytes : List Byte) (a : Nat) (s : State) (h : s.hooks = []) (ho : s.out = Output.empty)
    (hl : a + bytes.length ≤ 65536) :
    loadBytes a bytes s = .returned () { s with mem := s.mem.place (BitVec.ofNat 16 a) bytes } := by
  induction bytes generalizing a s with
  | nil => rfl
  | cons b rest ih =>
    simp only [List.length_cons] at hl
    simp only [loadBytes]
    rw [hostWrite_quiet h (by omega) b.isLt]
    dsimp only
    rw [ih (a + 1) (State.stored { s with out := Output.empty } (BitVec.ofNat 16 a) (BitVec.ofNat 8 b.toNat)) h rfl
      (by omega)]
    simp [State.stored, Memory.place, BitVec.ofNat_add, ho]

theorem memRead_reads (snap : Snapshot) (a : Addr) : (memRead snap a).Reads :=
  fun _ hR s => memRead_leaves hR.toHostClosed snap a s

/-- The vector reads of a reset keep every preorder of `ReadClosed` (R450, R452). -/
theorem resetVector_reads (snap : Snapshot) : (resetVector snap).Reads :=
  (logAccess_reads _).bind fun _ => (memRead_reads _ _).bind fun _ => (logAccess_reads _).bind fun _ =>
    (memRead_reads _ _).bind fun _ => Work.Reads.pure _

/-- The vector reads of a reset with no hook registered. -/
theorem resetVector_quiet (snap : Snapshot) {s : State} (h : s.hooks = []) :
    resetVector snap s = .ok (hiLo (s.mem.read 0xFFFD) (s.mem.read 0xFFFC))
      ((s.logged (.read 0xFFFC)).logged (.read 0xFFFD)) := by
  have e1 := memRead_plain (a := 0xFFFC) snap (s := s.logged (.read 0xFFFC)) (State.dispatchList_quiet (s := s) h _ _)
  have e2 := memRead_plain (a := 0xFFFD) snap (s := (s.logged (.read 0xFFFC)).logged (.read 0xFFFD))
    (State.dispatchList_quiet (s := s) h _ _)
  have l : ∀ (acc : Access) (t : State), logAccess acc t = .ok () (t.logged acc) := fun _ _ => rfl
  unfold resetVector
  rw [Work.bind_ok (l _ _), Work.bind_ok e1, Work.bind_ok (l _ _), Work.bind_ok e2]
  simp

end Sys2Proof.Machine
end

