-- ==== Sys2Proof/Laws/PerInstr.lean ====
section
/-!
SUPPORT. Per instruction: a well-formed instruction is a row of the opcode table (30_encoding R101, R106, R114): it has an
opcode byte, whose descriptor carries its operation and mode, and it has as many operand bytes as that descriptor says.
-/

/-- The row of the opcode table an instruction stands for. -/
def Sys2Proof.Laws.TableRow.Statement (i : Sys2Proof.Instr) : Prop :=
  i.wf = true → ∃ op, i.opcode? = some op ∧ (Sys2Proof.lookup op).operation = i.operation
    ∧ (Sys2Proof.lookup op).mode = i.mode ∧ i.operands.length = (Sys2Proof.lookup op).operandBytes

namespace Sys2Proof.Laws.TableRow

theorem lda (m : ReadMode) : Statement (.lda m) := by
  rcases m with _ | (_ | _ | _ | _ | _ | _ | _ | _) <;> intro h <;>
    first | exact ⟨_, rfl, rfl, rfl, rfl⟩ | exact absurd (show false = true from h) (by decide)

theorem ldx (m : ReadMode) : Statement (.ldx m) := by
  rcases m with _ | (_ | _ | _ | _ | _ | _ | _ | _) <;> intro h <;>
    first | exact ⟨_, rfl, rfl, rfl, rfl⟩ | exact absurd (show false = true from h) (by decide)

theorem ldy (m : ReadMode) : Statement (.ldy m) := by
  rcases m with _ | (_ | _ | _ | _ | _ | _ | _ | _) <;> intro h <;>
    first | exact ⟨_, rfl, rfl, rfl, rfl⟩ | exact absurd (show false = true from h) (by decide)

theorem sta (m : MemMode) : Statement (.sta m) := by
  cases m <;> intro h <;>
    first | exact ⟨_, rfl, rfl, rfl, rfl⟩ | exact absurd (show false = true from h) (by decide)

theorem stx (m : MemMode) : Statement (.stx m) := by
  cases m <;> intro h <;>
    first | exact ⟨_, rfl, rfl, rfl, rfl⟩ | exact absurd (show false = true from h) (by decide)

theorem sty (m : MemMode) : Statement (.sty m) := by
  cases m <;> intro h <;>
    first | exact ⟨_, rfl, rfl, rfl, rfl⟩ | exact absurd (show false = true from h) (by decide)

theorem tax : Statement .tax := fun _ => ⟨_, rfl, rfl, rfl, rfl⟩

theorem tay : Statement .tay := fun _ => ⟨_, rfl, rfl, rfl, rfl⟩

theorem txa : Statement .txa := fun _ => ⟨_, rfl, rfl, rfl, rfl⟩

theorem tya : Statement .tya := fun _ => ⟨_, rfl, rfl, rfl, rfl⟩

theorem tsx : Statement .tsx := fun _ => ⟨_, rfl, rfl, rfl, rfl⟩

theorem txs : Statement .txs := fun _ => ⟨_, rfl, rfl, rfl, rfl⟩

theorem adc (m : ReadMode) : Statement (.adc m) := by
  rcases m with _ | (_ | _ | _ | _ | _ | _ | _ | _) <;> intro h <;>
    first | exact ⟨_, rfl, rfl, rfl, rfl⟩ | exact absurd (show false = true from h) (by decide)

theorem sbc (m : ReadMode) : Statement (.sbc m) := by
  rcases m with _ | (_ | _ | _ | _ | _ | _ | _ | _) <;> intro h <;>
    first | exact ⟨_, rfl, rfl, rfl, rfl⟩ | exact absurd (show false = true from h) (by decide)

theorem cmp (m : ReadMode) : Statement (.cmp m) := by
  rcases m with _ | (_ | _ | _ | _ | _ | _ | _ | _) <;> intro h <;>
    first | exact ⟨_, rfl, rfl, rfl, rfl⟩ | exact absurd (show false = true from h) (by decide)

theorem cpx (m : ReadMode) : Statement (.cpx m) := by
  rcases m with _ | (_ | _ | _ | _ | _ | _ | _ | _) <;> intro h <;>
    first | exact ⟨_, rfl, rfl, rfl, rfl⟩ | exact absurd (show false = true from h) (by decide)

theorem cpy (m : ReadMode) : Statement (.cpy m) := by
  rcases m with _ | (_ | _ | _ | _ | _ | _ | _ | _) <;> intro h <;>
    first | exact ⟨_, rfl, rfl, rfl, rfl⟩ | exact absurd (show false = true from h) (by decide)

theorem inc (m : MemMode) : Statement (.inc m) := by
  cases m <;> intro h <;>
    first | exact ⟨_, rfl, rfl, rfl, rfl⟩ | exact absurd (show false = true from h) (by decide)

theorem dec (m : MemMode) : Statement (.dec m) := by
  cases m <;> intro h <;>
    first | exact ⟨_, rfl, rfl, rfl, rfl⟩ | exact absurd (show false = true from h) (by decide)

theorem inx : Statement .inx := fun _ => ⟨_, rfl, rfl, rfl, rfl⟩

theorem iny : Statement .iny := fun _ => ⟨_, rfl, rfl, rfl, rfl⟩

theorem dex : Statement .dex := fun _ => ⟨_, rfl, rfl, rfl, rfl⟩

theorem dey : Statement .dey := fun _ => ⟨_, rfl, rfl, rfl, rfl⟩

theorem and (m : ReadMode) : Statement (.and m) := by
  rcases m with _ | (_ | _ | _ | _ | _ | _ | _ | _) <;> intro h <;>
    first | exact ⟨_, rfl, rfl, rfl, rfl⟩ | exact absurd (show false = true from h) (by decide)

theorem ora (m : ReadMode) : Statement (.ora m) := by
  rcases m with _ | (_ | _ | _ | _ | _ | _ | _ | _) <;> intro h <;>
    first | exact ⟨_, rfl, rfl, rfl, rfl⟩ | exact absurd (show false = true from h) (by decide)

theorem eor (m : ReadMode) : Statement (.eor m) := by
  rcases m with _ | (_ | _ | _ | _ | _ | _ | _ | _) <;> intro h <;>
    first | exact ⟨_, rfl, rfl, rfl, rfl⟩ | exact absurd (show false = true from h) (by decide)

theorem bit (m : MemMode) : Statement (.bit m) := by
  cases m <;> intro h <;>
    first | exact ⟨_, rfl, rfl, rfl, rfl⟩ | exact absurd (show false = true from h) (by decide)

theorem asl (m : RmwMode) : Statement (.asl m) := by
  rcases m with _ | (_ | _ | _ | _ | _ | _ | _ | _) <;> intro h <;>
    first | exact ⟨_, rfl, rfl, rfl, rfl⟩ | exact absurd (show false = true from h) (by decide)

theorem lsr (m : RmwMode) : Statement (.lsr m) := by
  rcases m with _ | (_ | _ | _ | _ | _ | _ | _ | _) <;> intro h <;>
    first | exact ⟨_, rfl, rfl, rfl, rfl⟩ | exact absurd (show false = true from h) (by decide)

theorem rol (m : RmwMode) : Statement (.rol m) := by
  rcases m with _ | (_ | _ | _ | _ | _ | _ | _ | _) <;> intro h <;>
    first | exact ⟨_, rfl, rfl, rfl, rfl⟩ | exact absurd (show false = true from h) (by decide)

theorem ror (m : RmwMode) : Statement (.ror m) := by
  rcases m with _ | (_ | _ | _ | _ | _ | _ | _ | _) <;> intro h <;>
    first | exact ⟨_, rfl, rfl, rfl, rfl⟩ | exact absurd (show false = true from h) (by decide)

theorem bcc (b1 : Byte) : Statement (.bcc b1) := fun _ => ⟨_, rfl, rfl, rfl, rfl⟩

theorem bcs (b1 : Byte) : Statement (.bcs b1) := fun _ => ⟨_, rfl, rfl, rfl, rfl⟩

theorem beq (b1 : Byte) : Statement (.beq b1) := fun _ => ⟨_, rfl, rfl, rfl, rfl⟩

theorem bne (b1 : Byte) : Statement (.bne b1) := fun _ => ⟨_, rfl, rfl, rfl, rfl⟩

theorem bmi (b1 : Byte) : Statement (.bmi b1) := fun _ => ⟨_, rfl, rfl, rfl, rfl⟩

theorem bpl (b1 : Byte) : Statement (.bpl b1) := fun _ => ⟨_, rfl, rfl, rfl, rfl⟩

theorem bvc (b1 : Byte) : Statement (.bvc b1) := fun _ => ⟨_, rfl, rfl, rfl, rfl⟩

theorem bvs (b1 : Byte) : Statement (.bvs b1) := fun _ => ⟨_, rfl, rfl, rfl, rfl⟩

theorem jmp (m : JumpMode) : Statement (.jmp m) := by
  cases m <;> exact fun _ => ⟨_, rfl, rfl, rfl, rfl⟩

theorem jsr (w : Addr) : Statement (.jsr w) := fun _ => ⟨_, rfl, rfl, rfl, rfl⟩

theorem rts : Statement .rts := fun _ => ⟨_, rfl, rfl, rfl, rfl⟩

theorem brk : Statement .brk := fun _ => ⟨_, rfl, rfl, rfl, rfl⟩

theorem rti : Statement .rti := fun _ => ⟨_, rfl, rfl, rfl, rfl⟩

theorem nop : Statement .nop := fun _ => ⟨_, rfl, rfl, rfl, rfl⟩

theorem pha : Statement .pha := fun _ => ⟨_, rfl, rfl, rfl, rfl⟩

theorem php : Statement .php := fun _ => ⟨_, rfl, rfl, rfl, rfl⟩

theorem pla : Statement .pla := fun _ => ⟨_, rfl, rfl, rfl, rfl⟩

theorem plp : Statement .plp := fun _ => ⟨_, rfl, rfl, rfl, rfl⟩

theorem clc : Statement .clc := fun _ => ⟨_, rfl, rfl, rfl, rfl⟩

theorem sec : Statement .sec := fun _ => ⟨_, rfl, rfl, rfl, rfl⟩

theorem cli : Statement .cli := fun _ => ⟨_, rfl, rfl, rfl, rfl⟩

theorem sei : Statement .sei := fun _ => ⟨_, rfl, rfl, rfl, rfl⟩

theorem cld : Statement .cld := fun _ => ⟨_, rfl, rfl, rfl, rfl⟩

theorem sed : Statement .sed := fun _ => ⟨_, rfl, rfl, rfl, rfl⟩

theorem clv : Statement .clv := fun _ => ⟨_, rfl, rfl, rfl, rfl⟩

theorem illegal (op : Byte) : Statement (.illegal op) := fun h => by
  have hc : illegalBytes.contains op = true := by simpa [Instr.wf, Instr.byteOk, Instr.operation, Instr.mode, Operation.modes] using h
  have hl := lookup_illegal hc
  exact ⟨op, if_pos hc, by rw [hl]; rfl, by rw [hl]; rfl, by rw [hl]; rfl⟩

end Sys2Proof.Laws.TableRow
end

