-- ==== Sys2Proof/Tests/Slice0.lean ====
section
/-!
SUPPORT. Tests and witnesses. Expected results are the vectors of spec/95_test_vectors.md (row ids in the docstrings) or
hand calculation from the rules named. `test_…` checks one step, one call or a few words; `witness_…` shows a concrete
state and operands that meet the hypotheses of the obligation it names, clause by clause.
-/

namespace Sys2Proof.Tests

open Sys2Proof.Machine

set_option Elab.async false

/-! ## The vectors' conventions -/

/-- The register file of the default start state (95_test_vectors, Conventions). -/
def base : RegFile :=
  { a := 0x00, x := 0x00, y := 0x00, sp := 0xFD, pc := 0x2000, c := false, z := false, i := true, d := false,
    v := false, n := false }

/-- The default register file with the flags of a status byte: column P of the vectors. -/
def withP (p : Byte) : RegFile :=
  base.loadP p

/-- Store some bytes. -/
def poke (m : Memory) (cells : List (Addr × Byte)) : Memory :=
  cells.foldl (fun m c => m.write c.1 c.2) m

/-- The default start state with an instruction's bytes at PC, a register file and further bytes of memory. -/
def start (bytes : List Byte) (r : RegFile) (cells : List (Addr × Byte)) : State :=
  { State.reset with file := r, pend := r, mem := poke (Memory.place [] r.pc bytes) cells, out := Output.empty }

/-- The same with hooks registered and the host's moves. -/
def hooked (s : State) (hooks : List Hook) (host : List HostMove) : State :=
  { s with hooks := hooks, nextHandle := hooks.length, host := host }

/-- The state a step leads to. -/
def stepped (s : State) : Option State :=
  match step s with
  | .next t => some t
  | .fault _ => none
  | .refused _ => none

/-- What a completed step leaves and returns: registers, cycles, access log. -/
def ran (s : State) : Option (RegFile × Nat × List Access) :=
  match stepped s with
  | some t => if t.status = .running then some (t.file, t.out.consumed, t.out.accesses) else none
  | none => none

/-- The bytes at some addresses after a step. -/
def bytesAfter (s : State) (l : List Addr) : Option (List Byte) :=
  (stepped s).map fun t => l.map fun a => t.mem.read a

/-- The state an instruction leads to. -/
def execed (i : Instr) (s : State) : Option State :=
  match exec i s with
  | .next t => some t
  | .fault _ => none
  | .refused _ => none

/-- Whether a host call returned. -/
def returns {α : Type} (r : CallResult α) : Bool :=
  match r with
  | .returned _ _ => true
  | .addressError _ _ => false
  | .executionFault _ _ => false
  | .notAdmitted => false

/-- Whether a host call ended in an ExecutionFault. -/
def faults {α : Type} (r : CallResult α) : Bool :=
  match r with
  | .returned _ _ => false
  | .addressError _ _ => false
  | .executionFault _ _ => true
  | .notAdmitted => false

/-- Whether a piece of work answered. -/
def answers {α : Type} (r : EStateM.Result Stop State α) : Bool :=
  match r with
  | .ok _ _ => true
  | .error _ _ => false

/-! ## Well-formedness: an ill-formed term for each check -/

/-- Each operation refuses the operand forms its rule does not give it; ILLEGAL refuses a documented byte. -/
theorem test_wf_refuses :
    ([.lda (.mem (.zpy 0)), .ldx (.mem (.zpx 0)), .ldx (.mem (.abx 0)), .ldx (.mem (.izx 0)), .ldy (.mem (.zpy 0)),
      .ldy (.mem (.aby 0)), .ldy (.mem (.izy 0)), .sta (.zpy 0), .stx (.zpx 0), .stx (.abx 0), .sty (.zpy 0),
      .sty (.aby 0), .adc (.mem (.zpy 0)), .sbc (.mem (.zpy 0)), .cmp (.mem (.zpy 0)), .cpx (.mem (.zpx 0)),
      .cpy (.mem (.abx 0)), .inc (.zpy 0), .inc (.izx 0), .dec (.aby 0)] : List Instr).all (fun i => !i.wf) = true
    ∧ ([.and (.mem (.zpy 0)), .ora (.mem (.zpy 0)), .eor (.mem (.zpy 0)), .bit (.zpx 0), .bit (.abx 0),
      .asl (.mem (.zpy 0)), .lsr (.mem (.aby 0)), .rol (.mem (.izx 0)), .ror (.mem (.izy 0)), .illegal 0xEA,
      .illegal 0x00] : List Instr).all (fun i => !i.wf) = true := by decide +kernel

/-- Well-formed terms pass. -/
theorem test_wf_accepts :
    ([.lda (.imm 0), .ldx (.mem (.zpy 0)), .sta (.izy 0), .asl .acc, .jmp (.ind 0), .jsr 0, .brk, .illegal 0x02,
      .illegal 0xFF] : List Instr).all (fun i => i.wf) = true := by decide +kernel

/-! ## Decoding: a word of every constructor, laid out from 30_encoding R100 and R106 -/

theorem test_decode_loads_stores :
    decodeTableWord 16 0x41A9 = some (.lda (.imm 0x41))
    ∧ decodeTableWord 16 0x80A5 = some (.lda (.mem (.zp 0x80)))
    ∧ decodeTableWord 24 0x1234BD = some (.lda (.mem (.abx 0x1234)))
    ∧ decodeTableWord 16 0x20A1 = some (.lda (.mem (.izx 0x20)))
    ∧ decodeTableWord 16 0x40B1 = some (.lda (.mem (.izy 0x40)))
    ∧ decodeTableWord 24 0x1234B9 = some (.lda (.mem (.aby 0x1234)))
    ∧ decodeTableWord 16 0xF0B6 = some (.ldx (.mem (.zpy 0xF0)))
    ∧ decodeTableWord 16 0x0AA2 = some (.ldx (.imm 0x0A))
    ∧ decodeTableWord 24 0x3000BE = some (.ldx (.mem (.aby 0x3000)))
    ∧ decodeTableWord 16 0x01A0 = some (.ldy (.imm 0x01))
    ∧ decodeTableWord 24 0x3000BC = some (.ldy (.mem (.abx 0x3000)))
    ∧ decodeTableWord 16 0x07B4 = some (.ldy (.mem (.zpx 0x07)))
    ∧ decodeTableWord 24 0x02008D = some (.sta (.abs 0x0200))
    ∧ decodeTableWord 24 0x30019D = some (.sta (.abx 0x3001))
    ∧ decodeTableWord 16 0x2091 = some (.sta (.izy 0x20))
    ∧ decodeTableWord 16 0xFF96 = some (.stx (.zpy 0xFF))
    ∧ decodeTableWord 16 0x1086 = some (.stx (.zp 0x10))
    ∧ decodeTableWord 16 0xFF94 = some (.sty (.zpx 0xFF))
    ∧ decodeTableWord 24 0x12348C = some (.sty (.abs 0x1234)) := by decide +kernel

theorem test_decode_transfers :
    decodeTableWord 8 0xAA = some (.tax)
    ∧ decodeTableWord 8 0xA8 = some (.tay)
    ∧ decodeTableWord 8 0x8A = some (.txa)
    ∧ decodeTableWord 8 0x98 = some (.tya)
    ∧ decodeTableWord 8 0xBA = some (.tsx)
    ∧ decodeTableWord 8 0x9A = some (.txs) := by decide +kernel

theorem test_decode_arithmetic :
    decodeTableWord 16 0x0169 = some (.adc (.imm 0x01))
    ∧ decodeTableWord 16 0x1065 = some (.adc (.mem (.zp 0x10)))
    ∧ decodeTableWord 24 0x123479 = some (.adc (.mem (.aby 0x1234)))
    ∧ decodeTableWord 16 0xF0E9 = some (.sbc (.imm 0xF0))
    ∧ decodeTableWord 24 0x1234ED = some (.sbc (.mem (.abs 0x1234)))
    ∧ decodeTableWord 16 0x40C9 = some (.cmp (.imm 0x40))
    ∧ decodeTableWord 16 0x40D1 = some (.cmp (.mem (.izy 0x40)))
    ∧ decodeTableWord 16 0x10E0 = some (.cpx (.imm 0x10))
    ∧ decodeTableWord 16 0x10C0 = some (.cpy (.imm 0x10))
    ∧ decodeTableWord 24 0x1234CC = some (.cpy (.mem (.abs 0x1234)))
    ∧ decodeTableWord 16 0x10E6 = some (.inc (.zp 0x10))
    ∧ decodeTableWord 24 0x3000DE = some (.dec (.abx 0x3000))
    ∧ decodeTableWord 8 0xE8 = some (.inx)
    ∧ decodeTableWord 8 0xC8 = some (.iny)
    ∧ decodeTableWord 8 0xCA = some (.dex)
    ∧ decodeTableWord 8 0x88 = some (.dey) := by decide +kernel

theorem test_decode_logic_shifts :
    decodeTableWord 16 0x0F29 = some (.and (.imm 0x0F))
    ∧ decodeTableWord 16 0x8009 = some (.ora (.imm 0x80))
    ∧ decodeTableWord 16 0xFF49 = some (.eor (.imm 0xFF))
    ∧ decodeTableWord 16 0xFF41 = some (.eor (.mem (.izx 0xFF)))
    ∧ decodeTableWord 16 0x1024 = some (.bit (.zp 0x10))
    ∧ decodeTableWord 24 0x30002C = some (.bit (.abs 0x3000))
    ∧ decodeTableWord 8 0x0A = some (.asl .acc)
    ∧ decodeTableWord 24 0x30FF1E = some (.asl (.mem (.abx 0x30FF)))
    ∧ decodeTableWord 8 0x4A = some (.lsr .acc)
    ∧ decodeTableWord 16 0x1046 = some (.lsr (.mem (.zp 0x10)))
    ∧ decodeTableWord 8 0x2A = some (.rol .acc)
    ∧ decodeTableWord 24 0x12342E = some (.rol (.mem (.abs 0x1234)))
    ∧ decodeTableWord 8 0x6A = some (.ror .acc)
    ∧ decodeTableWord 24 0x30007E = some (.ror (.mem (.abx 0x3000))) := by decide +kernel

theorem test_decode_control :
    decodeTableWord 16 0x7F90 = some (.bcc 0x7F)
    ∧ decodeTableWord 16 0x80B0 = some (.bcs 0x80)
    ∧ decodeTableWord 16 0x05F0 = some (.beq 0x05)
    ∧ decodeTableWord 16 0xF9D0 = some (.bne 0xF9)
    ∧ decodeTableWord 16 0xFC30 = some (.bmi 0xFC)
    ∧ decodeTableWord 16 0x1010 = some (.bpl 0x10)
    ∧ decodeTableWord 16 0x0250 = some (.bvc 0x02)
    ∧ decodeTableWord 16 0x0270 = some (.bvs 0x02)
    ∧ decodeTableWord 24 0x12344C = some (.jmp (.abs 0x1234))
    ∧ decodeTableWord 24 0x12FF6C = some (.jmp (.ind 0x12FF))
    ∧ decodeTableWord 24 0x300020 = some (.jsr 0x3000)
    ∧ decodeTableWord 8 0x60 = some (.rts)
    ∧ decodeTableWord 8 0x00 = some (.brk)
    ∧ decodeTableWord 8 0x40 = some (.rti)
    ∧ decodeTableWord 8 0xEA = some (.nop)
    ∧ decodeTableWord 8 0x02 = some (.illegal 0x02)
    ∧ decodeTableWord 8 0xFF = some (.illegal 0xFF) := by decide +kernel

theorem test_decode_stack_flags :
    decodeTableWord 8 0x48 = some (.pha)
    ∧ decodeTableWord 8 0x08 = some (.php)
    ∧ decodeTableWord 8 0x68 = some (.pla)
    ∧ decodeTableWord 8 0x28 = some (.plp)
    ∧ decodeTableWord 8 0x18 = some (.clc)
    ∧ decodeTableWord 8 0x38 = some (.sec)
    ∧ decodeTableWord 8 0x58 = some (.cli)
    ∧ decodeTableWord 8 0x78 = some (.sei)
    ∧ decodeTableWord 8 0xD8 = some (.cld)
    ∧ decodeTableWord 8 0xF8 = some (.sed)
    ∧ decodeTableWord 8 0xB8 = some (.clv) := by decide +kernel

/-- The encoder lays the same bytes out, the operand's low byte first (R100). -/
theorem test_encode :
    encode (.lda (.imm 0x41)) = [0xA9, 0x41] ∧ encode (.jmp (.ind 0x12FF)) = [0x6C, 0xFF, 0x12]
    ∧ encode (.sbc (.mem (.izy 0x40))) = [0xF1, 0x40] ∧ encode (.ror (.mem (.abx 0x3000))) = [0x7E, 0x00, 0x30]
    ∧ encode (.bne 0xF9) = [0xD0, 0xF9] ∧ encode .pla = [0x68] ∧ encode (.illegal 0x9C) = [0x9C] := by decide +kernel

/-- Operand bytes that are missing are a named rejection of the decoder. -/
theorem test_decode_needs_operands :
    (match decodeBytes [0x4C, 0x34] with | .ok _ => true | .error _ => false) = false := by decide +kernel

/-! ## Loads, stores, transfers -/

/-- LS-8: the pointer wraps in page 0. -/
theorem test_lda_izx_wraps :
    ran (start [0xA1, 0xFE] { base with x := 0x01 } [(0x00FF, 0x34), (0x0000, 0x12), (0x1234, 0x99)])
      = some ({ withP 0xB4 with a := 0x99, x := 0x01, pc := 0x2002 }, 6, [.fetch 0x2000, .read 0x2001, .read 0x00FF, .read 0x0000, .read 0x1234]) := by decide +kernel

/-- LS-6: the effective address wraps at the top of memory, a page cross. -/
theorem test_lda_abx_wraps :
    ran (start [0xBD, 0xFF, 0xFF] { base with x := 0x02 } [(0x0001, 0x33)])
      = some ({ base with a := 0x33, x := 0x02, pc := 0x2003 }, 5, [.fetch 0x2000, .read 0x2001, .read 0x2002, .read 0x0001]) := by decide +kernel

/-- LS-3: zero page, Y wraps. -/
theorem test_ldx_zpy_wraps :
    ran (start [0xB6, 0xF0] { base with y := 0x20 } [(0x0010, 0x7E), (0x0110, 0xA7)])
      = some ({ base with x := 0x7E, y := 0x20, pc := 0x2002 }, 4, [.fetch 0x2000, .read 0x2001, .read 0x0010]) := by decide +kernel

/-- R202, R146: a read in the next page costs one more cycle. -/
theorem test_ldy_abx :
    ran (start [0xBC, 0x01, 0x30] { base with x := 0xFF } [])
      = some ({ withP 0x36 with x := 0xFF, y := 0x00, pc := 0x2003 }, 5, [.fetch 0x2000, .read 0x2001, .read 0x2002, .read 0x3100]) := by decide +kernel

/-- R202, R144. -/
theorem test_ldy_zpx :
    ran (start [0xB4, 0xFF] { base with x := 0x01, y := 0x03 } [(0x0000, 0xC3)])
      = some ({ withP 0xB4 with x := 0x01, y := 0xC3, pc := 0x2002 }, 4, [.fetch 0x2000, .read 0x2001, .read 0x0000]) := by decide +kernel

/-- LS-7: a store pays no penalty. -/
theorem test_sta_abx :
    ran (start [0x9D, 0x01, 0x30] { base with a := 0x5A, x := 0xFF } [])
      = some ({ base with a := 0x5A, x := 0xFF, pc := 0x2003 }, 5, [.fetch 0x2000, .read 0x2001, .read 0x2002, .write 0x3100 0x5A])
    ∧ bytesAfter (start [0x9D, 0x01, 0x30] { base with a := 0x5A, x := 0xFF } []) [0x3100, 0x3001]
      = some [0x5A, 0x00] := by decide +kernel

/-- R203, R149. -/
theorem test_sta_izy :
    ran (start [0x91, 0x40] { base with a := 0x81, y := 0x01 } [(0x0040, 0xFF), (0x0041, 0x50)])
      = some ({ base with a := 0x81, y := 0x01, pc := 0x2002 }, 6, [.fetch 0x2000, .read 0x2001, .read 0x0040, .read 0x0041, .write 0x5100 0x81])
    ∧ bytesAfter (start [0x91, 0x40] { base with a := 0x81, y := 0x01 } [(0x0040, 0xFF), (0x0041, 0x50)]) [0x5100]
      = some [0x81] := by decide +kernel

/-- LS-15. -/
theorem test_stx_zpy_wraps :
    ran (start [0x96, 0xFF] { base with x := 0x9E, y := 0x02 } [])
      = some ({ base with x := 0x9E, y := 0x02, pc := 0x2002 }, 4, [.fetch 0x2000, .read 0x2001, .write 0x0001 0x9E])
    ∧ bytesAfter (start [0x96, 0xFF] { base with x := 0x9E, y := 0x02 } []) [0x0001, 0x0101]
      = some [0x9E, 0x00] := by decide +kernel

/-- LS-11. -/
theorem test_sty_zpx_wraps :
    ran (start [0x94, 0xFF] { base with x := 0x02, y := 0xC3 } [])
      = some ({ base with x := 0x02, y := 0xC3, pc := 0x2002 }, 4, [.fetch 0x2000, .read 0x2001, .write 0x0001 0xC3])
    ∧ bytesAfter (start [0x94, 0xFF] { base with x := 0x02, y := 0xC3 } []) [0x0001]
      = some [0xC3] := by decide +kernel

/-- R206. -/
theorem test_tax :
    ran (start [0xAA] { base with a := 0x80 } [])
      = some ({ withP 0xB4 with a := 0x80, x := 0x80, pc := 0x2001 }, 2, [.fetch 0x2000]) := by decide +kernel

/-- LS-14. -/
theorem test_tay :
    ran (start [0xA8] { base with y := 0x55 } [])
      = some ({ withP 0x36 with pc := 0x2001 }, 2, [.fetch 0x2000]) := by decide +kernel

/-- R208. -/
theorem test_txa :
    ran (start [0x8A] { base with a := 0x01, x := 0x7F } [])
      = some ({ base with a := 0x7F, x := 0x7F, pc := 0x2001 }, 2, [.fetch 0x2000]) := by decide +kernel

/-- R209. -/
theorem test_tya :
    ran (start [0x98] { base with a := 0x01, y := 0x80 } [])
      = some ({ withP 0xB4 with a := 0x80, y := 0x80, pc := 0x2001 }, 2, [.fetch 0x2000]) := by decide +kernel

/-- LS-13. -/
theorem test_tsx :
    ran (start [0xBA] { base with sp := 0x80 } [])
      = some ({ withP 0xB4 with sp := 0x80, x := 0x80, pc := 0x2001 }, 2, [.fetch 0x2000]) := by decide +kernel

/-- LS-12: no flag changes. -/
theorem test_txs :
    ran (start [0x9A] base [])
      = some ({ base with sp := 0x00, pc := 0x2001 }, 2, [.fetch 0x2000]) := by decide +kernel

/-! ## Arithmetic -/

/-- Rows A-B1 to A-B10 (A out, C, V, N, Z). -/
theorem test_addBin :
    addBin 0x00 0x00 false = ⟨0x00, false, false, false, true⟩
    ∧ addBin 0x01 0x01 false = ⟨0x02, false, false, false, false⟩
    ∧ addBin 0xFF 0x01 false = ⟨0x00, true, false, false, true⟩
    ∧ addBin 0x7F 0x01 false = ⟨0x80, false, true, true, false⟩
    ∧ addBin 0x80 0x80 false = ⟨0x00, true, true, false, true⟩
    ∧ addBin 0x80 0xFF false = ⟨0x7F, true, true, false, false⟩
    ∧ addBin 0x50 0x50 false = ⟨0xA0, false, true, true, false⟩
    ∧ addBin 0xFF 0xFF true = ⟨0xFF, true, false, true, false⟩
    ∧ addBin 0x3F 0x40 true = ⟨0x80, false, true, true, false⟩
    ∧ addBin 0xD0 0x90 false = ⟨0x60, true, true, false, false⟩ := by decide +kernel

/-- Rows S-B1 to S-B8 (A out, C, V, N, Z). -/
theorem test_subBin :
    subBin 0x50 0xF0 true = ⟨0x60, false, false, false, false⟩
    ∧ subBin 0x00 0x01 true = ⟨0xFF, false, false, true, false⟩
    ∧ subBin 0x80 0x01 true = ⟨0x7F, true, true, false, false⟩
    ∧ subBin 0x05 0x05 true = ⟨0x00, true, false, false, true⟩
    ∧ subBin 0x05 0x05 false = ⟨0xFF, false, false, true, false⟩
    ∧ subBin 0x7F 0xFF true = ⟨0x80, false, true, true, false⟩
    ∧ subBin 0x50 0xB0 true = ⟨0xA0, false, true, true, false⟩
    ∧ subBin 0x00 0x00 false = ⟨0xFF, false, false, true, false⟩ := by decide +kernel

/-- Rows A-D1 to A-D10 (A out, C, V, N, Z). -/
theorem test_addDec :
    addDec 0x09 0x01 false = ⟨0x10, false, false, false, false⟩
    ∧ addDec 0x99 0x01 false = ⟨0x00, true, false, true, false⟩
    ∧ addDec 0x58 0x46 true = ⟨0x05, true, true, true, false⟩
    ∧ addDec 0x12 0x34 false = ⟨0x46, false, false, false, false⟩
    ∧ addDec 0x50 0x50 false = ⟨0x00, true, true, true, false⟩
    ∧ addDec 0x79 0x00 true = ⟨0x80, false, true, true, false⟩
    ∧ addDec 0x0F 0x01 false = ⟨0x16, false, false, false, false⟩
    ∧ addDec 0x99 0x99 true = ⟨0x99, true, true, false, false⟩
    ∧ addDec 0x80 0x80 false = ⟨0x60, true, true, false, true⟩
    ∧ addDec 0x00 0x00 false = ⟨0x00, false, false, false, true⟩ := by decide +kernel

/-- Rows S-D1 to S-D7 (A out, C, V, N, Z). -/
theorem test_subDec :
    subDec 0x46 0x12 true = ⟨0x34, true, false, false, false⟩
    ∧ subDec 0x40 0x13 true = ⟨0x27, true, false, false, false⟩
    ∧ subDec 0x00 0x01 true = ⟨0x99, false, false, true, false⟩
    ∧ subDec 0x21 0x34 true = ⟨0x87, false, false, true, false⟩
    ∧ subDec 0x32 0x02 false = ⟨0x29, true, false, false, false⟩
    ∧ subDec 0x10 0x10 true = ⟨0x00, true, false, false, true⟩
    ∧ subDec 0x99 0x00 false = ⟨0x98, true, false, true, false⟩ := by decide +kernel

/-- A-B9. -/
theorem test_adc_binary :
    ran (start [0x69, 0x40] { base with a := 0x3F, c := true } [])
      = some ({ withP 0xF4 with a := 0x80, pc := 0x2002 }, 2, [.fetch 0x2000, .read 0x2001]) := by decide +kernel

/-- A-D3: D selects the decimal adder and stays set. -/
theorem test_adc_decimal :
    ran (start [0x69, 0x46] { base with a := 0x58, c := true, d := true } [])
      = some ({ withP 0xFD with a := 0x05, pc := 0x2002 }, 2, [.fetch 0x2000, .read 0x2001]) := by decide +kernel

/-- S-B3. -/
theorem test_sbc_binary :
    ran (start [0xE9, 0x01] { base with a := 0x80, c := true } [])
      = some ({ withP 0x75 with a := 0x7F, pc := 0x2002 }, 2, [.fetch 0x2000, .read 0x2001]) := by decide +kernel

/-- S-D4. -/
theorem test_sbc_decimal :
    ran (start [0xE9, 0x34] { base with a := 0x21, c := true, d := true } [])
      = some ({ withP 0xBC with a := 0x87, pc := 0x2002 }, 2, [.fetch 0x2000, .read 0x2001]) := by decide +kernel

/-- CP-4: unsigned, N from the difference. -/
theorem test_cmp_unsigned :
    ran (start [0xC9, 0xFF] base [])
      = some ({ base with pc := 0x2002 }, 2, [.fetch 0x2000, .read 0x2001]) := by decide +kernel

/-- CP-10: binary in decimal mode. -/
theorem test_cmp_decimal :
    ran (start [0xC9, 0x09] { base with a := 0x10, d := true } [])
      = some ({ withP 0x3D with a := 0x10, pc := 0x2002 }, 2, [.fetch 0x2000, .read 0x2001]) := by decide +kernel

/-- CP-8. -/
theorem test_cpx :
    ran (start [0xE0, 0x10] { base with x := 0x10 } [])
      = some ({ withP 0x37 with x := 0x10, pc := 0x2002 }, 2, [.fetch 0x2000, .read 0x2001]) := by decide +kernel

/-- CP-9. -/
theorem test_cpy :
    ran (start [0xC0, 0x10] { base with y := 0x0F } [])
      = some ({ withP 0xB4 with y := 0x0F, pc := 0x2002 }, 2, [.fetch 0x2000, .read 0x2001]) := by decide +kernel

/-- ID-1: one read, one write. -/
theorem test_inc_wraps :
    ran (start [0xE6, 0x10] base [(0x0010, 0xFF)])
      = some ({ withP 0x36 with pc := 0x2002 }, 5, [.fetch 0x2000, .read 0x2001, .read 0x0010, .write 0x0010 0x00])
    ∧ bytesAfter (start [0xE6, 0x10] base [(0x0010, 0xFF)]) [0x0010]
      = some [0x00] := by decide +kernel

/-- ID-2. -/
theorem test_dec_wraps :
    ran (start [0xC6, 0x10] base [])
      = some ({ withP 0xB4 with pc := 0x2002 }, 5, [.fetch 0x2000, .read 0x2001, .read 0x0010, .write 0x0010 0xFF])
    ∧ bytesAfter (start [0xC6, 0x10] base []) [0x0010]
      = some [0xFF] := by decide +kernel

/-- ID-3: no penalty. -/
theorem test_dec_abx :
    ran (start [0xDE, 0x00, 0x30] { base with x := 0x05 } [(0x3005, 0x01)])
      = some ({ withP 0x36 with x := 0x05, pc := 0x2003 }, 7, [.fetch 0x2000, .read 0x2001, .read 0x2002, .read 0x3005, .write 0x3005 0x00])
    ∧ bytesAfter (start [0xDE, 0x00, 0x30] { base with x := 0x05 } [(0x3005, 0x01)]) [0x3005]
      = some [0x00] := by decide +kernel

/-- ID-4. -/
theorem test_inx_wraps :
    ran (start [0xE8] { base with x := 0xFF } [])
      = some ({ withP 0x36 with x := 0x00, pc := 0x2001 }, 2, [.fetch 0x2000]) := by decide +kernel

/-- ID-6: V unchanged. -/
theorem test_iny :
    ran (start [0xC8] { base with y := 0x7F } [])
      = some ({ withP 0xB4 with y := 0x80, pc := 0x2001 }, 2, [.fetch 0x2000]) := by decide +kernel

/-- ID-7. -/
theorem test_dex :
    ran (start [0xCA] { base with x := 0x01 } [])
      = some ({ withP 0x36 with x := 0x00, pc := 0x2001 }, 2, [.fetch 0x2000]) := by decide +kernel

/-- ID-5. -/
theorem test_dey_wraps :
    ran (start [0x88] base [])
      = some ({ withP 0xB4 with y := 0xFF, pc := 0x2001 }, 2, [.fetch 0x2000]) := by decide +kernel

/-! ## Logic and shifts -/

/-- LG-1. -/
theorem test_and :
    ran (start [0x29, 0x0F] { base with a := 0xF0 } [])
      = some ({ withP 0x36 with a := 0x00, pc := 0x2002 }, 2, [.fetch 0x2000, .read 0x2001]) := by decide +kernel

/-- LG-2. -/
theorem test_ora :
    ran (start [0x09, 0x80] { base with a := 0x01 } [])
      = some ({ withP 0xB4 with a := 0x81, pc := 0x2002 }, 2, [.fetch 0x2000, .read 0x2001]) := by decide +kernel

/-- LG-4. -/
theorem test_eor :
    ran (start [0x49, 0xFF] { base with a := 0x0F } [])
      = some ({ withP 0xB4 with a := 0xF0, pc := 0x2002 }, 2, [.fetch 0x2000, .read 0x2001]) := by decide +kernel

/-- BT-1: A unchanged, N and V from memory bits 7 and 6. -/
theorem test_bit_sets :
    ran (start [0x24, 0x10] base [(0x0010, 0xC0)])
      = some ({ withP 0xF6 with pc := 0x2002 }, 3, [.fetch 0x2000, .read 0x2001, .read 0x0010]) := by decide +kernel

/-- BT-2. -/
theorem test_bit_clears :
    ran (start [0x2C, 0x00, 0x30] { base with a := 0x01, n := true, v := true } [(0x3000, 0x3F)])
      = some ({ withP 0x34 with a := 0x01, pc := 0x2003 }, 4, [.fetch 0x2000, .read 0x2001, .read 0x2002, .read 0x3000]) := by decide +kernel

/-- SH-1. -/
theorem test_asl_acc :
    ran (start [0x0A] { base with a := 0x81 } [])
      = some ({ withP 0x35 with a := 0x02, pc := 0x2001 }, 2, [.fetch 0x2000]) := by decide +kernel

/-- SH-9: a page cross adds nothing. -/
theorem test_asl_abx :
    ran (start [0x1E, 0xFF, 0x30] { base with x := 0x01 } [(0x3100, 0x01)])
      = some ({ base with x := 0x01, pc := 0x2003 }, 7, [.fetch 0x2000, .read 0x2001, .read 0x2002, .read 0x3100, .write 0x3100 0x02])
    ∧ bytesAfter (start [0x1E, 0xFF, 0x30] { base with x := 0x01 } [(0x3100, 0x01)]) [0x3100]
      = some [0x02] := by decide +kernel

/-- SH-2. -/
theorem test_lsr_acc :
    ran (start [0x4A] { base with a := 0x01 } [])
      = some ({ withP 0x37 with a := 0x00, pc := 0x2001 }, 2, [.fetch 0x2000]) := by decide +kernel

/-- R265: N is 0. -/
theorem test_lsr_zp :
    ran (start [0x46, 0x10] { base with n := true } [(0x0010, 0x80)])
      = some ({ withP 0x34 with pc := 0x2002 }, 5, [.fetch 0x2000, .read 0x2001, .read 0x0010, .write 0x0010 0x40])
    ∧ bytesAfter (start [0x46, 0x10] { base with n := true } [(0x0010, 0x80)]) [0x0010]
      = some [0x40] := by decide +kernel

/-- SH-3: the bit shifted out goes to C. -/
theorem test_rol_out :
    ran (start [0x2A] { base with a := 0x80 } [])
      = some ({ withP 0x37 with a := 0x00, pc := 0x2001 }, 2, [.fetch 0x2000]) := by decide +kernel

/-- SH-4: the old C enters at bit 0. -/
theorem test_rol_in :
    ran (start [0x2A] { base with c := true } [])
      = some ({ withP 0x34 with a := 0x01, pc := 0x2001 }, 2, [.fetch 0x2000]) := by decide +kernel

/-- SH-6: the old C enters at bit 7. -/
theorem test_ror_in :
    ran (start [0x6A] { base with c := true } [])
      = some ({ withP 0xB4 with a := 0x80, pc := 0x2001 }, 2, [.fetch 0x2000]) := by decide +kernel

/-- SH-8. -/
theorem test_ror_abx :
    ran (start [0x7E, 0x00, 0x30] { base with x := 0x01, c := true } [(0x3001, 0x02)])
      = some ({ withP 0xB4 with x := 0x01, pc := 0x2003 }, 7, [.fetch 0x2000, .read 0x2001, .read 0x2002, .read 0x3001, .write 0x3001 0x81])
    ∧ bytesAfter (start [0x7E, 0x00, 0x30] { base with x := 0x01, c := true } [(0x3001, 0x02)]) [0x3001]
      = some [0x81] := by decide +kernel

/-! ## Control transfer -/

/-- BR-1. -/
theorem test_beq_taken :
    ran (start [0xF0, 0x05] { base with z := true } [])
      = some ({ base with z := true, pc := 0x2007 }, 3, [.fetch 0x2000, .read 0x2001]) := by decide +kernel

/-- BR-2. -/
theorem test_beq_not_taken :
    ran (start [0xF0, 0x05] base [])
      = some ({ base with pc := 0x2002 }, 2, [.fetch 0x2000, .read 0x2001]) := by decide +kernel

/-- BR-3. -/
theorem test_bne_self :
    ran (start [0xD0, 0xFE] base [])
      = some ({ base with pc := 0x2000 }, 3, [.fetch 0x2000, .read 0x2001]) := by decide +kernel

/-- BR-10 with the cycles of R152 (PCnext 0x0000 and target 0x0002 lie in one page; the row counts 4, log entry 13). -/
theorem test_bne_wraps :
    ran (start [0xD0, 0x02] { base with pc := 0xFFFE } [])
      = some ({ base with pc := 0x0002 }, 3, [.fetch 0xFFFE, .read 0xFFFF]) := by decide +kernel

/-- BR-4. -/
theorem test_bcc :
    ran (start [0x90, 0x7F] base [])
      = some ({ base with pc := 0x2081 }, 3, [.fetch 0x2000, .read 0x2001]) := by decide +kernel

/-- BR-5. -/
theorem test_bcs :
    ran (start [0xB0, 0x80] { base with c := true } [])
      = some ({ base with c := true, pc := 0x1F82 }, 4, [.fetch 0x2000, .read 0x2001]) := by decide +kernel

/-- BR-6. -/
theorem test_bpl :
    ran (start [0x10, 0x10] { base with pc := 0x20F0 } [])
      = some ({ base with pc := 0x2102 }, 4, [.fetch 0x20F0, .read 0x20F1]) := by decide +kernel

/-- BR-7. -/
theorem test_bmi :
    ran (start [0x30, 0xFC] { base with pc := 0x2100, n := true } [])
      = some ({ base with pc := 0x20FE, n := true }, 4, [.fetch 0x2100, .read 0x2101]) := by decide +kernel

/-- BR-8. -/
theorem test_bvs :
    ran (start [0x70, 0x02] { base with v := true } [])
      = some ({ base with v := true, pc := 0x2004 }, 3, [.fetch 0x2000, .read 0x2001]) := by decide +kernel

/-- BR-9. -/
theorem test_bvc :
    ran (start [0x50, 0x02] { base with v := true } [])
      = some ({ base with v := true, pc := 0x2002 }, 2, [.fetch 0x2000, .read 0x2001]) := by decide +kernel

/-- CT-1. -/
theorem test_jmp_abs :
    ran (start [0x4C, 0x34, 0x12] base [])
      = some ({ base with pc := 0x1234 }, 3, [.fetch 0x2000, .read 0x2001, .read 0x2002]) := by decide +kernel

/-- CT-2: the high byte comes from the same page. -/
theorem test_jmp_ind :
    ran (start [0x6C, 0xFF, 0x12] base [(0x12FF, 0x78), (0x1200, 0x56), (0x1300, 0x99)])
      = some ({ base with pc := 0x5678 }, 5, [.fetch 0x2000, .read 0x2001, .read 0x2002, .read 0x12FF, .read 0x1200]) := by decide +kernel

/-- L1-2 as corrected by C5. -/
theorem test_jsr :
    ran (start [0x20, 0x00, 0x30] base [])
      = some ({ base with sp := 0xFB, pc := 0x3000 }, 6, [.fetch 0x2000, .read 0x2001, .read 0x2002, .write 0x01FD 0x20, .write 0x01FC 0x02])
    ∧ bytesAfter (start [0x20, 0x00, 0x30] base []) [0x01FD, 0x01FC]
      = some [0x20, 0x02] := by decide +kernel

/-- CT-4: SP wraps within page 1. -/
theorem test_jsr_wraps :
    ran (start [0x20, 0x00, 0x30] { base with sp := 0x00 } [])
      = some ({ base with sp := 0xFE, pc := 0x3000 }, 6, [.fetch 0x2000, .read 0x2001, .read 0x2002, .write 0x0100 0x20, .write 0x01FF 0x02]) := by decide +kernel

/-- CT-5. -/
theorem test_rts_pc_wraps :
    ran (start [0x60] base [(0x01FE, 0xFF), (0x01FF, 0xFF)])
      = some ({ base with sp := 0xFF, pc := 0x0000 }, 6, [.fetch 0x2000, .read 0x01FE, .read 0x01FF]) := by decide +kernel

/-- CT-6. -/
theorem test_rts_sp_wraps :
    ran (start [0x60] { base with sp := 0xFF } [(0x0100, 0x02), (0x0101, 0x30)])
      = some ({ base with sp := 0x01, pc := 0x3003 }, 6, [.fetch 0x2000, .read 0x0100, .read 0x0101]) := by decide +kernel

/-- CT-7: the byte after BRK is not read; D stays. -/
theorem test_brk :
    ran (start [0x00, 0xAA] { base with c := true, d := true, i := false } [(0xFFFF, 0x90)])
      = some ({ withP 0x3D with sp := 0xFA, pc := 0x9000 }, 7, [.fetch 0x2000, .write 0x01FD 0x20, .write 0x01FC 0x02, .write 0x01FB 0x39, .read 0xFFFE, .read 0xFFFF])
    ∧ bytesAfter (start [0x00, 0xAA] { base with c := true, d := true, i := false } [(0xFFFF, 0x90)]) [0x01FD, 0x01FC, 0x01FB]
      = some [0x20, 0x02, 0x39] := by decide +kernel

/-- CT-9: no increment. -/
theorem test_rti_clears :
    ran (start [0x40] { base with sp := 0xFA } [(0x01FC, 0x34), (0x01FD, 0x12)])
      = some ({ withP 0x30 with pc := 0x1234 }, 6, [.fetch 0x2000, .read 0x01FB, .read 0x01FC, .read 0x01FD]) := by decide +kernel

/-- CT-10: bits 5 and 4 of the pulled byte are discarded. -/
theorem test_rti_sets :
    ran (start [0x40] { base with sp := 0xFA } [(0x01FB, 0xFF), (0x01FC, 0x34), (0x01FD, 0x12)])
      = some ({ withP 0xFF with pc := 0x1234 }, 6, [.fetch 0x2000, .read 0x01FB, .read 0x01FC, .read 0x01FD]) := by decide +kernel

/-- CT-11. -/
theorem test_nop :
    ran (start [0xEA] { base with a := 0x12 } [])
      = some ({ base with a := 0x12, pc := 0x2001 }, 2, [.fetch 0x2000]) := by decide +kernel

/-- IL-4: the operand byte is not consumed. -/
theorem test_illegal :
    ran (start [0x80, 0xAA, 0xBB] { base with a := 0x11, x := 0x22, y := 0x33, c := true } [])
      = some ({ base with a := 0x11, x := 0x22, y := 0x33, c := true, pc := 0x2001 }, 1, [.fetch 0x2000]) := by decide +kernel

/-- IL-3: PC wraps, and the one event carries the address and the byte. -/
theorem test_illegal_event :
    (stepped (start [0x02, 0xAA, 0xBB] { base with pc := 0xFFFF } [])).map (fun t => (t.file.pc, t.out.illegal, t.cycles))
      = some (0x0000, [{ pc := 0xFFFF, op := 0x02 }], 1) := by decide +kernel

/-! ## Stack and flags -/

/-- ST-2. -/
theorem test_pha_wraps :
    ran (start [0x48] { base with a := 0x5A, sp := 0x00 } [])
      = some ({ base with a := 0x5A, sp := 0xFF, pc := 0x2001 }, 3, [.fetch 0x2000, .write 0x0100 0x5A])
    ∧ bytesAfter (start [0x48] { base with a := 0x5A, sp := 0x00 } []) [0x0100]
      = some [0x5A] := by decide +kernel

/-- ST-5: B and U are pushed as 1. -/
theorem test_php_clear :
    ran (start [0x08] { base with i := false } [])
      = some ({ base with i := false, sp := 0xFC, pc := 0x2001 }, 3, [.fetch 0x2000, .write 0x01FD 0x30])
    ∧ bytesAfter (start [0x08] { base with i := false } []) [0x01FD]
      = some [0x30] := by decide +kernel

/-- ST-6. -/
theorem test_php_set :
    ran (start [0x08] (withP 0xFF) [])
      = some ({ withP 0xFF with sp := 0xFC, pc := 0x2001 }, 3, [.fetch 0x2000, .write 0x01FD 0xFF]) := by decide +kernel

/-- ST-3. -/
theorem test_pla_wraps :
    ran (start [0x68] { base with sp := 0xFF } [(0x0100, 0x80)])
      = some ({ withP 0xB4 with a := 0x80, sp := 0x00, pc := 0x2001 }, 4, [.fetch 0x2000, .read 0x0100]) := by decide +kernel

/-- ST-4. -/
theorem test_pla_zero :
    ran (start [0x68] { base with a := 0x44 } [])
      = some ({ withP 0x36 with a := 0x00, sp := 0xFE, pc := 0x2001 }, 4, [.fetch 0x2000, .read 0x01FE]) := by decide +kernel

/-- ST-7. -/
theorem test_plp_clear :
    ran (start [0x28] { base with n := true, v := true, c := true } [])
      = some ({ withP 0x30 with sp := 0xFE, pc := 0x2001 }, 4, [.fetch 0x2000, .read 0x01FE]) := by decide +kernel

/-- ST-8. -/
theorem test_plp_set :
    ran (start [0x28] base [(0x01FE, 0xFF)])
      = some ({ withP 0xFF with sp := 0xFE, pc := 0x2001 }, 4, [.fetch 0x2000, .read 0x01FE]) := by decide +kernel

/-- FL-1. -/
theorem test_clc :
    ran (start [0x18] { base with c := true, i := true, d := true, v := true } [])
      = some ({ base with c := false, i := true, d := true, v := true, pc := 0x2001 }, 2, [.fetch 0x2000]) := by decide +kernel

/-- FL-2. -/
theorem test_sec :
    ran (start [0x38] { base with c := false, i := false, d := false, v := true } [])
      = some ({ base with c := true, i := false, d := false, v := true, pc := 0x2001 }, 2, [.fetch 0x2000]) := by decide +kernel

/-- FL-3. -/
theorem test_cli :
    ran (start [0x58] { base with c := true, i := true, d := true, v := true } [])
      = some ({ base with c := true, i := false, d := true, v := true, pc := 0x2001 }, 2, [.fetch 0x2000]) := by decide +kernel

/-- FL-4. -/
theorem test_sei :
    ran (start [0x78] { base with c := false, i := false, d := false, v := true } [])
      = some ({ base with c := false, i := true, d := false, v := true, pc := 0x2001 }, 2, [.fetch 0x2000]) := by decide +kernel

/-- FL-5. -/
theorem test_cld :
    ran (start [0xD8] { base with c := true, i := true, d := true, v := true } [])
      = some ({ base with c := true, i := true, d := false, v := true, pc := 0x2001 }, 2, [.fetch 0x2000]) := by decide +kernel

/-- FL-6. -/
theorem test_sed :
    ran (start [0xF8] { base with c := false, i := false, d := false, v := true } [])
      = some ({ base with c := false, i := false, d := true, v := true, pc := 0x2001 }, 2, [.fetch 0x2000]) := by decide +kernel

/-- FL-7. -/
theorem test_clv :
    ran (start [0xB8] { base with c := true, i := true, d := true, v := true } [])
      = some ({ base with c := true, i := true, d := true, v := false, pc := 0x2001 }, 2, [.fetch 0x2000]) := by decide +kernel

/-! ## Hooks: the host's moves stand in `State.host` -/

/-- LDA $5000 at 0x2000 with [5000] = 11. -/
def ldaAt5000 : State :=
  start [0xAD, 0x00, 0x50] base [(0x5000, 0x11)]

/-- HK-1: the first override wins, later hooks are not called, storage does not change. -/
theorem test_hook_first_override :
    (stepped (hooked ldaAt5000
      [⟨0, .addr 0x5000, .preRead, 1⟩, ⟨1, .range 0x4000 0x5FFF, .preRead, 2⟩, ⟨2, .range 0x5000 0x5000, .preRead, 3⟩]
      [.answer .noOverride, .answer (.override 0x07)])).map
        (fun t => (t.file.a, t.out.consumed, t.mem.read 0x5000, t.out.calls.map fun c => (c.callback, c.value)))
      = some (0x07, 4, 0x11, [(1, 0x11), (2, 0x11)]) := by decide +kernel

/-- HK-2: the fall-through byte is read after the callback, and the nested write is no CPU access. -/
theorem test_hook_fall_through :
    (stepped (hooked ldaAt5000 [⟨0, .addr 0x5000, .preRead, 1⟩] [.write 0x5000 0x66, .answer .noOverride])).map
        (fun t => (t.file.a, t.mem.read 0x5000, t.out.accesses))
      = some (0x66, 0x66, [.fetch 0x2000, .read 0x2001, .read 0x2002, .read 0x5000]) := by decide +kernel

/-- HK-3: a post_write callback sees the committed byte and the snapshot of the step's start; its override is ignored. -/
theorem test_hook_post_write :
    (stepped (hooked (start [0x8D, 0x00, 0xFE] { base with a := 0x48 } []) [⟨0, .addr 0xFE00, .postWrite, 1⟩]
      [.answer (.override 0x99)])).map (fun t => (t.mem.read 0xFE00, t.file.a, t.out.calls))
      = some (0x48, 0x48, [⟨1, 0xFE00, 0x48, ⟨0x48, 0x00, 0x00, 0xFD, 0x2000, 0x34⟩⟩]) := by decide +kernel

/-- HK-4: a pre_execute override is the opcode executed; storage does not change. -/
theorem test_hook_execute_nop :
    (stepped (hooked (start [0x00] base []) [⟨0, .addr 0x2000, .preExecute, 1⟩] [.answer (.override 0xEA)])).map
        (fun t => (t.file, t.out.consumed, t.mem.read 0x2000))
      = some ({ base with pc := 0x2001 }, 2, 0x00) := by decide +kernel

/-- HK-5: the operand of an overridden opcode comes from memory. -/
theorem test_hook_execute_lda :
    ran (hooked (start [0xEA, 0x77] base []) [⟨0, .addr 0x2000, .preExecute, 1⟩] [.answer (.override 0xA9)])
      = some ({ base with a := 0x77, pc := 0x2002 }, 2, [.fetch 0x2000, .read 0x2001]) := by decide +kernel

/-- HK-6: a failing pre_execute callback faults the step before there is an opcode. -/
theorem test_hook_execute_fails :
    (stepped (hooked (start [0xA9, 0x77] { base with a := 0x05 } []) [⟨7, .addr 0x2000, .preExecute, 1⟩]
      [.answer .failed])).map (fun t => (t.status, t.file, t.cycles))
      = some (.faulted { handle := 7, address := 0x2000, kind := .preExecute, pc0 := some 0x2000, opcode := none },
          { base with a := 0x05 }, 0) := by decide +kernel

/-- HK-7: a failing post_write callback in a JSR: registers and counter roll back, the pushed bytes stay. -/
theorem test_hook_push_fails :
    (stepped (hooked ({ start [0x20, 0x00, 0x30] base [] with cycles := 10 }) [⟨0, .addr 0x01FC, .postWrite, 1⟩]
      [.answer .failed])).map (fun t => (t.status, t.file, t.cycles, t.mem.read 0x01FD, t.mem.read 0x01FC))
      = some (.faulted { handle := 0, address := 0x01FC, kind := .postWrite, pc0 := some 0x2000, opcode := some 0x20 },
          base, 10, 0x20, 0x02) := by decide +kernel

/-- HK-8, first step: an AnyExecute hook sees the opcode fetch alone, a pre_read hook the operand read alone. -/
theorem test_hook_kinds :
    (stepped (hooked (start [0xA9, 0x01] base [])
      [⟨0, .anyExecute, .preExecute, 1⟩, ⟨1, .range 0x2000 0x20FF, .preRead, 2⟩]
      [.answer .noOverride, .answer .noOverride])).map
        (fun t => (t.file.a, t.out.calls.map fun c => (c.callback, c.address)))
      = some (0x01, [(1, 0x2000), (2, 0x2001)]) := by decide +kernel

/-- HK-10: INC works on the override and writes one more. -/
theorem test_hook_read_modify_write :
    (stepped (hooked (start [0xE6, 0x10] base [(0x0010, 0x05)]) [⟨0, .addr 0x0010, .preRead, 1⟩]
      [.answer (.override 0x20)])).map (fun t => (t.mem.read 0x0010, t.out.accesses))
      = some (0x21, [.fetch 0x2000, .read 0x2001, .read 0x0010, .write 0x0010 0x21]) := by decide +kernel

/-- HK-11: an address outside the space raises AddressError. -/
theorem test_host_address_error :
    hostRead 0x10000 (start [] base []) = .addressError 0x10000 (start [] base [])
    ∧ registerHook (.addr 0x10000) .preRead 0 (start [] base []) = .addressError 0x10000 (start [] base []) := by decide +kernel

/-- HK-12: the host's read gives the override; storage does not change. -/
theorem test_host_read_override :
    (match hostRead 0x5000 (hooked ldaAt5000 [⟨0, .addr 0x5000, .preRead, 1⟩] [.answer (.override 0x42)]) with
      | .returned v t => some (v, t.mem.read 0x5000)
      | .addressError _ _ | .executionFault _ _ | .notAdmitted => none) = some (0x42, 0x11) := by decide +kernel

/-- R55: both ends of a range are in the dispatch list, the addresses beside it are not. -/
theorem test_range_ends :
    [0x00FF, 0x0100, 0x01FF, 0x0200].map (fun a =>
      ((hooked ldaAt5000 [⟨3, .range 0x0100 0x01FF, .postWrite, 1⟩] []).dispatchList .postWrite a).length)
      = [0, 1, 1, 0] := by decide +kernel

/-- R71, R419: what calls made in a callback give back to it: a byte, nothing, a handle, the registers of the step's start
(PC 0x2000, SP 0xFD, P 0x34), the cycle counter, an AddressError, nothing. -/
theorem test_nested_replies :
    (stepped (hooked ldaAt5000 [⟨0, .addr 0x5000, .preRead, 1⟩]
      [.read 0x2002, .write 0x1000 0x07, .register (.addr 0x3000) .preRead 9, .registerSnapshot,
        .cycleCount, .write 0x10000 0x100, .remove 1,
        .answer .noOverride])).map (fun t => (t.file.a, t.mem.read 0x1000, t.out.replies))
      = some (0x11, 0x07, [.byte 0x50, .done, .handle 1, .snapshot ⟨0x00, 0x00, 0x00, 0xFD, 0x2000, 0x34⟩, .count 0,
          .addressError 0x10000, .done]) := by decide +kernel

/-- R67, R419: a failing nested access gives its callback ExecutionFault; the step reports the nested hook (log entry 7). -/
theorem test_nested_fault_reply :
    (stepped (hooked ldaAt5000 [⟨0, .addr 0x5000, .preRead, 1⟩, ⟨1, .addr 0x6000, .postWrite, 2⟩]
      [.write 0x6000 0x07, .answer .failed])).map (fun t => (t.status, t.mem.read 0x6000, t.out.replies))
      = some (.faulted { handle := 1, address := 0x6000, kind := .postWrite, pc0 := some 0x2000, opcode := some 0xAD },
          0x07, [.executionFault 1 0x6000 .postWrite]) := by decide +kernel

/-- R51 with log entry 17: a write with both out of range raises AddressError; with the byte alone, it has no move. -/
theorem test_host_write_out_of_range :
    hostWrite 0x10000 0x100 (start [] base []) = .addressError 0x10000 (start [] base [])
    ∧ hostWrite 0xFFFF 0x100 (start [] base []) = .notAdmitted := by decide +kernel

/-- R411 with log entry 18: a host read that fails in status Faulted is an ExecutionFault; the first record stays. -/
theorem test_fault_record_stays :
    (match hostRead 0x5000 { hooked ldaAt5000 [⟨0, .addr 0x5000, .preRead, 1⟩] [.answer .failed] with
        status := .faulted ⟨7, 0x2000, .preExecute, some 0x2000, none⟩ } with
      | .executionFault info t => some (info, t.status)
      | .returned _ _ | .addressError _ _ | .notAdmitted => none)
      = some (⟨0, 0x5000, .preRead, none, none⟩, .faulted ⟨7, 0x2000, .preExecute, some 0x2000, none⟩) := by decide +kernel

/-- R57, R58, D26: a hook registered by a callback is called from the next access on, not in this one. -/
theorem test_hook_registered_in_callback :
    (stepped (hooked ldaAt5000 [⟨0, .addr 0x2001, .preRead, 1⟩]
      [.register (.range 0x2001 0x2002) .preRead 9, .answer .noOverride, .answer .noOverride])).map
        (fun t => (t.out.calls.map fun c => (c.callback, c.address), t.hooks.map fun h => h.handle))
      = some ([(1, 0x2001), (9, 0x2002)], [0, 1]) := by decide +kernel

/-! ## Reset -/

/-- RS-1. -/
theorem test_reset :
    resetCall Config.resetDefaults { State.constructed with mem := poke [] [(0xFFFD, 0x80)] }
      = .returned () { State.reset with file := { base with pc := 0x8000 }, pend := { base with pc := 0x8000 },
                                        mem := poke [] [(0xFFFD, 0x80)] } := by decide +kernel

/-- RS-2: the vector may come from a hook, which is passed the pending registers with PC at the vector. -/
theorem test_reset_hooked :
    (match resetCall Config.resetDefaults (hooked { State.constructed with mem := poke [] [(0xFFFD, 0xC0)] }
        [⟨0, .addr 0xFFFC, .preRead, 1⟩] [.answer (.override 0x34)]) with
      | .returned _ t => some (t.file.pc, t.out.calls.map fun c => c.snapshot)
      | .addressError _ _ | .executionFault _ _ | .notAdmitted => none)
      = some (0xC034, [{ a := 0x00, x := 0x00, y := 0x00, sp := 0xFD, pc := 0xFFFC, p := 0x34 }]) := by decide +kernel

/-- RS-3: a failing vector hook faults the block, which then admits neither step nor reset. -/
theorem test_reset_fails :
    (match resetCall Config.resetDefaults (hooked State.constructed [⟨0, .addr 0xFFFD, .preRead, 1⟩]
        [.answer .failed]) with
      | .executionFault _ t => decide (t.status ≠ .running) && (stepped t).isNone
          && decide (resetCall Config.resetDefaults t = .notAdmitted)
      | .returned _ _ | .addressError _ _ | .notAdmitted => false) = true := by decide +kernel

/-- RS-4: the counter goes back to 0, memory stays. -/
theorem test_reset_again :
    (match resetCall Config.resetDefaults { start [] base [(0xFFFC, 0x34), (0xFFFD, 0x12)] with cycles := 118 } with
      | .returned _ t => some (t.file, t.cycles, t.mem.read 0xFFFC)
      | .addressError _ _ | .executionFault _ _ | .notAdmitted => none)
      = some ({ base with pc := 0x1234 }, 0, 0x34) := by decide +kernel

/-- R419, R460: an image loads before the first step, up to the top of memory, and not after it. -/
theorem test_load_image :
    (match loadImage 0xFFFE [0x34, 0x12] (start [] base []) with
      | .returned _ t => some (t.mem.read 0xFFFE, t.mem.read 0xFFFF)
      | .addressError _ _ | .executionFault _ _ | .notAdmitted => none) = some (0x34, 0x12)
    ∧ (stepped ldaAt5000).map (fun t => decide (loadImage 0xFFFE [0x34] t = .notAdmitted)) = some true := by decide +kernel

/-- Log entry 22: an image that runs past 0xFFFF raises AddressError there, and the bytes before stay. -/
theorem test_load_image_past_the_top :
    (match loadImage 0xFFFF [0x34, 0x12] (start [] base []) with
      | .addressError a t => some (a, t.mem.read 0xFFFF, t.mem.read 0x0000)
      | .returned _ _ | .executionFault _ _ | .notAdmitted => none) = some (0x10000, 0x34, 0x00) := by decide +kernel

/-- withFetchWord places a row's bytes where the next step fetches them. -/
theorem test_withFetchWord :
    ran (State.reset.withFetchWord 24 0x12344C)
      = some ({ base with pc := 0x1234 }, 3, [.fetch 0x0000, .read 0x0001, .read 0x0002]) := by decide +kernel

/-! ## Witnesses of the obligations' hypotheses -/

/-- A Running state whose memory, registers and flags are not those of reset. -/
def busy : State :=
  start [0x6D, 0xFF, 0x02] { base with a := 0x80, x := 0xFF, y := 0x01, sp := 0x00, c := true, v := true, d := true }
    [(0x02FF, 0x99), (0xFFFC, 0x34), (0xFFFF, 0x90), (0x0100, 0x30)]

/-- The same with three hooks registered, no host move left. -/
def busyHooked : State :=
  hooked busy [⟨0, .addr 0x02FF, .preRead, 1⟩, ⟨1, .anyExecute, .preExecute, 2⟩, ⟨2, .range 0x0100 0x01FF, .postWrite, 3⟩] []

/-- The same with three hooks of each kind that match 0x02FF. -/
def crowded (host : List HostMove) : State :=
  hooked busy [⟨0, .addr 0x02FF, .preRead, 1⟩, ⟨1, .anyExecute, .preExecute, 2⟩, ⟨2, .addr 0x02FF, .postWrite, 3⟩,
    ⟨3, .range 0 65535, .preRead, 4⟩, ⟨4, .addr 0x02FF, .preExecute, 5⟩, ⟨5, .range 0x02FF 0x02FF, .postWrite, 6⟩,
    ⟨6, .addr 0x02FF, .preRead, 7⟩, ⟨7, .anyExecute, .preExecute, 8⟩, ⟨8, .addr 0x02FF, .postWrite, 9⟩] host

theorem witness_DecodeInvertsEncode :
    (Instr.lda (.mem (.abx 0xFFFF))).wf = true ∧ (Instr.illegal 0xFF).wf = true ∧ (Instr.brk).wf = true := by decide +kernel

theorem witness_EncodeInvertsDecode :
    (match decodeBytes [0x6C, 0xFF, 0x12, 0x00] with | .ok (i, r) => i == .jmp (.ind 0x12FF) && r == [0x00] | .error _ => false)
      = true := by decide +kernel

theorem witness_EveryOpcodeByteDecodes :
    (lookup 0x4C).operandBytes ≤ [0x00, (0x00 : Byte)].length ∧ (lookup 0xFF).operandBytes ≤ ([] : List Byte).length := by
  decide +kernel

theorem witness_OpcodeMapIsUnambiguous :
    (lookup 0xA9).operation ≠ .illegal ∧ (lookup 0xA9).operation = (lookup 0xA5).operation
      ∧ (lookup 0xA9).mode ≠ (lookup 0xA5).mode ∧ (0x02 : Byte) ∈ illegalBytes ∧ (0xFF : Byte) ∈ illegalBytes := by decide +kernel

theorem witness_CyclesFollowTheClassTable :
    (Instr.ror (.mem (.abx 0x00FF))).wf = true ∧ (Instr.bvs 0x80).wf = true := by decide +kernel

theorem witness_CanonicalMemoriesAreDeterminedByReads :
    Memory.wf [(0x0000, 0x01), (0xFFFF, 0xFF)] = true ∧ Memory.wf [] = true := by decide +kernel

theorem witness_StepRunsDecodedInstruction :
    busy.status = .running ∧ busy.Quiet
      ∧ (match decodeBytes busy.bytesAtPc with
          | .ok (i, r) => i == .adc (.mem (.abs 0x02FF)) && r == []
          | .error _ => false) = true := by decide +kernel

theorem witness_StepStopsUnlessRunning :
    State.constructed.status = .unreset
      ∧ ({ busy with status := .faulted ⟨0, 0, .preRead, none, none⟩ } : State).status = .faulted ⟨0, 0, .preRead, none, none⟩ :=
  ⟨rfl, rfl⟩

theorem witness_FetchedInstructionsAreWellFormed :
    answers (fetchInstr (hooked busy [⟨0, .anyExecute, .preExecute, 2⟩] [.answer (.override 0x02)])) = true := by decide +kernel

theorem witness_RunningStepAlwaysAnswers :
    (hooked busyHooked busyHooked.hooks [.write 0x10000 0x100, .answer .failed]).status = .running
      ∧ (hooked busyHooked busyHooked.hooks [.write 0x10000 0x100, .answer .failed]).HostAdmitted := by decide +kernel

/-- A step that faults before it has an opcode, one that faults with one, and a host read, a host write and a reset that
do, from a Running and from a Faulted state. -/
theorem witness_FaultsKeepRegistersAndCounter :
    busyHooked.status = .running
      ∧ (stepped (hooked busyHooked busyHooked.hooks [.answer .failed])).map (fun t => t.status)
        = some (.faulted { handle := 1, address := 0x2000, kind := .preExecute, pc0 := some 0x2000, opcode := none })
      ∧ (stepped (hooked busyHooked busyHooked.hooks [.answer .noOverride, .answer .failed])).map (fun t => t.status)
        = some (.faulted { handle := 0, address := 0x02FF, kind := .preRead, pc0 := some 0x2000, opcode := some 0x6D })
      ∧ (∀ m ∈ [HostMove.answer .noOverride, .answer .failed], m.touchesRegistry = false)
      ∧ faults (hostRead 0x02FF (crowded [.answer .failed])) = true
      ∧ faults (hostWrite 0x02FF 0xFF (crowded [.answer .failed])) = true
      ∧ faults (resetCall Config.resetDefaults (crowded [.answer .failed])) = true
      ∧ faults (hostRead 0x02FF { crowded [.answer .failed] with
          status := .faulted ⟨0, 0, .preRead, none, none⟩ }) = true := by
  decide +kernel

theorem witness_CompletedStepAddsItsCycles :
    busy.status = .running ∧ (stepped busy).map (fun t => t.status) = some .running := by decide +kernel

theorem witness_StepKeepsInvariant :
    (hooked busyHooked busyHooked.hooks [.answer .failed]).Inv
      ∧ (stepped (hooked busyHooked busyHooked.hooks [.answer .failed])).isSome = true := by decide +kernel

/-- Every call where it returns, at the ends of its arguments' ranges; a read that raises AddressError; a read, a write, a
load and a reset that raise ExecutionFault. -/
theorem witness_HostCallsKeepInvariant :
    busy.Inv ∧ ([.read 0xFFFF, .write 0xFFFF 0xFF, .loadImage 0xFFFF [0xFF], .registerHook (.range 0xFFFF 0xFFFF) .postWrite 5,
      .removeHook 3, .applySnapshot ⟨255, 255, 255, 255, 65535, 255⟩, .reset Config.resetDefaults, .read 0x10000]
        : List HostCall).all (fun c => (c.leaves? busy).isSome) = true
      ∧ (crowded [.answer .failed]).Inv
      ∧ ([.read 0x02FF, .write 0x02FF 0xFF, .loadImage 0x02FF [0xFF], .reset Config.resetDefaults] : List HostCall).all
        (fun c => match c.leaves? (crowded [.answer .failed]) with
          | some t => t.status != .running
          | none => false) = true := by decide +kernel

theorem witness_UnansweringHooksAreTransparent :
    (hooked busyHooked busyHooked.hooks (List.replicate 18 (.answer .noOverride))).status = .running
      ∧ (∀ m ∈ List.replicate 18 (HostMove.answer .noOverride), m = .answer .noOverride)
      ∧ 6 * busyHooked.hooks.length ≤ (List.replicate 18 (HostMove.answer .noOverride)).length := by decide +kernel

/-- NOP completes and is in no list of the obligation's clauses, whatever hooks are registered. -/
theorem witness_FlagsKeptUnlessNamed :
    busyHooked.status = .running ∧ (execed .nop busyHooked).map (fun t => t.status) = some .running
      ∧ (Instr.nop).operation ∉ ([.adc, .sbc, .sei, .cli, .sed, .cld, .clv, .plp, .rti] : List Operation)
      ∧ (execed (.lda (.imm 0x00)) busyHooked).map (fun t => t.status) = some .running := by decide +kernel

/-- INX completes: only X may change. ASL on memory keeps A. -/
theorem witness_RegistersKeptUnlessNamed :
    busyHooked.status = .running ∧ (execed .inx busyHooked).map (fun t => t.status) = some .running
      ∧ (execed (.asl (.mem (.zp 0x10))) busyHooked).map (fun t => t.status) = some .running
      ∧ (Instr.asl (.mem (.zp 0x10))).mode ≠ .acc := by decide +kernel

theorem witness_ReadersKeepMemory :
    commitsByte .rti = false ∧ commitsByte (.asl .acc) = false ∧ (execed .rti busyHooked).isSome = true
      ∧ (hooked busyHooked busyHooked.hooks [.answer .noOverride]).host = [.answer .noOverride] := by decide +kernel

/-- Every state with no host move left spares every address. -/
theorem witness_HostSpares (a : Addr) : busyHooked.HostSpares a := by
  intro v h
  simp [busyHooked, hooked] at h

theorem witness_StoresKeepOtherBytes :
    storeOperand? (.sta (.abx 0xFFFF)) = some (.abx 0xFFFF) ∧ storeOperand? (.ror (.mem (.zp 0x10))) = some (.zp 0x10)
      ∧ (execed (.sta (.abx 0xFFFF)) busyHooked).isSome = true
      ∧ (match effAddr (.abx 0xFFFF) busyHooked with | .ok (ea, _) _ => ea == 0x00FE | .error _ _ => false) = true := by
  decide +kernel

theorem witness_PushesKeepOtherBytes :
    (execed .pha busy).isSome = true ∧ (execed (.jsr 0x3000) busy).isSome = true ∧ (execed .brk busy).isSome = true
      ∧ (0x01FC : Addr) ≠ stackAddr busy.pend.sp ∧ (0x01FC : Addr) ≠ stackAddr (busy.pend.sp - 1)
      ∧ (0x01FC : Addr) ≠ stackAddr (busy.pend.sp - 2) ∧ (0x0101 : Addr) ≠ stackAddr busy.pend.sp := by decide +kernel

theorem witness_StepChangesNoHookItself :
    (stepped (hooked busyHooked busyHooked.hooks [.answer .noOverride, .answer (.override 0x01)])).isSome = true
      ∧ (∀ m ∈ [HostMove.answer .noOverride, .answer (.override 0x01)], m.touchesRegistry = false) := by decide +kernel

/-- For LoadsTakeTheirOperand, StoresWriteTheirRegister, AdcAndSbcUseTheAdder, ComparesSetFlagsOnly,
MemoryIncrementsWrap, LogicActsBitByBit and ShiftsMoveOneBit: well-formed forms at the ends of their operands' ranges,
in a state with no hook registered. -/
theorem witness_results_with_operands :
    busy.Quiet ∧ ([.lda (.imm 0xFF), .ldx (.mem (.zpy 0xFF)), .ldy (.mem (.abx 0xFFFF)), .sta (.izy 0xFF), .stx (.zpy 0xFF),
      .sty (.zpx 0xFF), .adc (.mem (.izx 0xFF)), .sbc (.mem (.aby 0xFFFF)), .cmp (.imm 0x80), .cpx (.mem (.zp 0xFF)),
      .cpy (.mem (.abs 0xFFFF)), .inc (.abx 0xFFFF), .dec (.zpx 0xFF)] : List Instr).all (fun i => i.wf) = true
    ∧ ([.and (.mem (.izy 0xFF)), .ora (.imm 0x00), .eor (.mem (.aby 0xFFFF)), .bit (.abs 0xFFFF), .asl (.mem (.abx 0xFFFF)),
      .lsr (.mem (.zp 0x00)), .rol (.mem (.zpx 0xFF)), .ror (.mem (.abs 0x0000))] : List Instr).all (fun i => i.wf)
      = true := by decide +kernel

/-- Both values of D, for ADC and SBC. -/
theorem witness_AdcAndSbcUseTheAdder :
    busy.pend.d = true ∧ (start [] base []).pend.d = false ∧ (start [] base []).Quiet
      ∧ (Instr.adc (.imm 0x99)).wf = true ∧ (Instr.sbc (.imm 0x99)).wf = true := by decide +kernel

/-- Decimal operands at both ends of their range, and one that is not decimal. -/
theorem witness_DecimalAdditionFollowsItsRule : isBcd 0x00 ∧ isBcd 0x99 ∧ ¬ isBcd 0x9A := by decide +kernel

theorem witness_DecimalSubtractionFollowsItsRule : isBcd 0x00 ∧ isBcd 0x99 ∧ ¬ isBcd 0xA0 := by decide +kernel

theorem witness_LogicActsBitByBit :
    busy.Quiet ∧ ReadMode.mem (.zp 0xFF) = .mem (.zp 0xFF) ∧ (Instr.bit (.zp 0xFF)).wf = true := by decide +kernel

/-- `Quiet` alone, for JumpsGoToTheirTarget, CallsAndReturnsUseTheStack, BreakTakesTheTrap,
ReturnFromBreakPullsStatusAndAddress and PushesAndPullsMoveOneByte. -/
theorem witness_quiet : busy.Quiet ∧ State.reset.Quiet := by decide +kernel

theorem witness_NopAndIllegalChangeNothing :
    (Instr.illegal 0x02).wf = true ∧ (Instr.illegal 0xFF).wf = true := by decide +kernel

/-- Each push completes, and the return or pull after it runs. -/
theorem witness_ReturnsAndPullsUndoTheirPush :
    busy.Quiet
      ∧ ((execed (.jsr 0x3000) busy).bind fun t => execed .rts (t.fetched 1)).map (fun u => (u.file.pc, u.file.sp))
        = some (0x2003, 0x00)
      ∧ ((execed .brk busy).bind fun t => execed .rti (t.fetched 1)).map (fun u => (u.file.pc, u.file.sp))
        = some (0x2002, 0x00)
      ∧ ((execed .php busy).bind fun t => execed .plp (t.fetched 1)).map (fun u => (u.file.pc, u.file.sp))
        = some (0x2001, 0x00) := by decide +kernel

/-- Each trigger form at the ends of what it matches, and just outside. -/
theorem witness_DispatchListHoldsTheMatchingHooks :
    (busyHooked.dispatchList .preRead 0x02FF).length = 1 ∧ (busyHooked.dispatchList .preRead 0x02FE).length = 0
      ∧ (busyHooked.dispatchList .postWrite 0x0100).length = 1 ∧ (busyHooked.dispatchList .postWrite 0x01FF).length = 1
      ∧ (busyHooked.dispatchList .postWrite 0x00FF).length = 0 ∧ (busyHooked.dispatchList .postWrite 0x0200).length = 0
      ∧ (busyHooked.dispatchList .preExecute 0x0000).length = 1
      ∧ (busyHooked.dispatchList .preExecute 0xFFFF).length = 1 := by decide +kernel

/-- An override at each end of the byte range, for a read and for a fetch, with a hook before it and one after it. -/
theorem witness_FirstOverrideIsTheByteRead :
    0 < 256 ∧ 255 < 256
      ∧ (crowded []).dispatchList .preRead 0x02FF = [⟨0, .addr 0x02FF, .preRead, 1⟩]
        ++ ⟨3, .range 0 65535, .preRead, 4⟩ :: [⟨6, .addr 0x02FF, .preRead, 7⟩]
      ∧ (crowded []).dispatchList .preExecute 0x02FF = [⟨1, .anyExecute, .preExecute, 2⟩]
        ++ ⟨4, .addr 0x02FF, .preExecute, 5⟩ :: [⟨7, .anyExecute, .preExecute, 8⟩]
      ∧ (crowded [.answer .noOverride, .answer (.override 255)]).host
        = List.replicate 1 (.answer .noOverride) ++ .answer (.override 255) :: [] := by decide +kernel

/-- A failing callback with a hook before it and one after it, and the first value that is no byte. -/
theorem witness_FailedCallbackEndsTheAccess :
    256 ≤ 256
      ∧ (crowded []).dispatchList .preRead 0x02FF = [⟨0, .addr 0x02FF, .preRead, 1⟩]
        ++ ⟨3, .range 0 65535, .preRead, 4⟩ :: [⟨6, .addr 0x02FF, .preRead, 7⟩]
      ∧ (crowded []).dispatchList .preExecute 0x02FF = [⟨1, .anyExecute, .preExecute, 2⟩]
        ++ ⟨4, .addr 0x02FF, .preExecute, 5⟩ :: [⟨7, .anyExecute, .preExecute, 8⟩]
      ∧ (crowded []).dispatchList .postWrite 0x02FF = [⟨2, .addr 0x02FF, .postWrite, 3⟩]
        ++ ⟨5, .range 0x02FF 0x02FF, .postWrite, 6⟩ :: [⟨8, .addr 0x02FF, .postWrite, 9⟩]
      ∧ (crowded [.answer .noOverride, .answer .failed]).host
        = List.replicate 1 (.answer .noOverride) ++ .answer .failed :: [] := by decide +kernel

/-- Both ends: a write that completes and one whose callback fails. -/
theorem witness_WritesCommitWhateverHooksDo :
    answers (cpuWrite 0x01FF 0x5A (hooked busyHooked busyHooked.hooks [.answer .noOverride])) = true
      ∧ answers (cpuWrite 0x01FF 0x5A (hooked busyHooked busyHooked.hooks [.answer .failed])) = false := by decide +kernel

/-- Answers of each kind for the first part; enough answers None for the whole list for the second; a write that
completes. -/
theorem witness_DispatchCallsMatchingHooksInOrder :
    (∀ m ∈ (crowded [.answer .noOverride, .answer (.override 7), .answer .failed]).host, m.touchesRegistry = false)
      ∧ (∀ o, ∃ o', HostMove.answer o = .answer o')
      ∧ (∀ m ∈ (crowded (List.replicate 3 (.answer .noOverride))).host, m = .answer .noOverride)
      ∧ ((crowded []).dispatchList .preRead 0x02FF).length ≤ 3
      ∧ ((crowded []).dispatchList .preExecute 0x02FF).length ≤ 3
      ∧ answers (cpuWrite 0x02FF 0xFF (crowded (List.replicate 3 (.answer .noOverride)))) = true :=
  ⟨by decide +kernel, fun o => ⟨o, rfl⟩, by decide +kernel, by decide +kernel, by decide +kernel, by decide +kernel⟩

/-- One hook matches 0x02FF; each clause at the end of its range. -/
theorem witness_NestedCallsActAndReply :
    busyHooked.dispatchList .preRead 0x02FF = [⟨0, .addr 0x02FF, .preRead, 1⟩]
      ∧ busyHooked.dispatchList .postWrite 0x02FF = [] ∧ 255 < 256
      ∧ (hooked busyHooked busyHooked.hooks [.write 0x02FF 255, .answer .noOverride]).host
        = .write (0x02FF : Addr).toNat 255 :: .answer .noOverride :: []
      ∧ (0xFFFF : Addr) ≠ 0x02FF ∧ busyHooked.dispatchList .postWrite 0xFFFF = []
      ∧ HostMove.write 65535 0 = .write (0xFFFF : Addr).toNat 0
      ∧ busyHooked.dispatchList .preRead 0xFFFF = [] ∧ HostMove.read 65535 = .read (0xFFFF : Addr).toNat
      ∧ (Trigger.range 0xFFFF 0xFFFF).check .preRead = .ok ∧ Trigger.anyExecute.check .preExecute = .ok
      ∧ 65536 ≤ 65536 ∧ 65535 < 65536
      ∧ (hooked busyHooked busyHooked.hooks [.register (.range 65535 65536) .preRead 4, .answer .noOverride]).host
        = .register (.range 65535 65536) .preRead 4 :: .answer .noOverride :: [] := by decide +kernel

/-- Both statuses with no hook; and two vector hooks, of which the first answers None and the second overrides. -/
theorem witness_ResetLoadsTheVector :
    State.constructed.status = .unreset ∧ State.constructed.Quiet ∧ busy.status = .running ∧ busy.Quiet
      ∧ (let s := hooked busy [⟨0, .addr 0xFFFC, .preRead, 1⟩, ⟨1, .addr 0xFFFD, .preRead, 2⟩]
            [.answer .noOverride, .answer (.override 255)]
         s.status = .running
          ∧ ReadAnswered (s.dispatchList .preRead 0xFFFC) (s.mem.read 0xFFFC) [⟨0, .addr 0xFFFC, .preRead, 1⟩]
            [.answer .noOverride] 0x34
          ∧ ReadAnswered (s.dispatchList .preRead 0xFFFD) (s.mem.read 0xFFFD) [⟨1, .addr 0xFFFD, .preRead, 2⟩]
            [.answer (.override 255)] 0xFF
          ∧ s.host = [.answer .noOverride] ++ [.answer (.override 255)] ++ []) :=
  ⟨rfl, rfl, rfl, rfl, rfl, .fallThrough, .override [] _ [] 255 rfl (by decide), rfl⟩

theorem witness_ResetKeepsMemoryAndIsIdempotent :
    returns (resetCall Config.resetDefaults busy) = true ∧ busy.Quiet
      ∧ returns (resetCall Config.resetDefaults (hooked busy [⟨0, .addr 0xFFFC, .preRead, 1⟩] [.answer (.override 0)])) = true
      ∧ (∀ m ∈ [HostMove.answer (.override 0)], m.touchesRegistry = false) := by decide +kernel

/-- A record with every field at the top of its range. -/
theorem witness_SnapshotRestoresRegisters :
    State.constructed.status = .unreset ∧ busy.status = .running
      ∧ (let q : HostSnapshot := ⟨255, 255, 255, 255, 65535, 255⟩
         q.a < 256 ∧ q.x < 256 ∧ q.y < 256 ∧ q.sp < 256 ∧ q.pc < 65536 ∧ q.p < 256) := by decide +kernel

/-- Each clause at the first value outside its range; a Faulted state; a state after a step. -/
theorem witness_HostArgumentsAreChecked :
    65536 ≤ 65536 ∧ 65535 < 65536 ∧ 256 ≤ 256 ∧ 65534 < 65535 ∧ HookKind.preRead ≠ .preExecute
      ∧ HookKind.postWrite ≠ .preExecute ∧ 65536 ≤ (HostSnapshot.mk 0 0 0 0 65536 0).pc
      ∧ 256 ≤ (HostSnapshot.mk 0 0 0 0 0 256).p ∧ 256 ≤ (HostSnapshot.mk 256 0 0 0 0 0).a
      ∧ 256 ≤ (HostSnapshot.mk 0 256 0 0 0 0).x ∧ 256 ≤ (HostSnapshot.mk 0 0 256 0 0 0).y
      ∧ 256 ≤ (HostSnapshot.mk 0 0 0 256 0 0).sp
      ∧ (stepped (hooked busyHooked busyHooked.hooks [.answer .failed])).map (fun t => (t.begun, t.status))
        = some (true, .faulted { handle := 1, address := 0x2000, kind := .preExecute, pc0 := some 0x2000
                                 opcode := none }) := by decide +kernel

theorem witness_RegistrationAppendsAndRemoves :
    busyHooked.RegistryOk ∧ (Trigger.range 0x0000 0xFFFF).check .preRead = .ok
      ∧ Trigger.anyExecute.check .preExecute = .ok ∧ (Trigger.addr 0xFFFF).check .postWrite = .ok
      ∧ (∀ h ∈ busyHooked.hooks, h.handle ≠ 3)
      ∧ (stepped (crowded [.register (.addr 0x10) .preRead 4, .remove 0, .answer .failed])).map (fun t => t.nextHandle)
        = some 10 ∧ ((HostCall.removeHook 0).leaves? busyHooked).isSome = true := by decide +kernel

/-- The last address and byte; an image that ends at the top of memory, before the first step. -/
theorem witness_HostReadsBackItsWrite :
    busy.Quiet ∧ 65535 < 65536 ∧ 255 < 256 ∧ 65535 + [(0xFF : Byte)].length ≤ 65536 ∧ busy.begun = false
      ∧ busy.status = .running := by decide +kernel

end Sys2Proof.Tests
end

section
/-!
PROOFS. The status byte bit by bit (10_state R27, R28), and snapshots given back to the block (R39, R40).
-/

namespace Sys2Proof.Machine

@[simp] theorem getElem_bitByte (b : Bool) (k : Nat) (h : k < 8) : (bitByte b)[k] = (b && decide (k = 0)) := by
  cases b <;> simp [bitByte]

section StatusByteBits
variable (r : RegFile) (b : Bool)

@[simp] theorem RegFile.pbyte_bit7 : (r.pbyte b)[7] = r.n := by simp [RegFile.pbyte]
@[simp] theorem RegFile.pbyte_bit6 : (r.pbyte b)[6] = r.v := by simp [RegFile.pbyte]
@[simp] theorem RegFile.pbyte_bit3 : (r.pbyte b)[3] = r.d := by simp [RegFile.pbyte]
@[simp] theorem RegFile.pbyte_bit2 : (r.pbyte b)[2] = r.i := by simp [RegFile.pbyte]
@[simp] theorem RegFile.pbyte_bit1 : (r.pbyte b)[1] = r.z := by simp [RegFile.pbyte]
@[simp] theorem RegFile.pbyte_bit0 : (r.pbyte b)[0] = r.c := by simp [RegFile.pbyte]
end StatusByteBits

theorem RegFile.pbyte_toNat (r : RegFile) (b : Bool) :
    (r.pbyte b).toNat = 128 * bitNat r.n + 64 * bitNat r.v + 32 + 16 * bitNat b + 8 * bitNat r.d + 4 * bitNat r.i
      + 2 * bitNat r.z + bitNat r.c := by
  have weights : ∀ n v b d i z c : Bool,
      (bitByte n <<< 7 ||| bitByte v <<< 6 ||| 1 <<< 5 ||| bitByte b <<< 4 ||| bitByte d <<< 3 ||| bitByte i <<< 2
        ||| bitByte z <<< 1 ||| bitByte c).toNat
      = 128 * bitNat n + 64 * bitNat v + 32 + 16 * bitNat b + 8 * bitNat d + 4 * bitNat i + 2 * bitNat z + bitNat c := by
    decide
  exact weights r.n r.v b r.d r.i r.z r.c

theorem RegFile.loadP_pbyte (q r : RegFile) (b : Bool) :
    q.loadP (r.pbyte b) = { q with n := r.n, v := r.v, d := r.d, i := r.i, z := r.z, c := r.c } := by
  simp [RegFile.loadP]

/-- Settles O46: the layout is that of the eight bits, and loading reads six of them back. -/
theorem statusByteLayout : Obligations.StatusByteLayout :=
  fun r q b => ⟨r.pbyte_toNat b, q.loadP_pbyte r b⟩

/-! ## Snapshots -/

theorem Status.admitsReset_of {st : Status} (h : st = .unreset ∨ st = .running) : st.admitsReset = true := by
  rcases h with rfl | rfl <;> rfl

theorem applySnapshot_returned {q : HostSnapshot} {t : State} (ht : t.status = .unreset ∨ t.status = .running)
    (hq : q.inRange = true) :
    applySnapshot q t = .returned ()
      { t.setFile (q.toFile t.file) with status := .running, out := Output.empty } := by
  simp [applySnapshot, Status.admitsReset_of ht, hq]

theorem HostSnapshot.toFile_eq (q : HostSnapshot) (r : RegFile) :
    q.toFile r =
      { a := BitVec.ofNat 8 q.a, x := BitVec.ofNat 8 q.x, y := BitVec.ofNat 8 q.y, sp := BitVec.ofNat 8 q.sp
        pc := BitVec.ofNat 16 q.pc
        n := q.p.testBit 7, v := q.p.testBit 6, d := q.p.testBit 3, i := q.p.testBit 2, z := q.p.testBit 1
        c := q.p.testBit 0 } := by
  simp [HostSnapshot.toFile, RegFile.loadP, BitVec.getLsbD_ofNat, -BitVec.getLsbD_eq_getElem]

theorem HostSnapshot.inRange_iff (q : HostSnapshot) :
    q.inRange = true ↔ q.a < 256 ∧ q.x < 256 ∧ q.y < 256 ∧ q.sp < 256 ∧ q.pc < 65536 ∧ q.p < 256 := by
  simp [inRange, and_assoc]

/-- A snapshot as the host passes it back. -/
def HostSnapshot.ofSnapshot (q : Snapshot) : HostSnapshot :=
  ⟨q.a.toNat, q.x.toNat, q.y.toNat, q.sp.toNat, q.pc.toNat, q.p.toNat⟩

theorem HostSnapshot.inRange_ofSnapshot (q : Snapshot) : (ofSnapshot q).inRange = true :=
  (inRange_iff _).mpr ⟨q.a.isLt, q.x.isLt, q.y.isLt, q.sp.isLt, q.pc.isLt, q.p.isLt⟩

theorem HostSnapshot.toFile_ofSnapshot (q r : RegFile) : (ofSnapshot q.snapshot).toFile r = q := by
  simp [toFile, ofSnapshot, RegFile.snapshot, RegFile.loadP]

/-- Settles O57: what a record in range gives is its fields and the six bits of P, and a snapshot's P holds the flags. -/
theorem snapshotRestoresRegisters : Obligations.SnapshotRestoresRegisters := by
  intro s t q ht
  refine ⟨fun ha hx hy hsp hpc hp => ?_, ?_⟩
  · rw [applySnapshot_returned ht (q.inRange_iff.mpr ⟨ha, hx, hy, hsp, hpc, hp⟩), q.toFile_eq]
    rfl
  · have h := applySnapshot_returned ht (HostSnapshot.inRange_ofSnapshot s.file.snapshot)
    rwa [HostSnapshot.toFile_ofSnapshot] at h

end Sys2Proof.Machine
end

section
/-!
PROOFS. How a step ends (40_execution_cycle R130, R131): from which instruction, in which state, after how many cycles.
-/

namespace Sys2Proof.Machine

theorem Status.withFault_ne_running (st : Status) (info : FaultInfo) : st.withFault info ≠ .running := by
  cases st <;> simp

theorem step_unreset {s : State} (h : s.status = .unreset) : step s = .refused .stepBeforeReset := by
  simp [step, stepWith, h]

theorem step_faulted {s : State} {info : FaultInfo} (h : s.status = .faulted info) :
    step s = .fault (.executionFault info) := by
  simp [step, stepWith, h]

/-- How a step from Running that answers a next state got there: exec of what was fetched, or a fault in the fetch. -/
theorem step_cases {s t : State} (hs : s.status = .running) (h : step s = .next t) :
    (∃ i u, fetchInstr s.begin = .ok i u ∧ exec i u = .next t) ∨
      (∃ hd a k u, fetchInstr s.begin = .error (.hookFailed hd a k) u ∧ t = u.raise (u.stepFault hd a k)) := by
  rw [step_running hs] at h
  cases hf : fetchInstr s.begin with
  | ok i u =>
    rw [hf] at h
    exact .inl ⟨i, u, rfl, h⟩
  | error e u =>
    rw [hf] at h
    cases e with
    | hookFailed hd a k => exact .inr ⟨hd, a, k, u, rfl, (Host.Outcome.next.inj h).symm⟩
    | refused r => cases h

/-- Settles O10. -/
theorem stepStopsUnlessRunning : Obligations.StepStopsUnlessRunning :=
  fun _ => ⟨step_unreset, fun _ => step_faulted⟩

/-- What the fetch leaves of a step's beginning. -/
theorem fetchInstr_stepRan {s u : State} {i : Instr} (h : fetchInstr s = .ok i u) : StepRan s u :=
  Work.leaves_of_ok h ▸ fetchInstr_reads _ stepRan_closed.toReadClosed s

/-- A completed instruction is its work, and the commit of what the work leaves. -/
theorem Completes.of_conclude {i : Instr} {w : Work Path} {s t : State} (h : Completes i s t)
    (hw : exec i s = conclude i w s) : ∃ p u, w s = .ok p u ∧ t = u.commit (i.cycles p) := by
  obtain ⟨-, hexec, hrun⟩ := h
  rcases conclude_cases (hw ▸ hexec) with h | ⟨hd, a, k, u, -, rfl⟩
  · exact h
  · exact absurd hrun (Status.withFault_ne_running _ _)

/-- A completed instruction commits, with its cycles, a state that work may leave. -/
theorem Completes.commits {i : Instr} {s t : State} (h : Completes i s t) :
    ∃ p u, StepRan s u ∧ t = u.commit (i.cycles p) := by
  obtain ⟨w, hw, hworks, -⟩ := exec_work i s
  obtain ⟨p, u, hok, rfl⟩ := h.of_conclude hw
  exact ⟨p, u, Work.leaves_of_ok hok ▸ hworks _ stepRan_closed s, rfl⟩

/-- A completed step completes the instruction it fetched. -/
theorem step_completes {s t : State} (hs : s.status = .running) (h : step s = .next t) (ht : t.status = .running) :
    ∃ i u, StepRan s.begin u ∧ Completes i u t := by
  rcases step_cases hs h with ⟨i, u, hf, hexec⟩ | ⟨hd, a, k, u, -, rfl⟩
  · have hran := fetchInstr_stepRan hf
    exact ⟨i, u, hran, hran.status.trans hs, hexec, ht⟩
  · exact absurd ht (Status.withFault_ne_running _ _)

end Sys2Proof.Machine

/-! ## Cycles -/

namespace Sys2Proof

/-- The most a penalty can add to the cycles of a step (R111, R150). -/
def Penalty.maxCycles : Penalty → Nat
  | .none => 0
  | .pageCross => 1
  | .branch => 2

theorem Instr.cycles_ge (i : Instr) (p : Path) : i.descriptor.baseCycles ≤ i.cycles p := by
  simp only [Instr.cycles]
  omega

theorem Instr.cycles_le (i : Instr) (p : Path) :
    i.cycles p ≤ i.descriptor.baseCycles + i.descriptor.penalty.maxCycles := by
  simp only [Instr.cycles]
  cases i.descriptor.penalty with
  | none => simp
  | pageCross => cases p.crossed <;> simp [Penalty.maxCycles]
  | branch => cases p.taken <;> cases p.crossed <;> simp [Penalty.maxCycles]

/-- Every row of the ROM takes from 1 to 7 cycles, its penalty included (R106, R150). -/
theorem lookup_cycles_bounds (op : Byte) :
    1 ≤ (lookup op).baseCycles ∧ (lookup op).baseCycles + (lookup op).penalty.maxCycles ≤ 7 := by
  revert op; decide +kernel

theorem Instr.descriptor_eq_lookup (i : Instr) : ∃ op, i.descriptor = lookup op := by
  unfold Instr.descriptor
  split
  · exact ⟨_, rfl⟩
  · exact ⟨0x02, rfl⟩

/-- An instruction takes from 1 to 7 cycles (R150, R467). -/
theorem Instr.cycles_bounds (i : Instr) (p : Path) : 1 ≤ i.cycles p ∧ i.cycles p ≤ 7 := by
  obtain ⟨op, hop⟩ := i.descriptor_eq_lookup
  obtain ⟨hmin, hmax⟩ := lookup_cycles_bounds op
  rw [← hop] at hmin hmax
  exact ⟨hmin.trans (i.cycles_ge p), (i.cycles_le p).trans hmax⟩

end Sys2Proof

namespace Sys2Proof.Machine

/-- Settles O14: the fetch and the work leave the counter alone, and the commit adds the instruction's cycles. -/
theorem completedStepAddsItsCycles : Obligations.CompletedStepAddsItsCycles := by
  intro s t hs hstep ht
  obtain ⟨i, u, hfetch, hcompletes⟩ := step_completes hs hstep ht
  obtain ⟨p, v, hran, rfl⟩ := hcompletes.commits
  have hcycles : v.cycles = s.cycles := hran.cycles.trans hfetch.cycles
  exact ⟨by simp [hcycles], i.cycles_bounds p⟩

end Sys2Proof.Machine
end

section
/-!
PROOFS. What completed instructions do to the registers, whatever hooks are registered (10_state R21 to R31): which work
leaves the pending copy alone, what the rest makes of it, and one function, `Instr.regsAfter`, that says it for every
instruction.
-/

namespace Sys2Proof.Machine

variable {α β : Type}

/-- Work that leaves the pending registers as they are, whether it answers or stops. -/
def Work.KeepsPend (w : Work α) : Prop :=
  ∀ s, (w.leaves s).pend = s.pend

theorem Work.KeepsPend.ok {w : Work α} (h : w.KeepsPend) {s u : State} {v : α} (hw : w s = .ok v u) :
    u.pend = s.pend :=
  Work.leaves_of_ok hw ▸ h s

theorem Work.KeepsPend.pure (v : α) : (Pure.pure v : Work α).KeepsPend := fun _ => rfl

theorem Work.KeepsPend.bind {w : Work α} {f : α → Work β} (h : w.KeepsPend) (hf : ∀ v, (f v).KeepsPend) :
    (w >>= f).KeepsPend :=
  fun s => Work.leaves_bind (R := fun s t => t.pend = s.pend) (fun h h' => h'.trans h) (h s) fun v t _ => hf v t

theorem cpuRead_keepsPend (a : Addr) : (cpuRead a).KeepsPend := fun s => (cpuRead_hostRan a s).pend

theorem cpuWrite_keepsPend (a : Addr) (v : Byte) : (cpuWrite a v).KeepsPend := fun s => (cpuWrite_hostRan a v s).pend

theorem readVector_keepsPend (a : Addr) : (readVector a).KeepsPend :=
  (cpuRead_keepsPend _).bind fun _ => (cpuRead_keepsPend _).bind fun _ => .pure _

theorem effAddr_keepsPend (m : MemMode) : (effAddr m).KeepsPend := by
  refine Work.KeepsPend.bind (fun _ => rfl) fun r => ?_
  cases m with
  | izx | izy => exact (cpuRead_keepsPend _).bind fun _ => (cpuRead_keepsPend _).bind fun _ => .pure _
  | zp | zpx | zpy | abs | abx | aby => exact .pure _

theorem readOperand_keepsPend (m : ReadMode) : (readOperand m).KeepsPend := by
  cases m with
  | imm b => exact .pure _
  | mem mm => exact (effAddr_keepsPend mm).bind fun _ => (cpuRead_keepsPend _).bind fun _ => .pure _

theorem jumpTarget_keepsPend (m : JumpMode) : (jumpTarget m).KeepsPend := by
  cases m with
  | abs w => exact .pure _
  | ind w => exact (cpuRead_keepsPend _).bind fun _ => (cpuRead_keepsPend _).bind fun _ => .pure _

theorem storeWork_keepsPend (m : MemMode) (f : RegFile → Byte) : (storeWork m f).KeepsPend :=
  (effAddr_keepsPend m).bind fun _ => Work.KeepsPend.bind (fun _ => rfl) fun _ =>
    (cpuWrite_keepsPend _ _).bind fun _ => .pure _

/-! ## The stack -/

theorem push_pend {v : Byte} {s u : State} (h : push v s = .ok () u) :
    u.pend = { s.pend with sp := s.pend.sp - 1 } := by
  obtain ⟨_, t, hw, h⟩ := Work.of_bind_ok (f := fun _ => modifyRegs _) (w := cpuWrite (stackAddr s.pend.sp) v) h
  rw [← (cpuWrite_keepsPend _ _).ok hw]
  cases h; rfl

theorem pull_pend {v : Byte} {s u : State} (h : pull s = .ok v u) :
    u.pend = { s.pend with sp := s.pend.sp + 1 } :=
  (cpuRead_keepsPend _).ok (s := s.setPend { s.pend with sp := s.pend.sp + 1 }) h

theorem pushAddr_pend {a : Addr} {s u : State} (h : pushAddr a s = .ok () u) :
    u.pend = { s.pend with sp := s.pend.sp - 1 - 1 } := by
  obtain ⟨_, t, hhi, hlo⟩ := Work.of_bind_ok h
  rw [push_pend hlo, push_pend hhi]

theorem pullAddr_pend {a : Addr} {s u : State} (h : pullAddr s = .ok a u) :
    u.pend = { s.pend with sp := s.pend.sp + 1 + 1 } := by
  obtain ⟨lo, t, hlo, h⟩ := Work.of_bind_ok h
  obtain ⟨hi, t', hhi, h⟩ := Work.of_bind_ok h
  cases h
  rw [pull_pend hhi, pull_pend hlo]

theorem takeBreak_pend {s u : State} (h : takeBreak s = .ok () u) :
    ∃ w, u.pend = { s.pend with sp := s.pend.sp - 1 - 1 - 1, i := true, pc := w } := by
  obtain ⟨_, t1, haddr, h⟩ := Work.of_bind_ok (w := pushAddr (s.file.pc + 2)) h
  obtain ⟨_, t2, hp, h⟩ := Work.of_bind_ok (w := push (t1.pend.pbyte true)) h
  obtain ⟨w, t3, hw, h⟩ := Work.of_bind_ok (w := readVector 0xFFFE) (s := t2.setPend { t2.pend with i := true }) h
  cases h
  refine ⟨w, ?_⟩
  rw [State.setPend_pend, (readVector_keepsPend _).ok hw, State.setPend_pend, push_pend hp, pushAddr_pend haddr]

theorem returnFromBreak_pend {s u : State} (h : returnFromBreak s = .ok () u) :
    ∃ p w, u.pend = { s.pend.loadP p with sp := s.pend.sp + 1 + 1 + 1, pc := w } := by
  obtain ⟨p, t1, hp, h⟩ := Work.of_bind_ok h
  obtain ⟨w, t2, hw, h⟩ := Work.of_bind_ok (w := pullAddr) (s := t1.setPend (t1.pend.loadP p)) h
  cases h
  refine ⟨p, w, ?_⟩
  rw [State.setPend_pend, pullAddr_pend hw, State.setPend_pend, pull_pend hp]
  rfl

/-! ## The shapes of work -/

theorem readWork_pend {m : ReadMode} {f : RegFile → Byte → RegFile} {s u : State} {p : Path}
    (h : readWork m f s = .ok p u) : ∃ v, u.pend = f s.pend v := by
  obtain ⟨⟨v, crossed⟩, t, hv, h⟩ := Work.of_bind_ok h
  cases h
  exact ⟨v, by rw [State.setPend_pend, (readOperand_keepsPend m).ok hv]⟩

theorem modifyWork_pend {m : MemMode} {f : RegFile → Byte → ByteAndRegs} {s u : State} {p : Path}
    (h : modifyWork m f s = .ok p u) : ∃ v, u.pend = (f s.pend v).2 := by
  obtain ⟨⟨ea, crossed⟩, t1, hea, h⟩ := Work.of_bind_ok h
  obtain ⟨v, t2, hv, h⟩ := Work.of_bind_ok h
  obtain ⟨_, t3, hw, h⟩ := Work.of_bind_ok (w := cpuWrite ea (f t2.pend v).1) (s := t2) h
  cases h
  refine ⟨v, ?_⟩
  rw [State.setPend_pend, (cpuWrite_keepsPend _ _).ok hw, (cpuRead_keepsPend _).ok hv, (effAddr_keepsPend _).ok hea]

theorem branchWork_pend {c : RegFile → Bool} {b : Byte} {s u : State} {p : Path}
    (h : branchWork c b s = .ok p u) : ∃ w, u.pend = { s.pend with pc := w } := by
  by_cases hc : c s.pend
  · simp only [branchWork, Work.bind_apply, regs_apply, hc, if_true, setPc_apply, Work.pure_apply,
      EStateM.Result.ok.injEq] at h
    exact ⟨_, by rw [← h.2]; rfl⟩
  · simp only [branchWork, Work.bind_apply, regs_apply, hc, if_false, Bool.false_eq_true, Work.pure_apply,
      EStateM.Result.ok.injEq] at h
    exact ⟨s.pend.pc, by rw [← h.2]⟩

end Sys2Proof.Machine

namespace Sys2Proof
open Sys2Proof.Machine

/-- The registers after a shift or rotate whose memory byte, if it has one, is `v`. -/
def RmwMode.regsAfter (m : RmwMode) (f : RegFile → Byte → ByteAndRegs) (v : Byte) (r : RegFile) : RegFile :=
  match m with
  | .acc => { (f r r.a).2 with a := (f r r.a).1 }
  | .mem _ => (f r v).2

/-- The registers an instruction leaves, from those it starts with: `v` stands for the byte it reads or pulls and `w` for
the address it puts in PC, whatever they are. -/
def Instr.regsAfter (i : Instr) (v : Byte) (w : Addr) (r : RegFile) : RegFile :=
  match i with
  | .lda _ => { r with a := v }.setNZ v
  | .ldx _ => { r with x := v }.setNZ v
  | .ldy _ => { r with y := v }.setNZ v
  | .sta _ | .stx _ | .sty _ | .nop | .illegal _ => r
  | .tax => { r with x := r.a }.setNZ r.a
  | .tay => { r with y := r.a }.setNZ r.a
  | .txa => { r with a := r.x }.setNZ r.x
  | .tya => { r with a := r.y }.setNZ r.y
  | .tsx => { r with x := r.sp }.setNZ r.sp
  | .txs => { r with sp := r.x }
  | .adc _ => r.adc v
  | .sbc _ => r.sbc v
  | .cmp _ => r.compare r.a v
  | .cpx _ => r.compare r.x v
  | .cpy _ => r.compare r.y v
  | .inc _ => (r.incByte v).2
  | .dec _ => (r.decByte v).2
  | .inx => { r with x := r.x + 1 }.setNZ (r.x + 1)
  | .iny => { r with y := r.y + 1 }.setNZ (r.y + 1)
  | .dex => { r with x := r.x - 1 }.setNZ (r.x - 1)
  | .dey => { r with y := r.y - 1 }.setNZ (r.y - 1)
  | .and _ => { r with a := r.a &&& v }.setNZ (r.a &&& v)
  | .ora _ => { r with a := r.a ||| v }.setNZ (r.a ||| v)
  | .eor _ => { r with a := r.a ^^^ v }.setNZ (r.a ^^^ v)
  | .bit _ => r.bitTest v
  | .asl m => m.regsAfter (fun r v => r.asl v) v r
  | .lsr m => m.regsAfter (fun r v => r.lsr v) v r
  | .rol m => m.regsAfter (fun r v => r.rol v) v r
  | .ror m => m.regsAfter (fun r v => r.ror v) v r
  | .bcc _ | .bcs _ | .beq _ | .bne _ | .bmi _ | .bpl _ | .bvc _ | .bvs _ | .jmp _ => { r with pc := w }
  | .jsr _ => { r with sp := r.sp - 1 - 1, pc := w }
  | .rts => { r with sp := r.sp + 1 + 1, pc := w }
  | .brk => { r with sp := r.sp - 1 - 1 - 1, i := true, pc := w }
  | .rti => { r.loadP v with sp := r.sp + 1 + 1 + 1, pc := w }
  | .pha | .php => { r with sp := r.sp - 1 }
  | .pla => { r with sp := r.sp + 1, a := v }.setNZ v
  | .plp => { r with sp := r.sp + 1 }.loadP v
  | .clc => { r with c := false }
  | .sec => { r with c := true }
  | .cli => { r with i := false }
  | .sei => { r with i := true }
  | .cld => { r with d := false }
  | .sed => { r with d := true }
  | .clv => { r with v := false }

/-! ### What `Instr.regsAfter` leaves of each flag and register: the instructions that write it, and the rest -/

section RegsAfter
variable {i : Instr} (v : Byte) (w : Addr) (r : RegFile)

theorem Instr.regsAfter_c
    (h : i.operation ∉ [.adc, .sbc, .cmp, .cpx, .cpy, .asl, .lsr, .rol, .ror, .clc, .sec, .plp, .rti]) :
    (i.regsAfter v w r).c = r.c := by
  cases i with
  | adc | sbc | cmp | cpx | cpy | asl | lsr | rol | ror | clc | sec | plp | rti => simp [Instr.operation] at h
  | _ => rfl

theorem Instr.regsAfter_zn
    (h : i.operation ∉ [.adc, .sbc, .and, .ora, .eor, .bit, .cmp, .cpx, .cpy, .inc, .dec, .inx, .iny, .dex, .dey, .lda,
      .ldx, .ldy, .tax, .tay, .txa, .tya, .tsx, .pla, .asl, .lsr, .rol, .ror, .plp, .rti]) :
    (i.regsAfter v w r).z = r.z ∧ (i.regsAfter v w r).n = r.n := by
  cases i with
  | adc | sbc | and | ora | eor | bit | cmp | cpx | cpy | inc | dec | inx | iny | dex | dey | lda | ldx | ldy | tax | tay
  | txa | tya | tsx | pla | asl | lsr | rol | ror | plp | rti => simp [Instr.operation] at h
  | _ => exact ⟨rfl, rfl⟩

theorem Instr.regsAfter_i (h : i.operation ∉ [.sei, .cli, .brk, .plp, .rti]) : (i.regsAfter v w r).i = r.i := by
  cases i with
  | sei | cli | brk | plp | rti => simp [Instr.operation] at h
  | asl m | lsr m | rol m | ror m => cases m <;> rfl
  | _ => rfl

theorem Instr.regsAfter_d (h : i.operation ∉ [.sed, .cld, .plp, .rti]) : (i.regsAfter v w r).d = r.d := by
  cases i with
  | sed | cld | plp | rti => simp [Instr.operation] at h
  | asl m | lsr m | rol m | ror m => cases m <;> rfl
  | _ => rfl

theorem Instr.regsAfter_v (h : i.operation ∉ [.adc, .sbc, .bit, .clv, .plp, .rti]) : (i.regsAfter v w r).v = r.v := by
  cases i with
  | adc | sbc | bit | clv | plp | rti => simp [Instr.operation] at h
  | asl m | lsr m | rol m | ror m => cases m <;> rfl
  | _ => rfl

theorem Instr.regsAfter_a (h : i.operation ∉ [.lda, .adc, .sbc, .and, .ora, .eor, .txa, .tya, .pla])
    (hacc : i.operation ∈ [.asl, .lsr, .rol, .ror] → i.mode ≠ .acc) : (i.regsAfter v w r).a = r.a := by
  cases i with
  | lda | adc | sbc | and | ora | eor | txa | tya | pla => simp [Instr.operation] at h
  | asl m | lsr m | rol m | ror m =>
    cases m with
    | acc => exact absurd rfl (hacc (by simp [Instr.operation]))
    | mem mm => rfl
  | _ => rfl

theorem Instr.regsAfter_x (h : i.operation ∉ [.ldx, .inx, .dex, .tax, .tsx]) : (i.regsAfter v w r).x = r.x := by
  cases i with
  | ldx | inx | dex | tax | tsx => simp [Instr.operation] at h
  | asl m | lsr m | rol m | ror m => cases m <;> rfl
  | _ => rfl

theorem Instr.regsAfter_y (h : i.operation ∉ [.ldy, .iny, .dey, .tay]) : (i.regsAfter v w r).y = r.y := by
  cases i with
  | ldy | iny | dey | tay => simp [Instr.operation] at h
  | asl m | lsr m | rol m | ror m => cases m <;> rfl
  | _ => rfl

theorem Instr.regsAfter_sp (h : i.operation ∉ [.txs, .pha, .php, .pla, .plp, .jsr, .rts, .brk, .rti]) :
    (i.regsAfter v w r).sp = r.sp := by
  cases i with
  | txs | pha | php | pla | plp | jsr | rts | brk | rti => simp [Instr.operation] at h
  | asl m | lsr m | rol m | ror m => cases m <;> rfl
  | _ => rfl

theorem Instr.regsAfter_pc
    (h : i.operation ∉ [.bcc, .bcs, .beq, .bne, .bmi, .bpl, .bvc, .bvs, .jmp, .jsr, .rts, .brk, .rti]) :
    (i.regsAfter v w r).pc = r.pc := by
  cases i with
  | bcc | bcs | beq | bne | bmi | bpl | bvc | bvs | jmp | jsr | rts | brk | rti => simp [Instr.operation] at h
  | asl m | lsr m | rol m | ror m => cases m <;> rfl
  | _ => rfl

end RegsAfter

end Sys2Proof

namespace Sys2Proof.Machine

/-! ## A completed instruction, by the shape of its work -/

theorem shiftWork_pend {m : RmwMode} {f : RegFile → Byte → ByteAndRegs} {s u : State} {p : Path}
    (h : shiftWork m f s = .ok p u) : ∃ v, u.pend = m.regsAfter f v s.pend := by
  cases m with
  | acc => cases h; exact ⟨0, rfl⟩
  | mem mm => exact modifyWork_pend h

section Shapes
variable {i : Instr} {s t : State} (h : Completes i s t)
include h

theorem Completes.file_of_regWork {f : RegFile → RegFile} (hw : exec i s = conclude i (regWork f) s) :
    t.file = f s.pend := by
  obtain ⟨p, u, hu, rfl⟩ := h.of_conclude hw
  cases hu; rfl

/-- Work with no answer and no more after it. -/
theorem Completes.file_of_work {w : Work Unit} (hw : exec i s = conclude i (do w; pure {}) s) :
    ∃ u, w s = .ok () u ∧ t.file = u.pend := by
  obtain ⟨p, u, hu, rfl⟩ := h.of_conclude hw
  obtain ⟨_, t, hok, hu⟩ := Work.of_bind_ok hu
  cases hu
  exact ⟨u, hok, rfl⟩

/-- Work whose answer then changes the registers. -/
theorem Completes.file_of_modifyRegs_after {α : Type} {w : Work α} {g : α → RegFile → RegFile}
    (hw : exec i s = conclude i (do let a ← w; modifyRegs (g a); pure {}) s) :
    ∃ a u, w s = .ok a u ∧ t.file = g a u.pend := by
  obtain ⟨p, u, hu, rfl⟩ := h.of_conclude hw
  obtain ⟨a, u', hok, hu⟩ := Work.of_bind_ok hu
  cases hu
  exact ⟨a, u', hok, rfl⟩

theorem Completes.file_of_push {f : RegFile → Byte}
    (hw : exec i s = conclude i (do push (f (← regs)); pure {}) s) :
    t.file = { s.pend with sp := s.pend.sp - 1 } := by
  obtain ⟨p, u, hu, rfl⟩ := h.of_conclude hw
  obtain ⟨_, u', hok, hu⟩ := Work.of_bind_ok (w := push (f s.pend)) hu
  cases hu
  exact push_pend hok

end Shapes

/-- Whatever hooks are registered, a completed instruction leaves the registers of `Instr.regsAfter`. -/
theorem Completes.file_eq_regsAfter {i : Instr} {s t : State} (h : Completes i s t) :
    ∃ v w, t.file = i.regsAfter v w s.pend := by
  cases i with
  | lda | ldx | ldy | adc | sbc | cmp | cpx | cpy | and | ora | eor | bit =>
    obtain ⟨p, u, hu, rfl⟩ := h.of_conclude rfl
    exact (readWork_pend hu).imp fun _ e => ⟨0, e⟩
  | sta | stx | sty =>
    obtain ⟨p, u, hu, rfl⟩ := h.of_conclude rfl
    exact ⟨0, 0, (storeWork_keepsPend _ _).ok hu⟩
  | inc | dec =>
    obtain ⟨p, u, hu, rfl⟩ := h.of_conclude rfl
    exact (modifyWork_pend hu).imp fun _ e => ⟨0, e⟩
  | asl | lsr | rol | ror =>
    obtain ⟨p, u, hu, rfl⟩ := h.of_conclude rfl
    exact (shiftWork_pend hu).imp fun _ e => ⟨0, e⟩
  | tax | tay | txa | tya | tsx | txs | inx | iny | dex | dey | clc | sec | cli | sei | cld | sed | clv =>
    exact ⟨0, 0, h.file_of_regWork rfl⟩
  | bcc | bcs | beq | bne | bmi | bpl | bvc | bvs =>
    obtain ⟨p, u, hu, rfl⟩ := h.of_conclude rfl
    exact ⟨0, branchWork_pend hu⟩
  | nop =>
    obtain ⟨p, u, hu, rfl⟩ := h.of_conclude (w := pure {}) rfl
    exact ⟨0, 0, (Work.KeepsPend.pure _).ok hu⟩
  | illegal op =>
    obtain ⟨u, hu, e⟩ := h.file_of_work (w := emitIllegal op) rfl
    cases hu
    exact ⟨0, 0, e⟩
  | jmp m =>
    obtain ⟨w, u, hw, e⟩ := h.file_of_modifyRegs_after (w := jumpTarget m) (g := fun w r => { r with pc := w }) rfl
    exact ⟨0, w, by rw [e, (jumpTarget_keepsPend m).ok hw]; rfl⟩
  | jsr w =>
    obtain ⟨_, u, hu, e⟩ := h.file_of_modifyRegs_after (w := pushAddr (s.file.pc + 2))
      (g := fun _ r => { r with pc := w }) rfl
    exact ⟨0, w, by rw [e, pushAddr_pend hu]; rfl⟩
  | rts =>
    obtain ⟨w, u, hu, e⟩ := h.file_of_modifyRegs_after (w := pullAddr) (g := fun w r => { r with pc := w + 1 }) rfl
    exact ⟨0, w + 1, by rw [e, pullAddr_pend hu]; rfl⟩
  | brk =>
    obtain ⟨u, hu, e⟩ := h.file_of_work (w := takeBreak) rfl
    exact ⟨0, (takeBreak_pend hu).imp fun _ hw => e.trans hw⟩
  | rti =>
    obtain ⟨u, hu, e⟩ := h.file_of_work (w := returnFromBreak) rfl
    exact (returnFromBreak_pend hu).imp fun _ => Exists.imp fun _ hpw => e.trans hpw
  | pha => exact ⟨0, 0, h.file_of_push (f := fun r => r.a) rfl⟩
  | php => exact ⟨0, 0, h.file_of_push (f := fun r => r.pbyte true) rfl⟩
  | pla =>
    obtain ⟨v, u, hu, e⟩ := h.file_of_modifyRegs_after (w := pull) (g := fun v r => { r with a := v }.setNZ v) rfl
    exact ⟨v, 0, by rw [e, pull_pend hu]; rfl⟩
  | plp =>
    obtain ⟨p, u, hu, e⟩ := h.file_of_modifyRegs_after (w := pull) (g := fun p r => r.loadP p) rfl
    exact ⟨p, 0, by rw [e, pull_pend hu]; rfl⟩

/-- Settles O20: the flags of `Instr.regsAfter`, one by one. -/
theorem flagsKeptUnlessNamed : Obligations.FlagsKeptUnlessNamed := by
  intro i s t h
  obtain ⟨v, w, e⟩ := h.file_eq_regsAfter
  rw [e]
  exact ⟨i.regsAfter_c v w _, i.regsAfter_zn v w _, i.regsAfter_i v w _, i.regsAfter_d v w _, i.regsAfter_v v w _⟩

/-- Settles O21: the registers of `Instr.regsAfter`, one by one. -/
theorem registersKeptUnlessNamed : Obligations.RegistersKeptUnlessNamed := by
  intro i s t h
  obtain ⟨v, w, e⟩ := h.file_eq_regsAfter
  rw [e]
  exact ⟨i.regsAfter_a v w _, i.regsAfter_x v w _, i.regsAfter_y v w _, i.regsAfter_sp v w _, i.regsAfter_pc v w _⟩

end Sys2Proof.Machine
end

section
/-!
PROOFS. What pushes leave of memory, whatever hooks are registered (10_state R24), completed or faulted.
-/

namespace Sys2Proof.Machine

variable {α β : Type}

/-- From `s` to `t` host moves are only used up, and the byte at `a` stays unless one of them writes it. -/
def KeepsByte (a : Addr) (s t : State) : Prop :=
  t.host <:+ s.host ∧ (s.HostSpares a → t.mem.read a = s.mem.read a)

theorem keepsByte_readClosed (a : Addr) : ReadClosed (KeepsByte a) := spared_readClosed a

theorem KeepsByte.trans {a : Addr} {s t u : State} (h : KeepsByte a s t) (h' : KeepsByte a t u) : KeepsByte a s u :=
  (keepsByte_readClosed a).trans h h'

theorem Work.Reads.keepsByte {w : Work α} (h : w.Reads) (a : Addr) (s : State) : KeepsByte a s (w.leaves s) :=
  h _ (keepsByte_readClosed a) s

theorem KeepsByte.bind {a : Addr} {w : Work α} {f : α → Work β} {s : State} (h : KeepsByte a s (w.leaves s))
    (hf : ∀ v t, w s = .ok v t → KeepsByte a t ((f v).leaves t)) : KeepsByte a s ((w >>= f).leaves s) :=
  Work.leaves_bind (R := KeepsByte a) KeepsByte.trans h hf

theorem KeepsByte.get_bind {a : Addr} {f : State → Work β} {s : State} (h : KeepsByte a s ((f s).leaves s)) :
    KeepsByte a s ((get >>= f).leaves s) := h

theorem KeepsByte.regs_bind {a : Addr} {f : RegFile → Work β} {s : State}
    (h : KeepsByte a s ((f s.pend).leaves s)) : KeepsByte a s ((regs >>= f).leaves s) := h

/-- A CPU write keeps every byte but the one at its own address. -/
theorem cpuWrite_keepsByte {a b : Addr} (h : a ≠ b) (v : Byte) (s : State) :
    KeepsByte a s ((cpuWrite b v).leaves s) := by
  have hran := cpuWrite_hostRan b v s
  exact ⟨hran.host, fun hs => (hran.mem a hs).trans (Memory.read_write_ne _ _ h)⟩

theorem push_keepsByte {a : Addr} {s : State} (h : a ≠ stackAddr s.pend.sp) (v : Byte) :
    KeepsByte a s ((push v).leaves s) :=
  .regs_bind <| (cpuWrite_keepsByte h v s).bind fun _ t _ => (modifyRegs_reads _).keepsByte a t

theorem pushAddr_keepsByte {a : Addr} {s : State} (h : a ≠ stackAddr s.pend.sp) (h' : a ≠ stackAddr (s.pend.sp - 1))
    (w : Addr) : KeepsByte a s ((pushAddr w).leaves s) :=
  (push_keepsByte h _).bind fun _ _ ht => push_keepsByte (by rwa [push_pend ht]) _

theorem takeBreak_keepsByte {a : Addr} {s : State} (h : a ≠ stackAddr s.pend.sp)
    (h' : a ≠ stackAddr (s.pend.sp - 1)) (h'' : a ≠ stackAddr (s.pend.sp - 2)) :
    KeepsByte a s (takeBreak.leaves s) := by
  refine .get_bind ((pushAddr_keepsByte h h' _).bind fun _ t ht => ?_)
  have hsp : t.pend.sp = s.pend.sp - 2 := by
    rw [pushAddr_pend ht]
    bv_omega
  have hpush := push_keepsByte (a := a) (s := t) (by rw [hsp]; exact h'') (t.pend.pbyte true)
  refine .regs_bind (hpush.bind fun _ t' _ => ?_)
  exact ((modifyRegs_reads _).bind fun _ => (readVector_reads _).bind fun _ => setPc_reads _).keepsByte a t'

/-- An instruction that answers a next state, completed or faulted, leaves the memory its work leaves. -/
theorem conclude_mem {i : Instr} {w : Work Path} {s t : State} (h : conclude i w s = .next t) :
    t.mem = (w.leaves s).mem := by
  rcases conclude_cases h with ⟨p, u, hw, rfl⟩ | ⟨hd, a, k, u, hw, rfl⟩
  · rw [Work.leaves_of_ok hw]; rfl
  · rw [Work.leaves_of_error hw]; rfl

/-- A byte that an instruction's work keeps is unchanged when it has completed or faulted. -/
theorem exec_read_of_keepsByte {i : Instr} {w : Work Path} {s t : State} {a : Addr} (h : exec i s = .next t)
    (hw : exec i s = conclude i w s) (hk : KeepsByte a s (w.leaves s)) (hs : s.HostSpares a) :
    t.mem.read a = s.mem.read a := by
  rw [conclude_mem (hw ▸ h)]
  exact hk.2 hs

theorem pushWork_keepsByte {a : Addr} {s : State} (h : a ≠ stackAddr s.pend.sp) (f : RegFile → Byte) :
    KeepsByte a s (Work.leaves (do push (f (← regs)); pure ({} : Path)) s) :=
  .regs_bind <| (push_keepsByte h _).bind fun _ u _ => (Work.Reads.pure _).keepsByte a u

theorem jsrWork_keepsByte {a : Addr} {s : State} (h : a ≠ stackAddr s.pend.sp) (h' : a ≠ stackAddr (s.pend.sp - 1))
    (ret w : Addr) : KeepsByte a s (Work.leaves (do pushAddr ret; setPc w; pure ({} : Path)) s) :=
  (pushAddr_keepsByte h h' ret).bind fun _ u _ =>
    ((setPc_reads w).bind fun _ => Work.Reads.pure _).keepsByte a u

/-- Settles O24: all of the work but the pushes is reads and registers, and each push writes where SP then points. -/
theorem pushesKeepOtherBytes : Obligations.PushesKeepOtherBytes := by
  intro i s t a h hs
  refine ⟨?_, fun hi h0 h1 => ?_, ?_⟩
  · rintro (rfl | rfl) h0
    · exact exec_read_of_keepsByte h rfl (pushWork_keepsByte h0 fun r => r.a) hs
    · exact exec_read_of_keepsByte h rfl (pushWork_keepsByte h0 fun r => r.pbyte true) hs
  · cases i with
    | jsr w => exact exec_read_of_keepsByte h rfl (jsrWork_keepsByte h0 h1 _ w) hs
    | _ => cases hi
  · rintro rfl h0 h1 h2
    exact exec_read_of_keepsByte h rfl ((takeBreak_keepsByte h0 h1 h2).bind fun _ u _ =>
      (Work.Reads.pure _).keepsByte a u) hs

end Sys2Proof.Machine
end

section
/-!
PROOFS. Reads whose callbacks only answer (20_memory R63), and the reset that makes two of them (70 R450).
-/

namespace Sys2Proof.Machine

/-! ## Reads whose callbacks only answer -/

theorem callHook_override {s : State} {rest : List HostMove} {v : Nat} (n : Nat) (snap : Snapshot) (a : Addr) (h : Hook)
    (hv : v < 256) (hh : s.host = .answer (.override v) :: rest) :
    callHook (runCallback (n + 1)) snap a h s = .ok (.override v) (s.afterCalls snap a [h] rest) := by
  simp [callHook, Work.bind_apply, runCallback, takeMove, hh, checkOutcome, hv, State.afterCalls]

theorem State.afterCalls_append (s : State) (snap : Snapshot) (a : Addr) (l l' : List Hook) (r r' : List HostMove) :
    (s.afterCalls snap a l r).afterCalls snap a l' r' = s.afterCalls snap a (l ++ l') r' := by
  simp [State.afterCalls]

theorem callbacks_of_host {s : State} (h : s.host ≠ []) : ∃ n, callbacks s = runCallback (n + 1) := by
  obtain ⟨n, hn⟩ := Nat.exists_eq_succ_of_ne_zero (mt List.length_eq_zero_iff.mp h)
  exact ⟨n, callbacks_eq hn⟩

/-- A read's dispatch whose callbacks all answer None gives no override (R63). -/
theorem dispatchRead_noOverride {s : State} {rest : List HostMove} (snap : Snapshot) (a : Addr) (l : List Hook)
    (hh : s.host = List.replicate l.length (.answer .noOverride) ++ rest) :
    dispatchRead (callbacks s) snap a l s = .ok none (s.afterCalls snap a l rest) := by
  cases l with
  | nil => rw [State.afterCalls_nil snap a (by simpa using hh)]; rfl
  | cons h l =>
    obtain ⟨n, hn⟩ := callbacks_of_host (s := s) (by simp [hh, List.replicate_succ])
    have skip := dispatchRead_skip n snap a (h :: l) [] s rest hh
    rw [List.append_nil] at skip
    exact hn ▸ skip

/-- A read's dispatch ends at its first override (R63). -/
theorem dispatchRead_firstOverride {s : State} {rest : List HostMove} {v : Nat} (snap : Snapshot) (a : Addr)
    (before : List Hook) (h : Hook) (after : List Hook) (hv : v < 256)
    (hh : s.host = List.replicate before.length (.answer .noOverride) ++ .answer (.override v) :: rest) :
    dispatchRead (callbacks s) snap a (before ++ h :: after) s
      = .ok (some (BitVec.ofNat 8 v)) (s.afterCalls snap a (before ++ [h]) rest) := by
  obtain ⟨n, hn⟩ := callbacks_of_host (s := s) (by simp [hh])
  rw [hn, dispatchRead_skip n snap a before (h :: after) s _ hh, dispatchRead,
    Work.bind_ok (callHook_override n snap a h hv rfl), State.afterCalls_append]
  rfl

/-- A read whose callbacks only answer gives its byte, uses their moves and calls their hooks, and nothing else (R63). -/
theorem memRead_answered {s : State} {a : Addr} {called : List Hook} {moves rest : List HostMove} {v : Byte}
    (snap : Snapshot) (h : ReadAnswered (s.dispatchList .preRead a) (s.mem.read a) called moves v)
    (hh : s.host = moves ++ rest) : memRead snap a s = .ok v (s.afterCalls snap a called rest) := by
  show readWith (callbacks s) .preRead snap a s = _
  unfold readWith
  rw [Work.bind_ok (Work.get_apply s)]
  cases h with
  | fallThrough => rw [Work.bind_ok (dispatchRead_noOverride snap a _ hh)]; rfl
  | override before h after w hsplit hw =>
    rw [hsplit, Work.bind_ok (dispatchRead_firstOverride snap a before h after hw (hh.trans (List.append_assoc ..)))]
    rfl

theorem hiLo_eq_ofNat (hi lo : Byte) : hiLo hi lo = BitVec.ofNat 16 (lo.toNat + 256 * hi.toNat) := by
  rw [← hiLo_toNat, BitVec.ofNat_toNat, BitVec.setWidth_eq]

/-- A reset whose two vector reads answer returns (R450). -/
theorem resetCall_returned {p : ResetParams} {s t : State} {pc : Addr} (hs : s.status = .unreset ∨ s.status = .running)
    (h : resetVector (RegFile.ofReset p 0xFFFC).snapshot { s with out := Output.empty } = .ok pc t) :
    resetCall p s = .returned () (t.afterReset p pc) := by
  unfold resetCall
  rw [if_pos (Status.admitsReset_of hs), h]
  rfl

theorem resetCall_faulted {p : ResetParams} {s : State} {info : FaultInfo} (h : s.status = .faulted info) :
    resetCall p s = .notAdmitted := by
  simp [resetCall, h, Status.admitsReset]

/-- The vector reads of a reset whose callbacks only answer. -/
theorem resetVector_answered {s : State} {called called' : List Hook} {moves moves' rest : List HostMove} {lo hi : Byte}
    (snap : Snapshot) (hlo : ReadAnswered (s.dispatchList .preRead 0xFFFC) (s.mem.read 0xFFFC) called moves lo)
    (hhi : ReadAnswered (s.dispatchList .preRead 0xFFFD) (s.mem.read 0xFFFD) called' moves' hi)
    (hh : s.host = moves ++ moves' ++ rest) :
    resetVector snap s = .ok (hiLo hi lo)
      ((((s.logged (.read 0xFFFC)).afterCalls snap 0xFFFC called (moves' ++ rest)).logged (.read 0xFFFD)).afterCalls
        snap 0xFFFD called' rest) := by
  have log : ∀ (acc : Access) (t : State), logAccess acc t = .ok () (t.logged acc) := fun _ _ => rfl
  have elo := memRead_answered (s := s.logged (.read 0xFFFC)) snap hlo (hh.trans (List.append_assoc ..))
  have ehi := memRead_answered
    (s := ((s.logged (.read 0xFFFC)).afterCalls snap 0xFFFC called (moves' ++ rest)).logged (.read 0xFFFD)) snap hhi rfl
  unfold resetVector
  rw [Work.bind_ok (log _ _), Work.bind_ok elo, Work.bind_ok (log _ _), Work.bind_ok ehi, Work.pure_apply]

/-- Settles O55: two reads whose callbacks only answer, and the reset's commit of the word they give. -/
theorem resetLoadsTheVector : Obligations.ResetLoadsTheVector := by
  intro s p
  refine ⟨fun info => resetCall_faulted, fun hs hq => ?_, fun hs called moves lo hlo called' moves' hi hhi rest hh => ?_⟩
  · rw [resetCall_returned hs (resetVector_quiet (s := { s with out := Output.empty }) _ hq), hiLo_eq_ofNat]
    rfl
  · rw [resetCall_returned hs (resetVector_answered (s := { s with out := Output.empty }) _ hlo hhi hh), hiLo_eq_ofNat]
    rfl

end Sys2Proof.Machine
end

section
/-!
PROOFS. What a step leaves, whatever hooks are registered: the invariant of the machine between steps (20_memory R50, R54,
R57; 40_execution_cycle R131), the host's moves and the hook registry.
-/

namespace Sys2Proof.Machine

/-- An instruction that answers a next state commits, or raises a fault in, a state that work may leave. -/
theorem exec_ends {i : Instr} {s t : State} (h : exec i s = .next t) :
    ∃ u, (∀ R, WorkClosed R → R s u) ∧ ((∃ n, t = u.commit n) ∨ ∃ info, t = u.raise info) := by
  obtain ⟨w, hw, hworks, -⟩ := exec_work i s
  refine ⟨w.leaves s, fun R hR => hworks R hR s, ?_⟩
  rcases conclude_cases (hw ▸ h) with ⟨p, u, hok, rfl⟩ | ⟨hd, a, k, u, herr, rfl⟩
  · exact .inl ⟨_, by rw [Work.leaves_of_ok hok]⟩
  · exact .inr ⟨_, by rw [Work.leaves_of_error herr]⟩

/-- A step that answers a next state commits, or raises a fault in, a state that work may leave from its beginning. -/
theorem step_ends {s t : State} (h : step s = .next t) :
    ∃ u, (∀ R, WorkClosed R → R s.begin u) ∧ ((∃ n, t = u.commit n) ∨ ∃ info, t = u.raise info) := by
  have fetched (R) (hR : WorkClosed R) : R s.begin (fetchInstr.leaves s.begin) :=
    fetchInstr_reads R hR.toReadClosed s.begin
  cases hs : s.status with
  | unreset => cases (step_unreset hs).symm.trans h
  | faulted info => cases (step_faulted hs).symm.trans h
  | running =>
    rcases step_cases hs h with ⟨i, u, hf, hexec⟩ | ⟨hd, a, k, u, hf, rfl⟩
    · rw [Work.leaves_of_ok hf] at fetched
      obtain ⟨v, hv, hend⟩ := exec_ends hexec
      exact ⟨v, fun R hR => hR.trans (fetched R hR) (hv R hR), hend⟩
    · rw [Work.leaves_of_error hf] at fetched
      exact ⟨u, fetched, .inr ⟨_, rfl⟩⟩

/-- Settles O15: all work keeps the stores in order, and both ends of a step make the pending copy the register file. -/
theorem stepKeepsInvariant : Obligations.StepKeepsInvariant := by
  intro s t ⟨hstores, _⟩ hstep
  obtain ⟨u, hran, hend⟩ := step_ends hstep
  have hu : u.StoresOk := hran _ storesOk_workClosed hstores
  rcases hend with ⟨n, rfl⟩ | ⟨info, rfl⟩
  · exact ⟨hu, rfl, rfl⟩
  · exact ⟨hu, rfl, rfl⟩

/-- What a step does to the host's moves and the registry is what its work does. -/
theorem step_host_registry {s t : State} (h : step s = .next t) :
    t.host <:+ s.host
      ∧ ((∀ m ∈ s.host, m.touchesRegistry = false) → t.hooks = s.hooks ∧ t.nextHandle = s.nextHandle)
      ∧ HandlesFresh s t := by
  obtain ⟨u, hran, hend⟩ := step_ends h
  have hu : StepRan s.begin u := hran _ stepRan_closed
  rcases hend with ⟨n, rfl⟩ | ⟨info, rfl⟩
  · exact ⟨hu.host, hu.registry, hu.handles⟩
  · exact ⟨hu.host, hu.registry, hu.handles⟩

/-- Settles O25: host moves and registry are only touched by what the step's work does. -/
theorem stepChangesNoHookItself : Obligations.StepChangesNoHookItself :=
  fun _ _ => step_host_registry

end Sys2Proof.Machine
end

section
/-!
PROOFS. The byte store's canonical form is one per content (20_memory R50).
-/

namespace Sys2Proof.Machine

theorem Memory.get_cons_self (c : Host.Cell) (m : Memory) : Memory.get (c :: m) c.1 = c.2 := by
  simp [Memory.get]

/-- Below its first entry a canonical store is blank. -/
theorem Memory.get_cons_of_lt {c : Host.Cell} {m : Memory} {k : Nat} (h : Memory.wf (c :: m) = true) (hk : k < c.1) :
    Memory.get (c :: m) k = Memory.blank := by
  obtain ⟨-, -, hrise, -⟩ := (Memory.wf_cons c m).mp h
  exact Memory.get_of_forall_lt (List.forall_mem_cons.mpr ⟨hk, fun c' hc' => hk.trans (hrise c' hc')⟩)

/-- The first entry of a canonical store is not above the first entry of one that reads alike. -/
theorem Memory.head_le {c c' : Host.Cell} {m m' : Memory} (h : Memory.wf (c :: m) = true)
    (h' : Memory.wf (c' :: m') = true) (hget : ∀ k < 65536, Memory.get (c :: m) k = Memory.get (c' :: m') k) :
    c'.1 ≤ c.1 := by
  obtain ⟨hc, hv, -, -⟩ := (Memory.wf_cons c m).mp h
  by_contra hlt
  exact hv (by rw [← Memory.get_cons_self c m, hget c.1 hc, Memory.get_cons_of_lt h' (by omega)])

/-- A canonical store with an entry is not blank everywhere. -/
theorem Memory.cons_not_blank {c : Host.Cell} {m : Memory} (h : Memory.wf (c :: m) = true) :
    ¬ ∀ k < 65536, Memory.get (c :: m) k = Memory.blank := by
  obtain ⟨hc, hv, -, -⟩ := (Memory.wf_cons c m).mp h
  exact fun hb => hv (by rw [← Memory.get_cons_self c m, hb c.1 hc])

/-- What a canonical store holds past its first entry. -/
theorem Memory.get_tail {c : Host.Cell} {m : Memory} (h : Memory.wf (c :: m) = true) (k : Nat) :
    Memory.get m k = if k = c.1 then Memory.blank else Memory.get (c :: m) k := by
  obtain ⟨-, -, hrise, -⟩ := (Memory.wf_cons c m).mp h
  split
  · next hk => exact Memory.get_of_forall_lt (hk ▸ hrise)
  · next hk => simp [Memory.get, Ne.symm hk]

theorem Memory.eq_of_get {m m' : Memory} (h : m.wf = true) (h' : m'.wf = true)
    (hget : ∀ k < 65536, Memory.get m k = Memory.get m' k) : m = m' := by
  induction m generalizing m' with
  | nil =>
    cases m' with
    | nil => rfl
    | cons c' m' => exact absurd (fun k hk => (hget k hk).symm) (Memory.cons_not_blank h')
  | cons c m ih =>
    cases m' with
    | nil => exact absurd hget (Memory.cons_not_blank h)
    | cons c' m' =>
      obtain ⟨hc, -, -, hm⟩ := (Memory.wf_cons c m).mp h
      obtain ⟨-, -, -, hm'⟩ := (Memory.wf_cons c' m').mp h'
      have haddr : c.1 = c'.1 :=
        Nat.le_antisymm (Memory.head_le h' h fun k hk => (hget k hk).symm) (Memory.head_le h h' hget)
      have hbyte : c.2 = c'.2 := by
        rw [← Memory.get_cons_self c m, hget c.1 hc, haddr, Memory.get_cons_self]
      have htail : m = m' := ih hm hm' fun k hk => by
        rw [Memory.get_tail h, Memory.get_tail h', haddr, hget k hk]
      rw [htail, Prod.ext haddr hbyte]

/-- Settles O8: every address number below 65,536 is that of an address. -/
theorem canonicalMemoriesAreDeterminedByReads : Obligations.CanonicalMemoriesAreDeterminedByReads := by
  intro m m' h h' hread
  refine Memory.eq_of_get h h' fun k hk => ?_
  have hk' := hread (BitVec.ofNat 16 k)
  rwa [Memory.read, Memory.read, BitVec.toNat_ofNat, Nat.mod_eq_of_lt hk] at hk'

end Sys2Proof.Machine
end

section
/-!
PROOFS. What a host call leaves (60_exceptions R419), whatever hooks are registered and however it ends: the invariant, and
the handles of the registry.
-/

namespace Sys2Proof.Machine

/-- A preorder that no change made by a host call breaks: those of the callbacks it runs, and those of its own. -/
structure CallClosed (R : State → State → Prop) : Prop extends HostClosed R where
  logged : ∀ (s : State) (acc : Access), R s (s.logged acc)
  stored : ∀ (s : State) (a : Addr) (v : Byte), R s (s.stored a v)
  cleared : ∀ s : State, R s { s with out := Output.empty }
  raised : ∀ (s : State) (info : FaultInfo), R s (s.raise info)
  restarted : ∀ (s : State) (r : RegFile) (n : Nat) (o : Output),
    R s { s.setFile r with cycles := n, status := .running, out := o }
  registers : ∀ (s : State) (t : Trigger) (k : HookKind) (cb : Nat), t.check k = .ok → R s (s.register t k cb)
  removes : ∀ (s : State) (h : Nat), R s (s.unregister h)

section
variable {R : State → State → Prop} (hR : CallClosed R)
include hR

theorem endCall_closed {α : Type} {w : Work α} {s t : State} (hw : R s (w.leaves s))
    (h : (endCall (w s)).state? = some t) : R s t := by
  rcases endCall_leaves h with rfl | ⟨info, rfl⟩
  · exact hw
  · exact hR.trans hw (hR.raised _ info)

theorem hostRead_closed {a : Nat} {s t : State} (h : (hostRead a s).state? = some t) : R s t := by
  refine hR.trans (hR.cleared s) ?_
  unfold hostRead at h
  split at h
  · exact endCall_closed hR (memRead_leaves hR.toHostClosed _ _ _) h
  · cases h
    exact hR.refl _

theorem hostWrite_closed {a v : Nat} {s t : State} (h : (hostWrite a v s).state? = some t) : R s t := by
  refine hR.trans (hR.cleared s) ?_
  unfold hostWrite at h
  split at h
  · split at h
    · exact endCall_closed hR (hR.trans (hR.stored _ _ _) (memWrite_leaves hR.toHostClosed _ _ _ _)) h
    · cases h
  · cases h
    exact hR.refl _

theorem loadBytes_closed {bytes : List Byte} {a : Nat} {s t : State} (h : (loadBytes a bytes s).state? = some t) :
    R s t := by
  induction bytes generalizing a s with
  | nil =>
    cases h
    exact hR.refl _
  | cons b rest ih =>
    have written (u) (hu : (hostWrite a b.toNat s).state? = some u) : R s u := hostWrite_closed hR hu
    unfold loadBytes at h
    split at h
    case h_1 u hw => exact hR.trans (written u (by rw [hw]; rfl)) (ih h)
    case h_2 k u hw => exact written t (by rw [hw]; exact h)
    case h_3 info u hw => exact written t (by rw [hw]; exact h)
    case h_4 => cases h

theorem loadImage_closed {a : Nat} {bytes : List Byte} {s t : State} (h : (loadImage a bytes s).state? = some t) :
    R s t := by
  unfold loadImage at h
  split at h
  · cases h
  · exact hR.trans (hR.cleared s) (loadBytes_closed hR h)

theorem registerHook_closed {g : Trigger} {k : HookKind} {cb : Nat} {s t : State}
    (h : (registerHook g k cb s).state? = some t) : R s t := by
  unfold registerHook at h
  split at h
  case h_1 hc =>
    cases h
    exact hR.registers s g k cb hc
  case h_2 =>
    cases h
    exact hR.refl _
  case h_3 => cases h

theorem applySnapshot_closed {q : HostSnapshot} {s t : State} (h : (applySnapshot q s).state? = some t) : R s t := by
  unfold applySnapshot at h
  split at h
  · cases h
    exact hR.restarted s (q.toFile s.file) s.cycles Output.empty
  · cases h

theorem resetVector_closed (snap : Snapshot) (s : State) : R s ((resetVector snap).leaves s) := by
  have log (acc) (u : State) : R u ((logAccess acc).leaves u) := hR.logged u acc
  have read (a) (u : State) : R u ((memRead snap a).leaves u) := memRead_leaves hR.toHostClosed snap a u
  exact Work.leaves_bind (R := R) hR.trans (log _ s) fun _ u _ =>
    Work.leaves_bind (R := R) hR.trans (read _ u) fun _ u _ =>
      Work.leaves_bind (R := R) hR.trans (log _ u) fun _ u _ =>
        Work.leaves_bind (R := R) hR.trans (read _ u) fun _ u _ => hR.refl u

theorem resetCall_closed {p : ResetParams} {s t : State} (h : (resetCall p s).state? = some t) : R s t := by
  have vector (u) := endCall_closed hR (t := u)
    (resetVector_closed hR (RegFile.ofReset p 0xFFFC).snapshot { s with out := Output.empty })
  refine hR.trans (hR.cleared s) ?_
  unfold resetCall at h
  split at h
  · split at h
    case h_1 pc u hv =>
      cases h
      exact hR.trans (vector u (by rw [hv]; rfl)) (hR.restarted u _ 0 u.out)
    case h_2 a u hv => exact vector t (by rw [hv]; exact h)
    case h_3 info u hv => exact vector t (by rw [hv]; exact h)
    case h_4 => cases h
  · cases h

/-- Whatever state a host call leaves, every closed preorder holds from the state before. -/
theorem HostCall.leaves_closed {c : HostCall} {s t : State} (h : c.leaves? s = some t) : R s t := by
  cases c with
  | read a => exact hostRead_closed hR h
  | write a v => exact hostWrite_closed hR h
  | loadImage a bytes => exact loadImage_closed hR h
  | registerHook g k cb => exact registerHook_closed hR h
  | removeHook hd =>
    cases h
    exact hR.removes s hd
  | applySnapshot q => exact applySnapshot_closed hR h
  | reset p => exact resetCall_closed hR h

end

/-- Every change of a host call, on its own, keeps the invariant. -/
theorem inv_callClosed : CallClosed (fun s t => s.Inv → t.Inv) where
  refl := fun _ h => h
  trans := fun h h' hs => h' (h hs)
  called := fun _ _ h => h
  replied := fun _ _ h => h
  consulted := fun _ h => h
  took := fun _ _ _ _ h => h
  wrote := fun s a v rest hh ha hv h => ⟨storesOk_closed.wrote s a v rest hh ha hv h.1, h.2⟩
  registered := fun s t k cb rest hh hc h => ⟨storesOk_closed.registered s t k cb rest hh hc h.1, h.2⟩
  removed := fun s hd rest hh h => ⟨storesOk_closed.removed s hd rest hh h.1, h.2⟩
  logged := fun _ _ h => h
  stored := fun s a v h => ⟨storesOk_workClosed.stored s a v h.1, h.2⟩
  cleared := fun _ h => h
  raised := fun _ _ h => ⟨h.1, rfl, rfl⟩
  restarted := fun _ _ _ _ h => ⟨h.1, rfl, rfl⟩
  registers := fun _ _ _ cb hc h => ⟨⟨h.1.1, h.1.2.register cb hc⟩, h.2⟩
  removes := fun _ hd h => ⟨⟨h.1.1, h.1.2.unregister hd⟩, h.2⟩

/-- Settles O17: keeping the invariant is a preorder that every change of a host call respects. -/
theorem hostCallsKeepInvariant : Obligations.HostCallsKeepInvariant :=
  fun _ _ _ hs h => HostCall.leaves_closed inv_callClosed h hs

/-- No change of a host call gives a handle again (R57). -/
theorem handlesFresh_callClosed : CallClosed HandlesFresh where
  refl := HandlesFresh.refl
  trans := HandlesFresh.trans
  called := fun s c => (hostRan_closed.called s c).handles
  replied := fun s r => (hostRan_closed.replied s r).handles
  consulted := fun s => (hostRan_closed.consulted s).handles
  took := fun s m rest h => (hostRan_closed.took s m rest h).handles
  wrote := fun s a v rest h ha hv => (hostRan_closed.wrote s a v rest h ha hv).handles
  registered := fun s t k cb rest h hc => (hostRan_closed.registered s t k cb rest h hc).handles
  removed := fun s hd rest h => (hostRan_closed.removed s hd rest h).handles
  logged := fun s acc => (stepRan_closed.logged s acc).handles
  stored := fun s a v => (stepRan_closed.stored s a v).handles
  cleared := fun s => HandlesFresh.refl s
  raised := fun s _ => HandlesFresh.refl s
  restarted := fun s _ _ _ => HandlesFresh.refl s
  registers := fun s t k cb _ => HandlesFresh.register s t k cb
  removes := fun s hd => HandlesFresh.unregister s hd

end Sys2Proof.Machine
end

section
/-!
PROOFS. The hook registry (20_memory R54 to R59): registration, removal, and the dispatch list of an access.
-/

namespace Sys2Proof.Machine

theorem registerHook_ok {g : Trigger} {k : HookKind} (hc : g.check k = .ok) (cb : Nat) (s : State) :
    registerHook g k cb s = .returned s.nextHandle (s.register g k cb) := by
  simp [registerHook, hc]

theorem registerHook_addressError {g : Trigger} {k : HookKind} {a : Nat} (hc : g.check k = .addressError a) (cb : Nat)
    (s : State) : registerHook g k cb s = .addressError a s := by
  simp [registerHook, hc]

theorem registerHook_notAdmitted {g : Trigger} {k : HookKind} (hc : g.check k = .notAdmitted) (cb : Nat) (s : State) :
    registerHook g k cb s = .notAdmitted := by
  simp [registerHook, hc]

/-- Removing a handle that no record of a list has leaves the list. -/
theorem filter_handle_ne {l : List Hook} {hd : Nat} (h : ∀ x ∈ l, x.handle ≠ hd) :
    l.filter (fun x => x.handle != hd) = l :=
  List.filter_eq_self.mpr fun x hx => by simpa using h x hx

theorem State.unregister_of_unknown {s : State} {hd : Nat} (h : ∀ x ∈ s.hooks, x.handle ≠ hd) :
    s.unregister hd = s := by
  rw [State.unregister, filter_handle_ne h]

/-- Removing the record just registered restores the registry, not the next handle (R57, R58). -/
theorem State.unregister_register {s : State} (h : ∀ x ∈ s.hooks, x.handle ≠ s.nextHandle) (g : Trigger) (k : HookKind)
    (cb : Nat) : (s.register g k cb).unregister s.nextHandle = { s with nextHandle := s.nextHandle + 1 } := by
  simp [State.unregister, State.register, List.filter_append, filter_handle_ne h]

/-- Settles O59: the registry's handles are below the next one, and no step and no host call gives one again. -/
theorem registrationAppendsAndRemoves : Obligations.RegistrationAppendsAndRemoves := by
  intro s g k cb ⟨_, hbelow, _⟩ hc
  have fresh : ∀ x ∈ s.hooks, x.handle ≠ s.nextHandle := fun x hx => Nat.ne_of_lt (hbelow x hx)
  refine ⟨registerHook_ok hc cb s, fresh, ?_, fun hd h => ?_, fun u hu => ?_⟩
  · exact congrArg _ (State.unregister_register fresh g k cb)
  · rw [removeHook, State.unregister_of_unknown h]
  · rcases hu with hu | ⟨c, hu⟩
    · obtain ⟨-, -, hfresh⟩ := step_host_registry hu
      exact hfresh
    · exact HostCall.leaves_closed handlesFresh_callClosed hu

/-- Settles O49: the dispatch list is a filter of the registry, so the greatest sublist whose records all fit. -/
theorem dispatchListHoldsTheMatchingHooks : Obligations.DispatchListHoldsTheMatchingHooks := by
  intro s k a fits
  have fits_iff (h : Hook) : (h.kind == k && h.trigger.matchesAddr a) = true ↔ fits h := by
    simp only [Bool.and_eq_true, beq_iff_eq, fits]
    cases h.trigger <;> simp [Trigger.matchesAddr]
  refine ⟨fun h => ?_, List.filter_sublist, fun l hl hfits => ?_⟩
  · rw [State.dispatchList, List.mem_filter, fits_iff]
  · have hself := List.filter_eq_self.mpr fun h hh => (fits_iff h).mpr (hfits h hh)
    exact hself ▸ hl.filter _

end Sys2Proof.Machine
end

section
/-!
PROOFS. Host calls with no hook registered, and with arguments the spec refuses (20_memory R51, R55; 10_state R40).
-/

namespace Sys2Proof.Machine

/-- Settles O60: with no hook registered every access is plain storage. -/
theorem hostReadsBackItsWrite : Obligations.HostReadsBackItsWrite := by
  intro s a v hq ha hv t
  refine ⟨hostWrite_quiet hq ha hv, ?_, hostRead_quiet hq ha, fun bytes hlen hbegun hs => ?_⟩
  · have hread := hostRead_quiet (s := t) hq ha
    rwa [show t.mem.read (BitVec.ofNat 16 a) = BitVec.ofNat 8 v from Memory.read_write_same _ _ _] at hread
  · rw [loadImage, if_neg (by simp [hbegun, Status.admitsReset_of hs])]
    exact loadBytes_quiet bytes a { s with out := Output.empty } hq rfl hlen

section
variable {a : Nat} (ha : 65536 ≤ a)
include ha

theorem hostRead_outside (s : State) : hostRead a s = .addressError a { s with out := Output.empty } := by
  simp [hostRead, Nat.not_lt.mpr ha]

theorem hostWrite_outside (v : Nat) (s : State) :
    hostWrite a v s = .addressError a { s with out := Output.empty } := by
  simp [hostWrite, Nat.not_lt.mpr ha]

theorem Trigger.check_addr_outside (k : HookKind) : (Trigger.addr a).check k = .addressError a := by
  simp [Trigger.check, Nat.not_lt.mpr ha]

theorem Trigger.check_range_lo_outside (hi : Nat) (k : HookKind) : (Trigger.range a hi).check k = .addressError a := by
  simp [Trigger.check, ha]

theorem Trigger.check_range_hi_outside {lo : Nat} (hlo : lo < 65536) (k : HookKind) :
    (Trigger.range lo a).check k = .addressError a := by
  simp [Trigger.check, Nat.not_le.mpr hlo, ha]

end

theorem Trigger.check_range_inverted {lo hi : Nat} (hlo : lo < 65536) (h : hi < lo) (k : HookKind) :
    (Trigger.range lo hi).check k = .notAdmitted := by
  simp [Trigger.check, Nat.not_le.mpr hlo, Nat.not_le.mpr (h.trans hlo), Nat.not_le.mpr h]

theorem Trigger.check_anyExecute_of_ne {k : HookKind} (h : k ≠ .preExecute) :
    Trigger.anyExecute.check k = .notAdmitted := by
  simp [Trigger.check, h]

theorem HostSnapshot.inRange_eq_false {q : HostSnapshot}
    (h : 256 ≤ q.a ∨ 256 ≤ q.x ∨ 256 ≤ q.y ∨ 256 ≤ q.sp ∨ 65536 ≤ q.pc ∨ 256 ≤ q.p) : q.inRange = false := by
  rw [Bool.eq_false_iff, ne_eq, HostSnapshot.inRange_iff]
  omega

/-- Settles O58: each refused argument fails the first check of its call that sees it. -/
theorem hostArgumentsAreChecked : Obligations.HostArgumentsAreChecked := by
  intro s a v cb k q
  refine ⟨fun ha => ⟨hostRead_outside ha s, hostWrite_outside ha v s, ?_, fun hi => ?_, fun lo hlo => ?_⟩,
    fun ha hv => ?_, fun lo hlo h => ?_, fun hk => ?_, fun hq => ?_, fun info hs => ?_, fun h bytes => ?_⟩
  · exact registerHook_addressError (Trigger.check_addr_outside ha k) cb s
  · exact registerHook_addressError (Trigger.check_range_lo_outside ha hi k) cb s
  · exact registerHook_addressError (Trigger.check_range_hi_outside ha hlo k) cb s
  · simp [hostWrite, ha, Nat.not_lt.mpr hv]
  · exact registerHook_notAdmitted (Trigger.check_range_inverted hlo h k) cb s
  · exact registerHook_notAdmitted (Trigger.check_anyExecute_of_ne hk) cb s
  · simp [applySnapshot, HostSnapshot.inRange_eq_false hq]
  · simp [applySnapshot, hs, Status.admitsReset]
  · rcases h with hbegun | ⟨info, hs⟩
    · simp [loadImage, hbegun]
    · simp [loadImage, hs, Status.admitsReset]

end Sys2Proof.Machine
end

section
/-!
PROOFS. Accesses with hooks registered (20_memory R59 to R67): what a write commits, the first override, the first failure,
and which hooks are called in which order when callbacks only answer.
-/

namespace Sys2Proof.Machine

/-- Settles O52: the dispatch of a write runs from the state with the byte committed. -/
theorem writesCommitWhateverHooksDo : Obligations.WritesCommitWhateverHooksDo := by
  intro s a b v r hr hs u hu
  have hleaves : (cpuWrite a v).leaves s = u := by
    rcases hu with rfl | ⟨e, rfl⟩
    · exact Work.leaves_of_ok hr
    · exact Work.leaves_of_error hr
  have hran := cpuWrite_hostRan a v s
  rw [hleaves] at hran
  exact (hran.mem b hs).trans (Memory.read_write s.mem a b v)

/-! ## Each access is its record and the dispatch over its list -/

theorem cpuRead_eq (a : Addr) (s : State) : cpuRead a s =
    readWith (callbacks (s.logged (.read a))) .preRead s.file.snapshot a (s.logged (.read a)) := rfl

theorem cpuFetch_eq (a : Addr) (s : State) : cpuFetch a s =
    readWith (callbacks (s.logged (.fetch a))) .preExecute s.file.snapshot a (s.logged (.fetch a)) := rfl

theorem cpuWrite_eq (a : Addr) (v : Byte) (s : State) : cpuWrite a v s =
    dispatchWrite (callbacks ((s.logged (.write a v)).stored a v)) s.file.snapshot a (s.dispatchList .postWrite a)
      ((s.logged (.write a v)).stored a v) := rfl

section
variable {run : HookCall → Work HookOutcome} {k : HookKind} {snap : Snapshot} {a : Addr} {s t : State}

theorem readWith_of_override {v : Byte} (h : dispatchRead run snap a (s.dispatchList k a) s = .ok (some v) t) :
    readWith run k snap a s = .ok v t := by
  rw [readWith, Work.bind_ok (Work.get_apply s), Work.bind_ok h]
  rfl

theorem readWith_of_none (h : dispatchRead run snap a (s.dispatchList k a) s = .ok none t) :
    readWith run k snap a s = .ok (t.mem.read a) t := by
  rw [readWith, Work.bind_ok (Work.get_apply s), Work.bind_ok h]
  rfl

theorem readWith_of_error {e : Stop} (h : dispatchRead run snap a (s.dispatchList k a) s = .error e t) :
    readWith run k snap a s = .error e t := by
  rw [readWith, Work.bind_ok (Work.get_apply s), Work.bind_error h]

end

/-- A read or fetch whose callbacks only answer gives its byte, uses their moves and calls their hooks (R63, R66). -/
theorem readWith_answered {s : State} {k : HookKind} {a : Addr} {called : List Hook} {moves rest : List HostMove}
    {v : Byte} (snap : Snapshot) (h : ReadAnswered (s.dispatchList k a) (s.mem.read a) called moves v)
    (hh : s.host = moves ++ rest) :
    readWith (callbacks s) k snap a s = .ok v (s.afterCalls snap a called rest) := by
  cases h with
  | fallThrough => exact readWith_of_none (dispatchRead_noOverride snap a _ hh)
  | override before h after w hsplit hw =>
    have hfirst := dispatchRead_firstOverride snap a before h after hw (hh.trans (List.append_assoc ..))
    exact readWith_of_override (hsplit ▸ hfirst)

theorem hostRead_of_ok {s t : State} {a : Addr} {v : Byte}
    (h : memRead s.file.snapshot a { s with out := Output.empty } = .ok v t) : hostRead a.toNat s = .returned v t := by
  simp [hostRead, a.isLt, h, endCall]

/-- Settles O50: each is a read whose callbacks only answer. -/
theorem firstOverrideIsTheByteRead : Obligations.FirstOverrideIsTheByteRead := by
  intro s a before h l v rest hv hh
  have answered {k : HookKind} (hl : s.dispatchList k a = before ++ h :: l) :=
    ReadAnswered.override (stored := s.mem.read a) before h l v hl hv
  have hh' := hh.trans (List.append_cons _ _ rest)
  refine ⟨fun hl => ?_, fun hl => ?_, fun hl => ?_⟩
  · exact readWith_answered (s := s.logged (.read a)) _ (answered hl) hh'
  · exact readWith_answered (s := s.logged (.fetch a)) _ (answered hl) hh'
  · have hread := memRead_answered (s := { s with out := Output.empty }) s.file.snapshot (answered hl) hh'
    exact hostRead_of_ok hread

/-! ## A callback that fails -/

/-- An outcome that R60 treats as `Fail`. -/
theorem checkOutcome_eq_failed {o : HookOutcome} (h : o = .failed ∨ ∃ v, 256 ≤ v ∧ o = .override v) :
    checkOutcome o = .failed := by
  rcases h with rfl | ⟨v, hv, rfl⟩
  · rfl
  · simp [checkOutcome, Nat.not_lt.mpr hv]

theorem callHook_failed {s : State} {o : HookOutcome} {rest : List HostMove} (n : Nat) (snap : Snapshot) (a : Addr)
    (h : Hook) (ho : checkOutcome o = .failed) (hh : s.host = .answer o :: rest) :
    callHook (runCallback (n + 1)) snap a h s = .error (.hookFailed h.handle a h.kind) (s.afterCalls snap a [h] rest) := by
  simp [callHook, Work.bind_apply, runCallback, takeMove, hh, ho, State.afterCalls]

theorem kind_of_dispatchList {s : State} {k : HookKind} {a : Addr} {h : Hook} (hl : h ∈ s.dispatchList k a) :
    h.kind = k := by
  obtain ⟨-, hfits⟩ := List.mem_filter.mp hl
  simp only [Bool.and_eq_true, beq_iff_eq] at hfits
  exact hfits.1

section FirstFailure
variable {s : State} {o : HookOutcome} {rest : List HostMove} {before : List Hook} (snap : Snapshot) (a : Addr) (h : Hook)
  (l : List Hook) (ho : checkOutcome o = .failed)
  (hh : s.host = List.replicate before.length (.answer .noOverride) ++ .answer o :: rest)
include ho hh

/-- A read's dispatch ends at the first callback that fails (R63, R67). -/
theorem dispatchRead_firstFailure : dispatchRead (callbacks s) snap a (before ++ h :: l) s
    = .error (.hookFailed h.handle a h.kind) (s.afterCalls snap a (before ++ [h]) rest) := by
  obtain ⟨n, hn⟩ := callbacks_of_host (s := s) (by simp [hh])
  rw [hn, dispatchRead_skip n snap a before (h :: l) s _ hh, dispatchRead,
    Work.bind_error (callHook_failed n snap a h ho rfl), State.afterCalls_append]

/-- A write's dispatch ends at the first callback that fails (R65, R67). -/
theorem dispatchWrite_firstFailure : dispatchWrite (callbacks s) snap a (before ++ h :: l) s
    = .error (.hookFailed h.handle a h.kind) (s.afterCalls snap a (before ++ [h]) rest) := by
  obtain ⟨n, hn⟩ := callbacks_of_host (s := s) (by simp [hh])
  rw [hn, dispatchWrite_skip n snap a before (h :: l) s _ hh, dispatchWrite,
    Work.bind_error (callHook_failed n snap a h ho rfl), State.afterCalls_append]

theorem readWith_firstFailure {k : HookKind} (hl : s.dispatchList k a = before ++ h :: l) :
    readWith (callbacks s) k snap a s
      = .error (.hookFailed h.handle a k) (s.afterCalls snap a (before ++ [h]) rest) := by
  have hk : h.kind = k := kind_of_dispatchList (s := s) (a := a) (by simp [hl])
  rw [readWith_of_error (hl ▸ dispatchRead_firstFailure snap a h l ho hh), hk]

end FirstFailure

/-- Settles O51: the dispatch ends at the hook that fails, whose kind is its list's. -/
theorem failedCallbackEndsTheAccess : Obligations.FailedCallbackEndsTheAccess := by
  intro s a w before h l o rest hh
  refine ⟨fun hl hfails => ?_, fun hl hfails => ?_, fun hl hfails => ?_⟩
  · exact readWith_firstFailure (s := s.logged (.read a)) _ a h l (checkOutcome_eq_failed hfails) hh hl
  · exact readWith_firstFailure (s := s.logged (.fetch a)) _ a h l (checkOutcome_eq_failed hfails) hh hl
  · have hk : h.kind = .postWrite := kind_of_dispatchList (s := s) (a := a) (by simp [hl])
    have hstop := dispatchWrite_firstFailure (s := (s.logged (.write a w)).stored a w) s.file.snapshot a h l
      (checkOutcome_eq_failed (.inl hfails)) hh
    rw [cpuWrite_eq, hl, hstop, hk]
    simp [State.afterCalls, State.logged, State.stored]

/-! ## Callbacks that only answer -/

/-- Every host move still to come is a callback's answer. -/
def State.OnlyAnswers (s : State) : Prop :=
  ∀ m ∈ s.host, ∃ o, m = .answer o

/-- From `s` to `t` these hooks were called, each with the address, the byte stored in `s` and the snapshot, and their
callbacks did no more than answer. -/
structure Called (snap : Snapshot) (a : Addr) (l : List Hook) (s t : State) : Prop where
  answers : t.OnlyAnswers
  mem : t.mem = s.mem
  calls : t.out.calls = s.out.calls ++ l.map fun h => ⟨h.callback, a, s.mem.read a, snap⟩

theorem Called.nil {s : State} (hs : s.OnlyAnswers) (snap : Snapshot) (a : Addr) : Called snap a [] s s :=
  ⟨hs, rfl, by simp⟩

theorem Called.cons {snap : Snapshot} {a : Addr} {h : Hook} {l : List Hook} {s t u : State}
    (hst : Called snap a [h] s t) (htu : Called snap a l t u) : Called snap a (h :: l) s u :=
  ⟨htu.answers, htu.mem.trans hst.mem, by simp [htu.calls, hst.calls, hst.mem]⟩

/-- A callback that only answers changes neither memory nor the record of calls. -/
theorem runCallback_onlyAnswers (n : Nat) (call : HookCall) {s : State} (hs : s.OnlyAnswers) :
    ∃ o t, runCallback n call s = .ok o t ∧ t.OnlyAnswers ∧ t.mem = s.mem ∧ t.out = s.out := by
  cases n with
  | zero => exact ⟨_, _, rfl, hs, rfl, rfl⟩
  | succ n =>
    cases hh : s.host with
    | nil =>
      refine ⟨Config.hookOutcome s.consults call, { s with consults := s.consults + 1 }, ?_, hs, rfl, rfl⟩
      simp [runCallback, takeMove, freeOutcome, Work.bind_apply, hh]
    | cons m rest =>
      obtain ⟨o, rfl⟩ := hs m (by simp [hh])
      refine ⟨o, { s with host := rest }, ?_, fun m hm => hs m (by simp [hh, show m ∈ rest from hm]), rfl, rfl⟩
      simp [runCallback, takeMove, Work.bind_apply, hh]

section
variable (n : Nat) (snap : Snapshot) (a : Addr)

theorem callHook_called (h : Hook) {s : State} (hs : s.OnlyAnswers) :
    Called snap a [h] s ((callHook (runCallback n) snap a h).leaves s) := by
  obtain ⟨o, t, hrun, ht, hmem, hout⟩ := runCallback_onlyAnswers n ⟨h.callback, a, s.mem.read a, snap⟩
    (s := { s with out := { s.out with calls := s.out.calls ++ [⟨h.callback, a, s.mem.read a, snap⟩] } }) hs
  have hleaves : (callHook (runCallback n) snap a h).leaves s = t := by
    cases ho : checkOutcome o <;> simp [callHook, Work.leaves, Work.bind_apply, hrun, ho]
  rw [hleaves]
  exact ⟨ht, hmem, by simp [hout]⟩

/-- A read's dispatch calls its list from the first on, without a gap (R63). -/
theorem dispatchRead_called (list : List Hook) {s : State} (hs : s.OnlyAnswers) :
    ∃ l, l <+: list ∧ (list ≠ [] → l ≠ []) ∧ Called snap a l s ((dispatchRead (runCallback n) snap a list).leaves s) := by
  induction list generalizing s with
  | nil => exact ⟨[], List.prefix_refl _, fun h => h, Called.nil hs snap a⟩
  | cons h list ih =>
    have hcalled := callHook_called n snap a h hs
    have onlyFirst {t : State} (ht : Called snap a [h] s t) :
        ∃ l, l <+: h :: list ∧ (h :: list ≠ [] → l ≠ []) ∧ Called snap a l s t :=
      ⟨[h], by simp, by simp, ht⟩
    cases hcall : callHook (runCallback n) snap a h s with
    | error e t =>
      rw [Work.leaves_of_error hcall] at hcalled
      rw [dispatchRead, Work.leaves_of_error (Work.bind_error hcall _)]
      exact onlyFirst hcalled
    | ok o t =>
      rw [Work.leaves_of_ok hcall] at hcalled
      obtain ⟨l, hprefix, -, hl⟩ := ih hcalled.answers
      have goOn : ∃ l, l <+: h :: list ∧ (h :: list ≠ [] → l ≠ [])
          ∧ Called snap a l s ((dispatchRead (runCallback n) snap a list).leaves t) :=
        ⟨h :: l, by simpa using hprefix, by simp, hcalled.cons hl⟩
      rw [Work.leaves, dispatchRead, Work.bind_ok hcall]
      cases o with
      | override v => exact onlyFirst hcalled
      | noOverride => exact goOn
      | failed => exact goOn

/-- A write's dispatch calls its list from the first on, without a gap, and all of it if it completes (R65). -/
theorem dispatchWrite_called (list : List Hook) {s : State} (hs : s.OnlyAnswers) :
    ∃ l, l <+: list ∧ (list ≠ [] → l ≠ []) ∧ Called snap a l s ((dispatchWrite (runCallback n) snap a list).leaves s)
      ∧ ∀ u, dispatchWrite (runCallback n) snap a list s = .ok () u → l = list := by
  induction list generalizing s with
  | nil => exact ⟨[], List.prefix_refl _, fun h => h, Called.nil hs snap a, fun _ _ => rfl⟩
  | cons h list ih =>
    have hcalled := callHook_called n snap a h hs
    cases hcall : callHook (runCallback n) snap a h s with
    | error e t =>
      rw [Work.leaves_of_error hcall] at hcalled
      rw [dispatchWrite, Work.leaves_of_error (Work.bind_error hcall _), Work.bind_error hcall]
      exact ⟨[h], by simp, by simp, hcalled, fun u hu => nomatch hu⟩
    | ok o t =>
      rw [Work.leaves_of_ok hcall] at hcalled
      obtain ⟨l, hprefix, -, hl, hall⟩ := ih hcalled.answers
      rw [Work.leaves, dispatchWrite, Work.bind_ok hcall]
      exact ⟨h :: l, by simpa using hprefix, by simp, hcalled.cons hl, fun u hu => by rw [hall u hu]⟩

theorem readWith_leaves_dispatch (run : HookCall → Work HookOutcome) (k : HookKind) (s : State) :
    (readWith run k snap a).leaves s = (dispatchRead run snap a (s.dispatchList k a)).leaves s := by
  cases hd : dispatchRead run snap a (s.dispatchList k a) s with
  | error e t => rw [Work.leaves_of_error hd, Work.leaves_of_error (readWith_of_error hd)]
  | ok o t =>
    cases o with
    | none => rw [Work.leaves_of_ok hd, Work.leaves_of_ok (readWith_of_none hd)]
    | some v => rw [Work.leaves_of_ok hd, Work.leaves_of_ok (readWith_of_override hd)]

theorem readWith_called (k : HookKind) {s : State} (hs : s.OnlyAnswers) :
    ∃ l, l <+: s.dispatchList k a ∧ (s.dispatchList k a ≠ [] → l ≠ [])
      ∧ ((readWith (runCallback n) k snap a).leaves s).out.calls
        = s.out.calls ++ l.map fun h => ⟨h.callback, a, s.mem.read a, snap⟩ := by
  obtain ⟨l, hprefix, hne, hl⟩ := dispatchRead_called n snap a (s.dispatchList k a) hs
  exact ⟨l, hprefix, hne, by rw [readWith_leaves_dispatch, hl.calls]⟩

end

/-- Enough host moves that all answer None are as many such answers, and the rest. -/
theorem State.host_eq_replicate_append {s : State} {n : Nat} (hnone : ∀ m ∈ s.host, m = .answer .noOverride)
    (hlen : n ≤ s.host.length) : s.host = List.replicate n (.answer .noOverride) ++ s.host.drop n := by
  have htake : s.host.take n = List.replicate n (.answer .noOverride) :=
    List.eq_replicate_iff.mpr ⟨by simpa using hlen, fun m hm => hnone m (List.mem_of_mem_take hm)⟩
  rw [← htake, List.take_append_drop]

/-- If every answer is None a read or fetch calls its whole list and falls through to the stored byte (R63, R66). -/
theorem readWith_fallThrough {s : State} {k : HookKind} {a : Addr} (snap : Snapshot)
    (hnone : ∀ m ∈ s.host, m = .answer .noOverride) (hlen : (s.dispatchList k a).length ≤ s.host.length) :
    readWith (callbacks s) k snap a s
      = .ok (s.mem.read a) (s.afterCalls snap a (s.dispatchList k a) (s.host.drop (s.dispatchList k a).length)) :=
  readWith_answered snap .fallThrough (State.host_eq_replicate_append hnone hlen)

/-- Settles O53: each access is a dispatch over its own list, from the state with the access recorded. -/
theorem dispatchCallsMatchingHooksInOrder : Obligations.DispatchCallsMatchingHooksInOrder := by
  intro s a w hs call called whole
  refine ⟨?_, ?_, ?_, fun hnone => ⟨fun hlen => ?_, fun hlen => ?_⟩⟩
  · exact readWith_called _ s.file.snapshot a .preRead (s := s.logged (.read a)) hs
  · exact readWith_called _ s.file.snapshot a .preExecute (s := s.logged (.fetch a)) hs
  · obtain ⟨l, hprefix, hne, hl, hall⟩ := dispatchWrite_called s.host.length s.file.snapshot a
      (s.dispatchList .postWrite a) (s := (s.logged (.write a w)).stored a w) hs
    refine ⟨l, ⟨hprefix, hne, ?_⟩, hall⟩
    have hcalls := hl.calls
    rwa [State.stored_mem, Memory.read_write_same] at hcalls
  · exact readWith_fallThrough (s := s.logged (.read a)) s.file.snapshot hnone hlen
  · exact readWith_fallThrough (s := s.logged (.fetch a)) s.file.snapshot hnone hlen

end Sys2Proof.Machine
end

section
/-!
PROOFS. One call made inside a callback (20_memory R70, R71; 60_exceptions R419): what the callback goes on from.
-/

namespace Sys2Proof.Machine

theorem writeWith_plain {run : HookCall → Work HookOutcome} {b : Addr} {s : State} (snap : Snapshot) (v : Byte)
    (h : s.dispatchList .postWrite b = []) : writeWith run snap b v s = .ok () (s.stored b v) := by
  show dispatchWrite run snap b (s.dispatchList .postWrite b) (s.stored b v) = _
  rw [h]
  rfl

/-! ## One move of a callback -/

section Moves
variable (n : Nat) (call : HookCall) {s : State} {rest : List HostMove}

theorem runCallback_answer {o : HookOutcome} (hh : s.host = .answer o :: rest) :
    runCallback (n + 1) call s = .ok o { s with host := rest } := by
  simp [runCallback, takeMove, Work.bind_apply, hh]

theorem runCallback_read_plain {b : Addr} (hh : s.host = .read b.toNat :: rest)
    (hl : s.dispatchList .preRead b = []) : runCallback (n + 1) call s
      = runCallback n call ({ s with host := rest }.replied (.byte (s.mem.read b))) := by
  have hread := readWith_plain (run := fun c => runCallback n c) (s := { s with host := rest }) call.snapshot hl
  simp [runCallback, takeMove, Work.bind_apply, hh, b.isLt, nested, hread]

theorem runCallback_write_plain {b : Addr} {v : Nat} (hh : s.host = .write b.toNat v :: rest) (hv : v < 256)
    (hl : s.dispatchList .postWrite b = []) : runCallback (n + 1) call s
      = runCallback n call (({ s with host := rest }.stored b (BitVec.ofNat 8 v)).replied .done) := by
  have hwrite := writeWith_plain (run := fun c => runCallback n c) (s := { s with host := rest })
    call.snapshot (BitVec.ofNat 8 v) hl
  simp [runCallback, takeMove, Work.bind_apply, hh, b.isLt, hv, nested, hwrite]

theorem runCallback_register {g : Trigger} {k : HookKind} {cb : Nat} (hh : s.host = .register g k cb :: rest)
    (hc : g.check k = .ok) : runCallback (n + 1) call s
      = runCallback n call (({ s with host := rest }.register g k cb).replied (.handle s.nextHandle)) := by
  simp [runCallback, takeMove, Work.bind_apply, hh, hc]

theorem runCallback_remove {hd : Nat} (hh : s.host = .remove hd :: rest) : runCallback (n + 1) call s
    = runCallback n call (({ s with host := rest }.unregister hd).replied .done) := by
  simp [runCallback, takeMove, Work.bind_apply, hh]

theorem runCallback_registerSnapshot (hh : s.host = .registerSnapshot :: rest) : runCallback (n + 1) call s
    = runCallback n call ({ s with host := rest }.replied (.snapshot s.file.snapshot)) := by
  simp [runCallback, takeMove, Work.bind_apply, hh]

theorem runCallback_cycleCount (hh : s.host = .cycleCount :: rest) : runCallback (n + 1) call s
    = runCallback n call ({ s with host := rest }.replied (.count s.cycles)) := by
  simp [runCallback, takeMove, Work.bind_apply, hh]

/-- A move that asks for an address outside the space (R51, R55, R410). -/
inductive HostMove.AsksOutside (a : Nat) : HostMove → Prop where
  | read : AsksOutside a (.read a)
  | write (v : Nat) : AsksOutside a (.write a v)
  | register (g : Trigger) (k : HookKind) (cb : Nat) : g.check k = .addressError a → AsksOutside a (.register g k cb)

theorem runCallback_addressError {a : Nat} {m : HostMove} (ha : 65536 ≤ a) (hm : m.AsksOutside a)
    (hh : s.host = m :: rest) : runCallback (n + 1) call s
      = runCallback n call ({ s with host := rest }.replied (.addressError a)) := by
  have hlt := Nat.not_lt.mpr ha
  cases hm with
  | read => simp [runCallback, takeMove, reply, Work.bind_apply, hh, hlt]
  | write v => simp [runCallback, takeMove, reply, Work.bind_apply, hh, hlt]
  | register g k cb hc => simp [runCallback, takeMove, reply, Work.bind_apply, hh, hc]

end Moves

/-! ## A read with one hook, whose callback makes one call -/

/-- The state in which the one callback of a CPU read runs. -/
def State.inCallback (s : State) (a : Addr) (call : HookCall) : State :=
  { s with out := { s.out with accesses := s.out.accesses ++ [.read a], calls := s.out.calls ++ [call] } }

/-- If the callback's first move leads it from its beginning to `t`, where it answers None, the read leaves `t` and gives
the byte stored there (R63). -/
theorem cpuRead_of_move {s t : State} {a : Addr} {v : Byte} {h : Hook} {m : HostMove}
    {rest : List HostMove} (hl : s.dispatchList .preRead a = [h]) (hh : s.host = m :: .answer .noOverride :: rest)
    (ht : t.host = .answer .noOverride :: rest) (hv : t.mem.read a = v)
    (hmove : ∀ n call, runCallback (n + 1) call (s.inCallback a ⟨h.callback, a, s.mem.read a, s.file.snapshot⟩)
      = runCallback n call t) :
    cpuRead a s = .ok v { t with host := rest } := by
  subst hv
  have hrun (call) := (hmove (rest.length + 1) call).trans (runCallback_answer rest.length call ht)
  have hcall : callHook (runCallback (rest.length + 2)) s.file.snapshot a h (s.logged (.read a))
      = .ok .noOverride { t with host := rest } := by
    rw [callHook, Work.bind_ok (Work.get_apply _)]
    exact (Work.bind_ok (Work.set_apply _ _) _).trans (Work.bind_ok (hrun _) _)
  rw [cpuRead_eq, callbacks_eq (n := rest.length + 2) (by simp [hh])]
  refine readWith_of_none (t := { t with host := rest }) ?_
  rw [show (s.logged (.read a)).dispatchList .preRead a = [h] from hl, dispatchRead, Work.bind_ok hcall]
  rfl

/-- Settles O54: each call is the callback's one move before its answer. -/
theorem nestedCallsActAndReply : Obligations.NestedCallsActAndReply := by
  intro s a h m rest hl hh call after
  have of_move {t : State} {v : Byte} := cpuRead_of_move (t := t) (v := v) hl hh
  refine ⟨fun v hv hm hlw => ?_, fun b v hv hb hm hlw => ?_, fun b hm hlb => ?_, fun g k cb hm hc => ?_,
    fun n v hn hm => ?_, fun hd hm => ?_, fun hm => ?_, fun hm => ?_⟩
  · subst hm
    exact of_move rfl (Memory.read_write_same _ a _) fun n c => runCallback_write_plain n c hh hv hlw
  · subst hm
    exact of_move rfl (Memory.read_write_ne _ _ (Ne.symm hb)) fun n c => runCallback_write_plain n c hh hv hlw
  · subst hm
    exact of_move rfl rfl fun n c => runCallback_read_plain n c hh hlb
  · subst hm
    exact of_move rfl rfl fun n c => runCallback_register n c hh hc
  · have hask : m.AsksOutside n := by
      rcases hm with rfl | rfl | ⟨k, cb, rfl⟩ | ⟨hi, k, cb, rfl⟩ | ⟨lo, hlo, k, cb, rfl⟩
      · exact .read
      · exact .write v
      · exact .register _ k cb (Trigger.check_addr_outside hn k)
      · exact .register _ k cb (Trigger.check_range_lo_outside hn hi k)
      · exact .register _ k cb (Trigger.check_range_hi_outside hn hlo k)
    exact of_move rfl rfl fun n c => runCallback_addressError n c hn hask hh
  · subst hm
    exact of_move rfl rfl fun n c => runCallback_remove n c hh
  · subst hm
    exact of_move rfl rfl fun n c => runCallback_registerSnapshot n c hh
  · subst hm
    exact of_move rfl rfl fun n c => runCallback_cycleCount n c hh

end Sys2Proof.Machine
end

section
/-!
PROOFS. What the decoder makes of an opcode byte and as many operand bytes as its descriptor has (30_encoding R103 to
R105): an instruction, in the descriptor's mode.
-/

namespace Sys2Proof

section
variable {m : Mode} {l : List Mode} (b1 b2 : Byte)

theorem MemMode.ofBytes_tag (hl : l ⊆ [.zp, .zpx, .zpy, .abs, .abx, .aby, .izx, .izy]) (hm : l.contains m = true) :
    ∃ r, MemMode.ofBytes m b1 b2 = some r ∧ r.tag = m := by
  have hmem := hl (List.contains_iff_mem.mp hm)
  cases m with
  | zp | zpx | zpy | abs | abx | aby | izx | izy => exact ⟨_, rfl, rfl⟩
  | imp | acc | imm | ind | rel => simp at hmem

theorem ReadMode.ofBytes_tag (hl : l ⊆ [.imm, .zp, .zpx, .zpy, .abs, .abx, .aby, .izx, .izy])
    (hm : l.contains m = true) : ∃ r, ReadMode.ofBytes m b1 b2 = some r ∧ r.tag = m := by
  have hmem := hl (List.contains_iff_mem.mp hm)
  cases m with
  | imm | zp | zpx | zpy | abs | abx | aby | izx | izy => exact ⟨_, rfl, rfl⟩
  | imp | acc | ind | rel => simp at hmem

theorem RmwMode.ofBytes_tag (hl : l ⊆ [.acc, .zp, .zpx, .zpy, .abs, .abx, .aby, .izx, .izy])
    (hm : l.contains m = true) : ∃ r, RmwMode.ofBytes m b1 b2 = some r ∧ r.tag = m := by
  have hmem := hl (List.contains_iff_mem.mp hm)
  cases m with
  | acc | zp | zpx | zpy | abs | abx | aby | izx | izy => exact ⟨_, rfl, rfl⟩
  | imp | imm | ind | rel => simp at hmem

theorem JumpMode.ofBytes_tag (hl : l ⊆ [.abs, .ind]) (hm : l.contains m = true) :
    ∃ r, JumpMode.ofBytes m b1 b2 = some r ∧ r.tag = m := by
  have hmem := hl (List.contains_iff_mem.mp hm)
  cases m with
  | abs | ind => exact ⟨_, rfl, rfl⟩
  | imp | acc | imm | zp | zpx | zpy | abx | aby | izx | izy | rel => simp at hmem

end

/-- An operand form in a mode gives an instruction in that mode. -/
theorem exists_instr_of_form {α : Type} {o : Option α} {tag : α → Mode} {m : Mode} {f : α → Instr}
    (ho : ∃ r, o = some r ∧ tag r = m) (hf : ∀ r, (f r).mode = tag r) : ∃ i, o.map f = some i ∧ i.mode = m := by
  obtain ⟨r, rfl, rfl⟩ := ho
  exact ⟨f r, rfl, hf r⟩

theorem eq_of_contains_singleton {m m' : Mode} (h : [m].contains m' = true) : m = m' :=
  (List.mem_singleton.mp (List.contains_iff_mem.mp h)).symm

/-- A descriptor whose mode is one its operation has gives an instruction in that mode, whatever the bytes. -/
theorem assemble_of_legal (d : Descriptor) (op b1 b2 : Byte) (h : d.operation.modes.contains d.mode = true) :
    ∃ i, assemble d op b1 b2 = some i ∧ i.mode = d.mode := by
  obtain ⟨o, m, operands, cycles, penalty⟩ := d
  replace h : o.modes.contains m = true := h
  cases o with
  | lda | ldx | ldy | adc | sbc | cmp | cpx | cpy | and | ora | eor =>
    exact exists_instr_of_form (ReadMode.ofBytes_tag b1 b2 (by decide) h) fun _ => rfl
  | sta | stx | sty | inc | dec | bit =>
    exact exists_instr_of_form (MemMode.ofBytes_tag b1 b2 (by decide) h) fun _ => rfl
  | asl | lsr | rol | ror =>
    exact exists_instr_of_form (RmwMode.ofBytes_tag b1 b2 (by decide) h) fun _ => rfl
  | jmp => exact exists_instr_of_form (JumpMode.ofBytes_tag b1 b2 (by decide) h) fun _ => rfl
  | jsr | bcc | bcs | beq | bne | bmi | bpl | bvc | bvs | tax | tay | txa | tya | tsx | txs | inx | iny | dex | dey
  | rts | brk | rti | nop | pha | php | pla | plp | clc | sec | cli | sei | cld | sed | clv | illegal =>
    exact ⟨_, rfl, eq_of_contains_singleton h⟩

/-- An opcode byte with its operand bytes decodes, with no byte left (R105). -/
theorem decodeBytes_lookup {op : Byte} {operands : List Byte} (h : operands.length = (lookup op).operandBytes) :
    ∃ i, decodeBytes (op :: operands) = .ok (i, []) ∧ i.mode = (lookup op).mode := by
  obtain ⟨i, hi, hmode⟩ :=
    assemble_of_legal (lookup op) op (operands.getD 0 0) (operands.getD 1 0) (lookup_mode_legal op)
  refine ⟨i, ?_, hmode⟩
  rw [decodeBytes, if_neg (Nat.not_lt.mpr (Nat.le_of_eq h.symm)), hi, ← h, List.drop_length]

theorem Mode.operandBytes_le (m : Mode) : m.operandBytes ≤ 2 := by
  cases m <;> decide

/-! ## How many data accesses an instruction makes after its fetch (40_execution_cycle R140), at most -/

/-- The pointer bytes a form reads. -/
def MemMode.accesses : MemMode → Nat
  | .zp _ | .zpx _ | .zpy _ | .abs _ | .abx _ | .aby _ => 0
  | .izx _ | .izy _ => 2

def ReadMode.accesses : ReadMode → Nat
  | .imm _ => 0
  | .mem m => m.accesses + 1

def RmwMode.accesses : RmwMode → Nat
  | .acc => 0
  | .mem m => m.accesses + 2

def JumpMode.accesses : JumpMode → Nat
  | .abs _ => 0
  | .ind _ => 2

def Instr.accesses : Instr → Nat
  | .lda m | .ldx m | .ldy m | .adc m | .sbc m | .cmp m | .cpx m | .cpy m | .and m | .ora m | .eor m => m.accesses
  | .bit m | .sta m | .stx m | .sty m => m.accesses + 1
  | .inc m | .dec m => m.accesses + 2
  | .asl m | .lsr m | .rol m | .ror m => m.accesses
  | .jmp m => m.accesses
  | .pha | .php | .pla | .plp => 1
  | .jsr _ | .rts => 2
  | .rti => 3
  | .brk => 5
  | .bcc _ | .bcs _ | .beq _ | .bne _ | .bmi _ | .bpl _ | .bvc _ | .bvs _ | .nop | .illegal _ => 0
  | .tax | .tay | .txa | .tya | .tsx | .txs | .inx | .iny | .dex | .dey => 0
  | .clc | .sec | .cli | .sei | .cld | .sed | .clv => 0

theorem MemMode.accesses_le (m : MemMode) : m.tag.operandBytes + m.accesses ≤ 3 := by
  cases m <;> simp [tag, Mode.operandBytes, accesses]

theorem ReadMode.accesses_le (m : ReadMode) : m.tag.operandBytes + m.accesses ≤ 4 := by
  cases m with
  | imm b => simp [tag, Mode.operandBytes, accesses]
  | mem m => exact Nat.succ_le_succ m.accesses_le

theorem RmwMode.accesses_le (m : RmwMode) : m.tag.operandBytes + m.accesses ≤ 5 := by
  cases m with
  | acc => simp [tag, Mode.operandBytes, accesses]
  | mem m => exact Nat.add_le_add_right m.accesses_le 2

/-- With the opcode fetch no instruction makes more than six accesses. -/
theorem Instr.accesses_le (i : Instr) : i.mode.operandBytes + i.accesses ≤ 5 := by
  cases i with
  | lda m | ldx m | ldy m | adc m | sbc m | cmp m | cpx m | cpy m | and m | ora m | eor m =>
    exact Nat.le_succ_of_le m.accesses_le
  | bit m | sta m | stx m | sty m => exact Nat.le_succ_of_le (Nat.succ_le_succ m.accesses_le)
  | inc m | dec m => exact Nat.add_le_add_right m.accesses_le 2
  | asl m | lsr m | rol m | ror m => exact m.accesses_le
  | jmp m => cases m <;> simp [mode, JumpMode.tag, Mode.operandBytes, accesses, JumpMode.accesses]
  | bcc | bcs | beq | bne | bmi | bpl | bvc | bvs | jsr | tax | tay | txa | tya | tsx | txs | inx | iny | dex | dey | rts
  | brk | rti | nop | pha | php | pla | plp | clc | sec | cli | sei | cld | sed | clv | illegal =>
    simp [mode, Mode.operandBytes, accesses]

end Sys2Proof
end

section
/-!
PROOFS. Hooks that answer None are transparent (20_memory R68): every piece of work runs the same with no hook registered,
as long as there are answers enough for the accesses it makes.
-/

namespace Sys2Proof.Machine

variable {α β : Type}

/-- Every host move still to come answers None, and there are enough for `n` accesses that call every hook. -/
structure State.Idle (n : Nat) (s : State) : Prop where
  none : ∀ m ∈ s.host, m = .answer .noOverride
  enough : n * s.hooks.length ≤ s.host.length

/-- The same state with no hook registered, no callback called, and these host moves. -/
def State.unhooked (s : State) (moves : List HostMove) : State :=
  { s with hooks := [], host := moves, out := { s.out with calls := [] } }

/-- Work that makes at most `k` accesses and runs alike with hooks that answer None and with no hook registered. -/
def Work.Transparent (k : Nat) (w : Work α) : Prop :=
  ∀ n s, s.Idle (k + n) → ∃ v t, w s = .ok v t ∧ (∀ moves, w (s.unhooked moves) = .ok v (t.unhooked moves))
    ∧ t.Idle n ∧ t.hooks = s.hooks

theorem State.Idle.mono {j k : Nat} {s : State} (h : s.Idle k) (hjk : j ≤ k) : s.Idle j :=
  ⟨h.none, (Nat.mul_le_mul_right _ hjk).trans h.enough⟩

/-- Calling the hooks of one access uses up one answer for each. -/
theorem State.Idle.afterCalls {n : Nat} {s : State} {l : List Hook} (h : s.Idle (1 + n))
    (hl : l.length ≤ s.hooks.length) (snap : Snapshot) (a : Addr) :
    (s.afterCalls snap a l (s.host.drop l.length)).Idle n := by
  refine ⟨fun m hm => h.none m (List.mem_of_mem_drop hm), ?_⟩
  have henough := h.enough
  rw [Nat.add_mul, Nat.one_mul] at henough
  show n * s.hooks.length ≤ (s.host.drop l.length).length
  rw [List.length_drop]
  omega

theorem State.Idle.le_host {n : Nat} {s : State} {l : List Hook} (h : s.Idle (1 + n))
    (hl : l.length ≤ s.hooks.length) : l.length ≤ s.host.length := by
  have henough := h.enough
  rw [Nat.add_mul, Nat.one_mul] at henough
  omega

theorem State.dispatchList_length_le (s : State) (k : HookKind) (a : Addr) :
    (s.dispatchList k a).length ≤ s.hooks.length :=
  List.length_filter_le _ _

/-! ## Sequences -/

theorem Work.Transparent.pure (v : α) : (Pure.pure v : Work α).Transparent 0 :=
  fun n s h => ⟨v, s, rfl, fun _ => rfl, h.mono (Nat.le_add_left n 0), rfl⟩

theorem Work.Transparent.bind {j k : Nat} {w : Work α} {f : α → Work β} (h : w.Transparent j)
    (hf : ∀ v, (f v).Transparent k) : (w >>= f).Transparent (j + k) := by
  intro n s hs
  obtain ⟨v, t, hw, hw', ht, hooks⟩ := h (k + n) s (Nat.add_assoc j k n ▸ hs)
  obtain ⟨x, u, hx, hx', hu, hooks'⟩ := hf v n t ht
  exact ⟨x, u, (Work.bind_ok hw f).trans hx, fun m => (Work.bind_ok (hw' m) f).trans (hx' m), hu, hooks'.trans hooks⟩

/-- A sequence whose first part makes no access. -/
theorem Work.Transparent.bind_zero {k : Nat} {w : Work α} {f : α → Work β} (h : w.Transparent 0)
    (hf : ∀ v, (f v).Transparent k) : (w >>= f).Transparent k :=
  Nat.zero_add k ▸ h.bind hf

/-- Work that reads what the hooks, the host's moves and the calls have no part in. -/
theorem Work.Transparent.get_bind {k : Nat} {f : State → Work β} (hf : ∀ s, (f s).Transparent k)
    (h : ∀ s moves, f (s.unhooked moves) = f s) : (get >>= f : Work β).Transparent k := by
  intro n s hs
  obtain ⟨v, t, hw, hw', ht, hooks⟩ := hf s n s hs
  exact ⟨v, t, hw, fun m => (congrFun (h s m) (s.unhooked m)).trans (hw' m), ht, hooks⟩

/-- A change that has nothing to do with hooks. -/
theorem modify_transparent {f : State → State} (h : ∀ s moves, f (s.unhooked moves) = (f s).unhooked moves)
    (hhost : ∀ s, (f s).host = s.host) (hhooks : ∀ s, (f s).hooks = s.hooks) :
    (modify f : Work PUnit).Transparent 0 := by
  intro n s hs
  refine ⟨⟨⟩, f s, rfl, fun m => congrArg _ (h s m), ⟨?_, ?_⟩, hhooks s⟩
  · rw [hhost s]
    exact hs.none
  · rw [hhost s, hhooks s]
    exact (hs.mono (Nat.le_add_left n 0)).enough

/-! ## The operations -/

theorem regs_transparent : regs.Transparent 0 :=
  .get_bind (fun s => .pure s.pend) fun _ _ => rfl

theorem modifyRegs_transparent (f : RegFile → RegFile) : (modifyRegs f).Transparent 0 :=
  modify_transparent (fun _ _ => rfl) (fun _ => rfl) fun _ => rfl

theorem setPc_transparent (a : Addr) : (setPc a).Transparent 0 := modifyRegs_transparent _

theorem emitIllegal_transparent (op : Byte) : (emitIllegal op).Transparent 0 :=
  modify_transparent (fun _ _ => rfl) (fun _ => rfl) fun _ => rfl

theorem latch_transparent (op : Byte) : (modify fun s => s.latched op : Work PUnit).Transparent 0 :=
  modify_transparent (fun _ _ => rfl) (fun _ => rfl) fun _ => rfl

/-- A recorded read or fetch: both give the stored byte. -/
theorem loggedRead_transparent (acc : Access) (k : HookKind) (a : Addr) : Work.Transparent 1 fun s =>
    readWith (callbacks (s.logged acc)) k s.file.snapshot a (s.logged acc) := by
  intro n s hs
  have hidle : (s.logged acc).Idle (1 + n) := ⟨hs.none, hs.enough⟩
  have hlen := (s.logged acc).dispatchList_length_le k a
  refine ⟨_, _, readWith_fallThrough s.file.snapshot hidle.none (hidle.le_host hlen), fun m => ?_,
    hidle.afterCalls hlen _ a, rfl⟩
  exact readWith_plain _ (State.dispatchList_quiet (s := (s.unhooked m).logged acc) rfl k a)

theorem cpuRead_transparent (a : Addr) : (cpuRead a).Transparent 1 := loggedRead_transparent (.read a) .preRead a

theorem cpuFetch_transparent (a : Addr) : (cpuFetch a).Transparent 1 := loggedRead_transparent (.fetch a) .preExecute a

/-- A write's dispatch whose callbacks all answer None completes (R65). -/
theorem dispatchWrite_noOverride {s : State} {rest : List HostMove} (snap : Snapshot) (a : Addr) (l : List Hook)
    (hh : s.host = List.replicate l.length (.answer .noOverride) ++ rest) :
    dispatchWrite (callbacks s) snap a l s = .ok () (s.afterCalls snap a l rest) := by
  cases l with
  | nil => rw [State.afterCalls_nil snap a (by simpa using hh)]; rfl
  | cons h l =>
    obtain ⟨n, hn⟩ := callbacks_of_host (s := s) (by simp [hh, List.replicate_succ])
    have skip := dispatchWrite_skip n snap a (h :: l) [] s rest hh
    rw [List.append_nil] at skip
    exact hn ▸ skip

theorem cpuWrite_transparent (a : Addr) (v : Byte) : (cpuWrite a v).Transparent 1 := by
  intro n s hs
  have hidle : ((s.logged (.write a v)).stored a v).Idle (1 + n) := ⟨hs.none, hs.enough⟩
  have hlen := s.dispatchList_length_le .postWrite a
  refine ⟨(), _, ?_, fun m => cpuWrite_quiet a v rfl, hidle.afterCalls hlen s.file.snapshot a, rfl⟩
  exact dispatchWrite_noOverride _ a _ (State.host_eq_replicate_append hidle.none (hidle.le_host hlen))

theorem push_transparent (v : Byte) : (push v).Transparent 1 :=
  regs_transparent.bind_zero fun _ => (cpuWrite_transparent _ _).bind fun _ => modifyRegs_transparent _

theorem pull_transparent : pull.Transparent 1 :=
  (modifyRegs_transparent _).bind_zero fun _ => regs_transparent.bind_zero fun _ => cpuRead_transparent _

theorem pushAddr_transparent (a : Addr) : (pushAddr a).Transparent 2 :=
  (push_transparent _).bind fun _ => push_transparent _

theorem pullAddr_transparent : pullAddr.Transparent 2 :=
  pull_transparent.bind fun _ => pull_transparent.bind fun _ => .pure _

theorem readVector_transparent (a : Addr) : (readVector a).Transparent 2 :=
  (cpuRead_transparent _).bind fun _ => (cpuRead_transparent _).bind fun _ => .pure _

theorem takeBreak_transparent : takeBreak.Transparent 5 :=
  .get_bind (fun _ => (pushAddr_transparent _).bind fun _ => regs_transparent.bind_zero fun _ =>
    (push_transparent _).bind fun _ => (modifyRegs_transparent _).bind_zero fun _ =>
      (readVector_transparent _).bind fun _ => setPc_transparent _) fun _ _ => rfl

theorem returnFromBreak_transparent : returnFromBreak.Transparent 3 :=
  pull_transparent.bind fun _ => (modifyRegs_transparent _).bind_zero fun _ =>
    pullAddr_transparent.bind fun _ => setPc_transparent _

/-! ## The operand forms and the shapes of work -/

theorem effAddr_transparent (m : MemMode) : (effAddr m).Transparent m.accesses := by
  refine regs_transparent.bind_zero fun r => ?_
  cases m with
  | izx | izy => exact (cpuRead_transparent _).bind fun _ => (cpuRead_transparent _).bind fun _ => .pure _
  | zp | zpx | zpy | abs | abx | aby => exact .pure _

theorem readOperand_transparent (m : ReadMode) : (readOperand m).Transparent m.accesses := by
  cases m with
  | imm b => exact .pure _
  | mem m => exact (effAddr_transparent m).bind fun _ => (cpuRead_transparent _).bind fun _ => .pure _

theorem jumpTarget_transparent (m : JumpMode) : (jumpTarget m).Transparent m.accesses := by
  cases m with
  | abs w => exact .pure _
  | ind w => exact (cpuRead_transparent _).bind fun _ => (cpuRead_transparent _).bind fun _ => .pure _

theorem readWork_transparent (m : ReadMode) (f : RegFile → Byte → RegFile) : (readWork m f).Transparent m.accesses :=
  (readOperand_transparent m).bind fun _ => (modifyRegs_transparent _).bind fun _ => .pure _

theorem storeWork_transparent (m : MemMode) (f : RegFile → Byte) : (storeWork m f).Transparent (m.accesses + 1) :=
  (effAddr_transparent m).bind fun _ => regs_transparent.bind_zero fun _ =>
    (cpuWrite_transparent _ _).bind fun _ => .pure _

theorem modifyWork_transparent (m : MemMode) (f : RegFile → Byte → ByteAndRegs) :
    (modifyWork m f).Transparent (m.accesses + 2) :=
  (effAddr_transparent m).bind fun _ => (cpuRead_transparent _).bind fun _ => regs_transparent.bind_zero fun _ =>
    (cpuWrite_transparent _ _).bind fun _ => (modifyRegs_transparent _).bind fun _ => .pure _

theorem shiftWork_transparent (m : RmwMode) (f : RegFile → Byte → ByteAndRegs) :
    (shiftWork m f).Transparent m.accesses := by
  cases m with
  | acc => exact (modifyRegs_transparent _).bind fun _ => .pure _
  | mem m => exact modifyWork_transparent m f

theorem regWork_transparent (f : RegFile → RegFile) : (regWork f).Transparent 0 :=
  (modifyRegs_transparent _).bind fun _ => .pure _

theorem branchWork_transparent (c : RegFile → Bool) (b : Byte) : (branchWork c b).Transparent 0 := by
  refine regs_transparent.bind_zero fun r => ?_
  dsimp only
  split
  · exact (setPc_transparent _).bind fun _ => .pure _
  · exact .pure _

/-- An instruction on registers alone is work that hooks have no part in. -/
theorem exec_transparent_of_regWork {i : Instr} {s s' : State}
    (h : ∀ t, exec i t = conclude i (regWork (i.regsAfter 0 0)) t) (hi : i.accesses = 0) :
    ∃ w : Work Path, exec i s = conclude i w s ∧ exec i s' = conclude i w s' ∧ w.Transparent i.accesses :=
  ⟨_, h s, h s', hi ▸ regWork_transparent _⟩

/-- exec is work that hooks answering None do not change, up to the accesses of the instruction. -/
theorem exec_transparent (i : Instr) {s s' : State} (h : s.file = s'.file) :
    ∃ w : Work Path, exec i s = conclude i w s ∧ exec i s' = conclude i w s' ∧ w.Transparent i.accesses := by
  cases i with
  | lda | ldx | ldy | adc | sbc | cmp | cpx | cpy | and | ora | eor =>
    exact ⟨_, rfl, rfl, readWork_transparent _ _⟩
  | bit m => exact ⟨_, rfl, rfl, readWork_transparent (.mem m) _⟩
  | sta | stx | sty => exact ⟨_, rfl, rfl, storeWork_transparent _ _⟩
  | inc | dec => exact ⟨_, rfl, rfl, modifyWork_transparent _ _⟩
  | asl | lsr | rol | ror => exact ⟨_, rfl, rfl, shiftWork_transparent _ _⟩
  | tax | tay | txa | tya | tsx | txs | inx | iny | dex | dey | clc | sec | cli | sei | cld | sed | clv =>
    exact exec_transparent_of_regWork (fun _ => rfl) rfl
  | bcc | bcs | beq | bne | bmi | bpl | bvc | bvs => exact ⟨_, rfl, rfl, branchWork_transparent _ _⟩
  | jmp m => exact ⟨_, rfl, rfl, (jumpTarget_transparent m).bind fun _ => (setPc_transparent _).bind fun _ => .pure _⟩
  | jsr w =>
    exact ⟨_, rfl, by rw [h]; rfl, (pushAddr_transparent _).bind fun _ => (setPc_transparent w).bind fun _ => .pure _⟩
  | rts => exact ⟨_, rfl, rfl, pullAddr_transparent.bind fun _ => (setPc_transparent _).bind fun _ => .pure _⟩
  | brk => exact ⟨_, rfl, rfl, takeBreak_transparent.bind fun _ => .pure _⟩
  | rti => exact ⟨_, rfl, rfl, returnFromBreak_transparent.bind fun _ => .pure _⟩
  | nop => exact ⟨_, rfl, rfl, .pure _⟩
  | pha | php =>
    exact ⟨_, rfl, rfl, regs_transparent.bind_zero fun _ => (push_transparent _).bind fun _ => .pure _⟩
  | pla | plp =>
    exact ⟨_, rfl, rfl, pull_transparent.bind fun _ => (modifyRegs_transparent _).bind fun _ => .pure _⟩
  | illegal op => exact ⟨_, rfl, rfl, (emitIllegal_transparent op).bind fun _ => .pure _⟩

/-! ## The fetch and the step -/

theorem fetchOpcode_transparent : fetchOpcode.Transparent 1 :=
  regs_transparent.bind_zero fun _ => (cpuFetch_transparent _).bind fun op => (latch_transparent op).bind fun _ =>
    (modifyRegs_transparent _).bind fun _ => .pure _

theorem fetchOperand_transparent : fetchOperand.Transparent 1 :=
  regs_transparent.bind_zero fun _ => (cpuRead_transparent _).bind fun _ => (modifyRegs_transparent _).bind fun _ =>
    .pure _

theorem fetchOperands_transparent (n : Nat) : (fetchOperands n).Transparent n := by
  induction n with
  | zero => exact .pure _
  | succ n ih =>
    have h : (fetchOperands (n + 1)).Transparent (1 + n) :=
      fetchOperand_transparent.bind fun _ => ih.bind fun _ => .pure _
    rwa [Nat.add_comm 1 n] at h

theorem fetchOperands_length {n : Nat} {s t : State} {l : List Byte} (h : fetchOperands n s = .ok l t) :
    l.length = n := by
  induction n generalizing s l with
  | zero =>
    cases h
    rfl
  | succ n ih =>
    obtain ⟨b, u, -, h⟩ := Work.of_bind_ok h
    obtain ⟨rest, u', hrest, h⟩ := Work.of_bind_ok h
    cases h
    exact congrArg Nat.succ (ih hrest)

/-- What a fetch gives, from the opcode byte and the operand bytes it fetched. -/
theorem fetchInstr_of_decode {s t u : State} {op : Byte} {operands rest : List Byte} {i : Instr}
    (hop : fetchOpcode s = .ok op t) (hoperands : fetchOperands (lookup op).operandBytes t = .ok operands u)
    (hdecode : decodeBytes (op :: operands) = .ok (i, rest)) : fetchInstr s = .ok i u := by
  rw [fetchInstr, Work.bind_ok hop, Work.bind_ok hoperands, hdecode]
  rfl

/-- The fetch of a step gives the same instruction with no hook registered, and leaves answers for the rest of the
step. -/
theorem fetchInstr_transparent {s : State} (hs : s.Idle 6) :
    ∃ i t, fetchInstr s = .ok i t ∧ (∀ moves, fetchInstr (s.unhooked moves) = .ok i (t.unhooked moves))
      ∧ t.Idle i.accesses ∧ t.hooks = s.hooks := by
  obtain ⟨op, t, hop, hop', ht, hooks⟩ := fetchOpcode_transparent 5 s hs
  have hbytes : (lookup op).operandBytes ≤ 5 :=
    lookup_operandBytes op ▸ (lookup op).mode.operandBytes_le.trans (by decide)
  obtain ⟨operands, u, hl, hl', hu, hooks'⟩ :=
    fetchOperands_transparent (lookup op).operandBytes (5 - (lookup op).operandBytes) t
      (ht.mono (Nat.add_sub_of_le hbytes).le)
  obtain ⟨i, hi, hmode⟩ := decodeBytes_lookup (fetchOperands_length hl)
  refine ⟨i, u, fetchInstr_of_decode hop hl hi, fun m => fetchInstr_of_decode (hop' m) (hl' m) hi, hu.mono ?_,
    hooks'.trans hooks⟩
  have haccesses := i.accesses_le
  rw [hmode, ← lookup_operandBytes] at haccesses
  omega

/-- A step whose callbacks all answer None commits a state that differs from what the step without hooks commits in
nothing but the hooks, the host's moves and the record of calls. -/
theorem step_transparent {s : State} (hrun : s.status = .running) (hs : s.begin.Idle 6) :
    ∃ (u : State) (n : Nat), step s = .next (u.commit n) ∧ step { s with hooks := [] } = .next ((u.unhooked s.host).commit n)
      ∧ u.hooks = s.hooks := by
  obtain ⟨i, t, hf, hf', ht, hooks⟩ := fetchInstr_transparent hs
  obtain ⟨w, he, he', hw⟩ := exec_transparent i (s := t) (s' := t.unhooked s.host) rfl
  obtain ⟨p, u, hu, hu', -, hooks'⟩ := hw 0 t ht
  refine ⟨u, i.cycles p, ?_, ?_, hooks'.trans hooks⟩
  · rw [step_running hrun, hf, afterFetch, he, conclude_ok hu]
  · rw [step_running (s := { s with hooks := [] }) hrun]
    have hbegin : ({ s with hooks := [] } : State).begin = s.begin.unhooked s.host := rfl
    rw [hbegin, hf', afterFetch, he', conclude_ok (hu' s.host)]

/-- Settles O19: six accesses are the most a step makes, so the answers suffice. -/
theorem unansweringHooksAreTransparent : Obligations.UnansweringHooksAreTransparent := by
  intro s hrun hnone henough
  obtain ⟨u, n, hstep, hstep', hooks⟩ := step_transparent hrun ⟨hnone, henough⟩
  exact ⟨_, _, hstep, hstep', rfl, rfl, rfl, rfl, rfl, rfl, rfl, hooks⟩

end Sys2Proof.Machine
end

section
/-!
PROOFS. The encoder's table against the ROM (30_encoding R106, R107): which opcode byte an instruction has, and that an
instruction is well-formed exactly when it has one.
-/

namespace Sys2Proof

/-- Each opcode byte the encoder has for an operation is a row of that operation in the ROM, in the same mode. -/
theorem Operation.lookup_of_mem_opcodes {o : Operation} {m : Mode} {op : Byte} (h : (m, op) ∈ o.opcodes) :
    (lookup op).operation = o ∧ (lookup op).mode = m := by
  have rows : ∀ p ∈ o.opcodes, (lookup p.2).operation = o ∧ (lookup p.2).mode = p.1 := by
    cases o <;> decide +kernel
  exact rows _ h

/-- The encoder has an opcode byte for each mode of a documented operation. -/
theorem Operation.exists_opcode {o : Operation} {m : Mode} (ho : o ≠ .illegal) (hm : m ∈ o.modes) :
    ∃ op, o.opcodes.lookup m = some op := by
  have covered : o = .illegal ∨ ∀ m ∈ o.modes, (o.opcodes.lookup m).isSome = true := by
    cases o <;> decide
  exact Option.isSome_iff_exists.mp (covered.resolve_left ho m hm)

/-- The encoder's opcode byte of a documented operation in a mode is the one the ROM has the two at. -/
theorem Operation.opcodes_lookup_eq_some_iff {o : Operation} (ho : o ≠ .illegal) {m : Mode} {op : Byte} :
    o.opcodes.lookup m = some op ↔ (lookup op).operation = o ∧ (lookup op).mode = m := by
  constructor
  · intro h
    obtain ⟨l₁, l₂, hl, -⟩ := List.lookup_eq_some_iff.mp h
    exact lookup_of_mem_opcodes (by simp [hl])
  · rintro ⟨rfl, rfl⟩
    exact opcodes_lookup op ho

theorem Instr.illegal_or_documented (i : Instr) : (∃ b, i = .illegal b) ∨ i.operation ≠ .illegal := by
  cases i with
  | illegal b => exact .inl ⟨b, rfl⟩
  | _ => exact .inr nofun

theorem Instr.opcode?_of_documented {i : Instr} (h : i.operation ≠ .illegal) :
    i.opcode? = i.operation.opcodes.lookup i.mode := by
  unfold opcode?
  split
  · exact absurd rfl h
  · rfl

/-- The opcode byte of an instruction: the ROM has its operation and mode there, and an ILLEGAL keeps its own byte. -/
theorem Instr.opcode?_eq_some_iff {i : Instr} {op : Byte} :
    i.opcode? = some op ↔
      i.operation = (lookup op).operation ∧ i.mode = (lookup op).mode ∧ ∀ b, i = .illegal b → b = op := by
  obtain ⟨b, rfl⟩ | h := i.illegal_or_documented
  · constructor
    · intro hop
      obtain ⟨hb, rfl⟩ : illegalBytes.contains b = true ∧ b = op := by simpa [opcode?] using hop
      rw [lookup_illegal hb]
      exact ⟨rfl, rfl, fun _ h => (illegal.inj h).symm⟩
    · rintro ⟨hop, -, hb⟩
      obtain rfl := hb b rfl
      exact if_pos ((lookup_operation_illegal b).mp hop.symm)
  · have hb : ∀ b, i = .illegal b → b = op := by
      rintro b rfl
      exact absurd rfl h
    rw [opcode?_of_documented h, Operation.opcodes_lookup_eq_some_iff h, eq_comm, eq_comm (a := (lookup op).mode)]
    exact ⟨fun ⟨ho, hm⟩ => ⟨ho, hm, hb⟩, fun ⟨ho, hm, _⟩ => ⟨ho, hm⟩⟩

theorem Instr.wf_iff_opcode? (i : Instr) : i.wf = true ↔ ∃ op, i.opcode? = some op := by
  obtain ⟨b, rfl⟩ | h := i.illegal_or_documented
  · simp [wf, byteOk, opcode?, operation, mode, Operation.modes]
  · have hbyte : i.byteOk = true := by
      unfold byteOk
      split
      · exact absurd rfl h
      · rfl
    rw [wf, hbyte, Bool.and_true]
    constructor
    · intro hm
      rw [opcode?_of_documented h]
      exact Operation.exists_opcode h (List.contains_iff_mem.mp hm)
    · rintro ⟨op, hop⟩
      obtain ⟨ho, hm, -⟩ := opcode?_eq_some_iff.mp hop
      rw [ho, hm]
      exact lookup_mode_legal op

theorem encode_of_opcode? {i : Instr} {op : Byte} (h : i.opcode? = some op) : encode i = op :: i.operands := by
  rw [encode, h]

/-- Settles O4: the encoder's table gives back the byte of a documented row, and the ILLEGAL rows are those of R107. -/
theorem opcodeMapIsUnambiguous : Obligations.OpcodeMapIsUnambiguous := by
  refine ⟨by decide +kernel, fun a b ha ho hm => ?_, fun a => ?_, fun a ha => ?_⟩
  · have hb := opcodes_lookup b (ho ▸ ha)
    rw [← ho, ← hm, opcodes_lookup a ha] at hb
    exact Option.some.inj hb
  · rw [lookup_operation_illegal, List.contains_iff_mem]
  · exact lookup_illegal (List.contains_iff_mem.mpr ha)

/-- Settles O6, by evaluation of the 256 rows of the ROM. -/
theorem penaltyColumnMarksReadsAndBranches : Obligations.PenaltyColumnMarksReadsAndBranches := by
  refine ⟨?_, ?_, ?_, ?_⟩ <;> decide +kernel

/-- Settles O5, by evaluation of the decoder on the ten words. -/
theorem specWordsDecode : Obligations.SpecWordsDecode :=
  ⟨rfl, rfl, rfl, rfl, rfl, rfl, rfl, rfl, rfl, rfl⟩

end Sys2Proof
end

section
/-!
PROOFS. The decoder against the encoder (30_encoding R100, R103, R114): each says which operand bytes a form has, so
what decodes is exactly what encodes.
-/

namespace Sys2Proof

variable {b1 b2 : Byte}

theorem addrBytes_hiLo (hi lo : Byte) : addrBytes (hiLo hi lo) = [lo, hi] := by
  rw [addrBytes, Machine.hiByte_hiLo, Machine.loByte_hiLo]

theorem hiLo_of_addrBytes {w : Addr} (h : addrBytes w = [b1, b2]) : hiLo b2 b1 = w := by
  cases h
  exact Machine.hiLo_hiByte_loByte w

/-! ## The operand forms: each is read from its own bytes in its own mode, and from no others -/

theorem MemMode.ofBytes_eq_some_iff {t : Mode} {m : MemMode} :
    MemMode.ofBytes t b1 b2 = some m ↔ m.tag = t ∧ m.bytes = [b1, b2].take t.operandBytes := by
  constructor
  · intro h
    cases t with
    | zp | zpx | zpy | izx | izy =>
      cases h
      exact ⟨rfl, rfl⟩
    | abs | abx | aby =>
      cases h
      exact ⟨rfl, addrBytes_hiLo b2 b1⟩
    | imp | acc | imm | ind | rel => cases h
  · rintro ⟨rfl, h⟩
    cases m with
    | zp | zpx | zpy | izx | izy =>
      cases h
      rfl
    | abs w | abx w | aby w =>
      obtain rfl := hiLo_of_addrBytes h
      rfl

theorem ReadMode.ofBytes_eq_some_iff {t : Mode} {m : ReadMode} :
    ReadMode.ofBytes t b1 b2 = some m ↔ m.tag = t ∧ m.bytes = [b1, b2].take t.operandBytes := by
  constructor
  · unfold ofBytes
    split
    · rintro ⟨⟩
      exact ⟨rfl, rfl⟩
    · intro h
      obtain ⟨m', hm, rfl⟩ := Option.map_eq_some_iff.mp h
      exact MemMode.ofBytes_eq_some_iff.mp hm
  · rintro ⟨rfl, h⟩
    cases m with
    | imm b =>
      cases h
      rfl
    | mem m =>
      have hm := congrArg (Option.map ReadMode.mem) (MemMode.ofBytes_eq_some_iff.mpr ⟨rfl, h⟩ : _ = some m)
      cases m <;> exact hm

theorem RmwMode.ofBytes_eq_some_iff {t : Mode} {m : RmwMode} :
    RmwMode.ofBytes t b1 b2 = some m ↔ m.tag = t ∧ m.bytes = [b1, b2].take t.operandBytes := by
  constructor
  · unfold ofBytes
    split
    · rintro ⟨⟩
      exact ⟨rfl, rfl⟩
    · intro h
      obtain ⟨m', hm, rfl⟩ := Option.map_eq_some_iff.mp h
      exact MemMode.ofBytes_eq_some_iff.mp hm
  · rintro ⟨rfl, h⟩
    cases m with
    | acc => rfl
    | mem m =>
      have hm := congrArg (Option.map RmwMode.mem) (MemMode.ofBytes_eq_some_iff.mpr ⟨rfl, h⟩ : _ = some m)
      cases m <;> exact hm

theorem JumpMode.ofBytes_eq_some_iff {t : Mode} {m : JumpMode} :
    JumpMode.ofBytes t b1 b2 = some m ↔ m.tag = t ∧ m.bytes = [b1, b2].take t.operandBytes := by
  constructor
  · intro h
    cases t with
    | abs | ind =>
      cases h
      exact ⟨rfl, addrBytes_hiLo b2 b1⟩
    | imp | acc | imm | zp | zpx | zpy | abx | aby | izx | izy | rel => cases h
  · rintro ⟨rfl, h⟩
    cases m with
    | abs w | ind w =>
      obtain rfl := hiLo_of_addrBytes h
      rfl

/-! ## The instruction of a descriptor and its bytes -/

/-- The instruction assembled has the descriptor's operation and mode, and its operand bytes are the ones read. -/
theorem operands_of_assemble {d : Descriptor} {op : Byte} {i : Instr}
    (hlegal : d.operation.modes.contains d.mode = true) (h : assemble d op b1 b2 = some i) :
    i.operation = d.operation ∧ i.mode = d.mode ∧ i.operands = [b1, b2].take d.mode.operandBytes := by
  obtain ⟨o, m, operands, cycles, penalty⟩ := d
  replace hlegal : o.modes.contains m = true := hlegal
  cases o with
  | lda | ldx | ldy | adc | sbc | cmp | cpx | cpy | and | ora | eor =>
    obtain ⟨r, hr, rfl⟩ := Option.map_eq_some_iff.mp h
    exact ⟨rfl, ReadMode.ofBytes_eq_some_iff.mp hr⟩
  | sta | stx | sty | inc | dec | bit =>
    obtain ⟨r, hr, rfl⟩ := Option.map_eq_some_iff.mp h
    exact ⟨rfl, MemMode.ofBytes_eq_some_iff.mp hr⟩
  | asl | lsr | rol | ror =>
    obtain ⟨r, hr, rfl⟩ := Option.map_eq_some_iff.mp h
    exact ⟨rfl, RmwMode.ofBytes_eq_some_iff.mp hr⟩
  | jmp =>
    obtain ⟨r, hr, rfl⟩ := Option.map_eq_some_iff.mp h
    exact ⟨rfl, JumpMode.ofBytes_eq_some_iff.mp hr⟩
  | jsr =>
    obtain rfl := eq_of_contains_singleton hlegal
    cases h
    exact ⟨rfl, rfl, addrBytes_hiLo b2 b1⟩
  | bcc | bcs | beq | bne | bmi | bpl | bvc | bvs | tax | tay | txa | tya | tsx | txs | inx | iny | dex | dey | rts
  | brk | rti | nop | pha | php | pla | plp | clc | sec | cli | sei | cld | sed | clv | illegal =>
    obtain rfl := eq_of_contains_singleton hlegal
    cases h
    exact ⟨rfl, rfl, rfl⟩

/-- Only ILLEGAL holds its opcode byte, and it is the one decoded. -/
theorem illegal_byte_of_assemble {d : Descriptor} {op b : Byte} (hlegal : d.operation.modes.contains d.mode = true)
    (h : assemble d op b1 b2 = some (.illegal b)) : b = op := by
  obtain ⟨ho, -, -⟩ := operands_of_assemble hlegal h
  rw [assemble, ← ho] at h
  exact (Instr.illegal.inj (Option.some.inj h)).symm

/-- An instruction is assembled from its operation, its mode and its own operand bytes. -/
theorem assemble_of_operands {d : Descriptor} {op : Byte} {i : Instr} (ho : i.operation = d.operation)
    (hm : i.mode = d.mode) (hbyte : ∀ b, i = .illegal b → b = op)
    (h : i.operands = [b1, b2].take d.mode.operandBytes) : assemble d op b1 b2 = some i := by
  obtain ⟨o, m, operands, cycles, penalty⟩ := d
  subst ho hm
  cases i with
  | lda m | ldx m | ldy m | adc m | sbc m | cmp m | cpx m | cpy m | and m | ora m | eor m =>
    exact Option.map_eq_some_iff.mpr ⟨m, ReadMode.ofBytes_eq_some_iff.mpr ⟨rfl, h⟩, rfl⟩
  | sta m | stx m | sty m | inc m | dec m | bit m =>
    exact Option.map_eq_some_iff.mpr ⟨m, MemMode.ofBytes_eq_some_iff.mpr ⟨rfl, h⟩, rfl⟩
  | asl m | lsr m | rol m | ror m =>
    exact Option.map_eq_some_iff.mpr ⟨m, RmwMode.ofBytes_eq_some_iff.mpr ⟨rfl, h⟩, rfl⟩
  | jmp m => exact Option.map_eq_some_iff.mpr ⟨m, JumpMode.ofBytes_eq_some_iff.mpr ⟨rfl, h⟩, rfl⟩
  | jsr w =>
    obtain rfl := hiLo_of_addrBytes h
    rfl
  | bcc | bcs | beq | bne | bmi | bpl | bvc | bvs =>
    cases h
    rfl
  | tax | tay | txa | tya | tsx | txs | inx | iny | dex | dey | rts | brk | rti | nop | pha | php | pla | plp | clc
  | sec | cli | sei | cld | sed | clv => rfl
  | illegal b =>
    obtain rfl := hbyte b rfl
    rfl

/-- What the decoder assembles at an opcode byte: the instruction with this opcode byte and these operand bytes. -/
theorem assemble_lookup_eq_some_iff {op : Byte} {i : Instr} :
    assemble (lookup op) op b1 b2 = some i ↔
      i.opcode? = some op ∧ i.operands = [b1, b2].take (lookup op).operandBytes := by
  rw [Instr.opcode?_eq_some_iff, lookup_operandBytes]
  constructor
  · intro h
    obtain ⟨ho, hm, hoperands⟩ := operands_of_assemble (lookup_mode_legal op) h
    exact ⟨⟨ho, hm, fun b hb => illegal_byte_of_assemble (lookup_mode_legal op) (hb ▸ h)⟩, hoperands⟩
  · rintro ⟨⟨ho, hm, hbyte⟩, hoperands⟩
    exact assemble_of_operands ho hm hbyte hoperands

/-! ## Whole instructions -/

theorem MemMode.bytes_length (m : MemMode) : m.bytes.length = m.tag.operandBytes := by
  cases m <;> rfl

theorem Instr.operands_length (i : Instr) : i.operands.length = i.mode.operandBytes := by
  cases i with
  | lda m | ldx m | ldy m | adc m | sbc m | cmp m | cpx m | cpy m | and m | ora m | eor m =>
    cases m with
    | imm => rfl
    | mem m => exact m.bytes_length
  | sta m | stx m | sty m | inc m | dec m | bit m => exact m.bytes_length
  | asl m | lsr m | rol m | ror m =>
    cases m with
    | acc => rfl
    | mem m => exact m.bytes_length
  | jmp m => cases m <;> rfl
  | bcc | bcs | beq | bne | bmi | bpl | bvc | bvs | jsr | tax | tay | txa | tya | tsx | txs | inx | iny | dex | dey
  | rts | brk | rti | nop | pha | php | pla | plp | clc | sec | cli | sei | cld | sed | clv | illegal => rfl

theorem Instr.operands_length_of_opcode? {i : Instr} {op : Byte} (h : i.opcode? = some op) :
    i.operands.length = (lookup op).operandBytes := by
  obtain ⟨-, hm, -⟩ := opcode?_eq_some_iff.mp h
  rw [operands_length, hm, lookup_operandBytes]

/-- The two bytes the decoder looks at hold the first operand bytes, as many as any mode has. -/
theorem take_getD_eq_take {n : Nat} {l : List Byte} (hn : n ≤ 2) (hl : n ≤ l.length) :
    [l.getD 0 0, l.getD 1 0].take n = l.take n := by
  match n, l with
  | 0, _ => rfl
  | 1, b :: _ => rfl
  | 2, b :: b' :: _ => rfl

/-- What the decoder makes of an opcode byte and the bytes after it. -/
theorem decodeBytes_cons_eq_ok_iff {op : Byte} {l rest : List Byte} {i : Instr} :
    decodeBytes (op :: l) = .ok (i, rest) ↔
      (lookup op).operandBytes ≤ l.length ∧ assemble (lookup op) op (l.getD 0 0) (l.getD 1 0) = some i
        ∧ l.drop (lookup op).operandBytes = rest := by
  rw [decodeBytes]
  split
  next hlt => exact ⟨nofun, fun ⟨hle, _⟩ => absurd hlt (Nat.not_lt.mpr hle)⟩
  next hnlt =>
    cases assemble (lookup op) op (l.getD 0 0) (l.getD 1 0) with
    | none => simp
    | some j => simp [Nat.not_lt.mp hnlt]

/-- Decoder and encoder are inverse: an instruction is read from a list of bytes exactly when it is well-formed and the
bytes are its encoding and the rest (R100, R114). -/
theorem decodeBytes_eq_ok_iff {bytes rest : List Byte} {i : Instr} :
    decodeBytes bytes = .ok (i, rest) ↔ i.wf = true ∧ encode i ++ rest = bytes := by
  cases bytes with
  | nil =>
    refine ⟨nofun, fun ⟨hwf, hbytes⟩ => ?_⟩
    obtain ⟨op, hop⟩ := i.wf_iff_opcode?.mp hwf
    simp [encode_of_opcode? hop] at hbytes
  | cons op l =>
    have htwo : (lookup op).operandBytes ≤ 2 := lookup_operandBytes op ▸ Mode.operandBytes_le _
    rw [decodeBytes_cons_eq_ok_iff, assemble_lookup_eq_some_iff]
    constructor
    · rintro ⟨hlen, ⟨hop, hoperands⟩, rfl⟩
      rw [take_getD_eq_take htwo hlen] at hoperands
      refine ⟨i.wf_iff_opcode?.mpr ⟨op, hop⟩, ?_⟩
      rw [encode_of_opcode? hop, List.cons_append, hoperands, List.take_append_drop]
    · rintro ⟨hwf, hbytes⟩
      obtain ⟨op', hop⟩ := i.wf_iff_opcode?.mp hwf
      rw [encode_of_opcode? hop, List.cons_append] at hbytes
      obtain ⟨rfl, rfl⟩ := List.cons.inj hbytes
      have hlen := Instr.operands_length_of_opcode? hop
      have hle : (lookup op').operandBytes ≤ (i.operands ++ rest).length := by simp [← hlen]
      refine ⟨hle, ⟨hop, ?_⟩, List.drop_left' hlen⟩
      rw [take_getD_eq_take htwo hle, List.take_left' hlen]

/-- Settles O1: one direction of the equivalence, at the encoding itself. -/
theorem decodeInvertsEncode : Obligations.DecodeInvertsEncode :=
  fun _ _ hwf => decodeBytes_eq_ok_iff.mpr ⟨hwf, rfl⟩

/-- Settles O2: the other direction of the equivalence. -/
theorem encodeInvertsDecode : Obligations.EncodeInvertsDecode :=
  fun _ _ _ => decodeBytes_eq_ok_iff.mp

/-- Settles O3: every row of the ROM pairs an operation with a mode it has, so its form assembles. -/
theorem everyOpcodeByteDecodes : Obligations.EveryOpcodeByteDecodes := by
  intro op rest hlen
  obtain ⟨i, hi, hmode⟩ := assemble_of_legal (lookup op) op (rest.getD 0 0) (rest.getD 1 0) (lookup_mode_legal op)
  obtain ⟨ho, -, -⟩ := operands_of_assemble (lookup_mode_legal op) hi
  exact ⟨i, decodeBytes_cons_eq_ok_iff.mpr ⟨hlen, hi, rfl⟩, ho, hmode⟩

end Sys2Proof

namespace Sys2Proof.Machine

/-- A fetch that answers has decoded the opcode byte and the operand bytes it fetched (R133). -/
theorem fetchInstr_decoded {s u : State} {i : Instr} (h : fetchInstr s = .ok i u) :
    ∃ bytes rest, decodeBytes bytes = .ok (i, rest) := by
  obtain ⟨op, t, -, h⟩ := Work.of_bind_ok h
  obtain ⟨operands, t', -, h⟩ := Work.of_bind_ok h
  cases hdecode : decodeBytes (op :: operands) with
  | ok p =>
    rw [hdecode] at h
    cases h
    exact ⟨_, _, hdecode⟩
  | error e =>
    rw [hdecode] at h
    cases h

/-- Settles O11: whatever bytes hooks put in place of those stored, what decodes is well-formed. -/
theorem fetchedInstructionsAreWellFormed : Obligations.FetchedInstructionsAreWellFormed := by
  intro s u i h
  obtain ⟨bytes, rest, hdecode⟩ := fetchInstr_decoded h
  exact (decodeBytes_eq_ok_iff.mp hdecode).1

end Sys2Proof.Machine
end

section
/-!
PROOFS. The cycles of the opcode table against the summary by class (40_execution_cycle R150, 70_reset_and_hazards R467).
-/

namespace Sys2Proof
open Sys2Proof.Machine

/-- The class table of R467, read by operation and mode: the operands have no part in it. -/
def Operation.classCycles (o : Operation) (m : Mode) (p : Path) : Nat :=
  match o with
  | .lda | .ldx | .ldy | .adc | .sbc | .cmp | .cpx | .cpy | .and | .ora | .eor | .bit => readClassCycles m p.crossed
  | .sta | .stx | .sty => storeClassCycles m
  | .inc | .dec | .asl | .lsr | .rol | .ror => rmwClassCycles m
  | .bcc | .bcs | .beq | .bne | .bmi | .bpl | .bvc | .bvs => branchCycles p
  | .jmp => if m = .ind then 5 else 3
  | .jsr | .rts | .rti => 6
  | .brk => 7
  | .pha | .php => 3
  | .pla | .plp => 4
  | .illegal => 1
  | .tax | .tay | .txa | .tya | .tsx | .txs | .inx | .iny | .dex | .dey | .nop | .clc | .sec | .cli | .sei | .cld | .sed
  | .clv => 2

theorem classCycles_eq (i : Instr) (p : Path) : classCycles i p = i.operation.classCycles i.mode p := by
  cases i with
  | jmp m => cases m <;> rfl
  | _ => rfl

/-- The cycles R150 computes from the columns of a descriptor. -/
def Descriptor.cycles (d : Descriptor) (p : Path) : Nat :=
  d.baseCycles
    + (if d.penalty = .pageCross ∧ p.crossed then 1 else 0)
    + (if d.penalty = .branch ∧ p.taken then 1 else 0)
    + (if d.penalty = .branch ∧ p.taken ∧ p.crossed then 1 else 0)

theorem Instr.cycles_eq (i : Instr) (p : Path) : i.cycles p = i.descriptor.cycles p := rfl

/-- Every row of the ROM takes the cycles of its operation's class, on every path (R106, R150, R467). -/
theorem lookup_cycles (op : Byte) (p : Path) :
    (lookup op).cycles p = (lookup op).operation.classCycles (lookup op).mode p := by
  have rows : ∀ (op : Byte) (taken crossed : Bool), (lookup op).cycles ⟨taken, crossed⟩
      = (lookup op).operation.classCycles (lookup op).mode ⟨taken, crossed⟩ := by
    decide +kernel
  exact rows op p.taken p.crossed

/-- Settles O7: a well-formed instruction is a row of the ROM, and the class table reads only its operation and mode. -/
theorem cyclesFollowTheClassTable : Obligations.CyclesFollowTheClassTable := by
  intro i p hwf
  obtain ⟨op, hop⟩ := i.wf_iff_opcode?.mp hwf
  obtain ⟨ho, hm, -⟩ := Instr.opcode?_eq_some_iff.mp hop
  have hrow : i.descriptor = lookup op := by rw [Instr.descriptor, hop]
  rw [Instr.cycles_eq, hrow, lookup_cycles, classCycles_eq, ho, hm]

end Sys2Proof
end

section
/-!
PROOFS. A step with no hook registered (40_execution_cycle R130 to R134): its fetch reads the stored bytes at PC.
-/

namespace Sys2Proof

/-- An instruction is decoded from its own bytes alone: those the opcode byte's row counts (R100, R105). -/
theorem decodeBytes_own_bytes {op : Byte} {l rest : List Byte} {i : Instr}
    (h : decodeBytes (op :: l) = .ok (i, rest)) :
    (lookup op).operandBytes + rest.length = l.length
      ∧ decodeBytes (op :: l.take (lookup op).operandBytes) = .ok (i, []) := by
  obtain ⟨hwf, hbytes⟩ := decodeBytes_eq_ok_iff.mp h
  obtain ⟨op', hop⟩ := i.wf_iff_opcode?.mp hwf
  rw [encode_of_opcode? hop, List.cons_append] at hbytes
  obtain ⟨rfl, rfl⟩ := List.cons.inj hbytes
  have hlen := Instr.operands_length_of_opcode? hop
  refine ⟨by rw [List.length_append, hlen], decodeBytes_eq_ok_iff.mpr ⟨hwf, ?_⟩⟩
  rw [List.append_nil, encode_of_opcode? hop, List.take_left' hlen]

end Sys2Proof

namespace Sys2Proof.Machine

/-- The addresses of `n` operand bytes from PC on. -/
def operandAddrs (pc : Addr) (n : Nat) : List Addr :=
  (List.range n).map fun k => pc + BitVec.ofNat 16 k

theorem operandAddrs_succ (pc : Addr) (n : Nat) : operandAddrs pc (n + 1) = pc :: operandAddrs (pc + 1) n := by
  simp [operandAddrs, List.range_succ_eq_map, BitVec.ofNat_add, BitVec.add_assoc, BitVec.add_comm 1#16]

/-- The state after `n` operand reads with no hook registered. -/
def State.operandsRead (s : State) (n : Nat) : State :=
  (s.loggedAll ((operandAddrs s.pend.pc n).map .read)).setPend { s.pend with pc := s.pend.pc + BitVec.ofNat 16 n }

/-- The operand reads with no hook registered (R134). -/
theorem fetchOperands_quiet (n : Nat) {s : State} (h : s.hooks = []) :
    fetchOperands n s = .ok ((operandAddrs s.pend.pc n).map s.mem.read) (s.operandsRead n) := by
  induction n generalizing s with
  | zero => simp [fetchOperands, operandAddrs, State.operandsRead, State.loggedAll, State.setPend]
  | succ n ih =>
    have hrest := ih (s := (s.logged (.read s.pend.pc)).setPend { s.pend with pc := s.pend.pc + 1 }) h
    rw [fetchOperands, Work.bind_ok (fetchOperand_quiet h), Work.bind_ok hrest, operandAddrs_succ]
    simp [State.operandsRead, operandAddrs_succ, State.loggedAll, State.logged, State.setPend, BitVec.ofNat_add,
      BitVec.add_assoc, BitVec.add_comm 1#16]

/-- The stored bytes from PC on, as far as the instruction goes. -/
theorem State.bytesAtPc_take (s : State) {n : Nat} (hn : n ≤ 2) :
    s.bytesAtPc.take (n + 1) = s.mem.read s.file.pc :: (operandAddrs (s.file.pc + 1) n).map s.mem.read := by
  match n with
  | 0 => rfl
  | 1 => simp [bytesAtPc, operandAddrs]
  | 2 => simp [bytesAtPc, operandAddrs, List.range_succ, BitVec.add_assoc]

/-- The state in which an instruction runs is that of the opcode fetch and its operand reads. -/
theorem State.fetched_eq (s : State) (n : Nat) :
    s.fetched (n + 1) = State.operandsRead
      ((((s.begin).logged (.fetch s.file.pc)).latched (s.mem.read s.file.pc)).setPend
        { s.file with pc := s.file.pc + 1 }) n := by
  simp [State.fetched, State.operandsRead, State.begin, State.logged, State.latched, State.setPend, State.loggedAll,
    operandAddrs, Output.empty, BitVec.ofNat_add, BitVec.add_assoc, BitVec.add_comm 1#16]

/-- The fetch with no hook registered, where the bytes at PC decode (R130, R133). -/
theorem fetchInstr_quiet {s : State} {i : Instr} {rest : List Byte} (h : s.hooks = [])
    (hdecode : decodeBytes s.bytesAtPc = .ok (i, rest)) :
    fetchInstr s.begin = .ok i (s.fetched (3 - rest.length)) := by
  obtain ⟨hlen, hown⟩ := decodeBytes_own_bytes hdecode
  generalize hn : (lookup (s.mem.read s.file.pc)).operandBytes = n at hlen hown
  replace hlen : n + rest.length = 2 := hlen
  have hoperands := fetchOperands_quiet n (s := ((s.begin.logged (.fetch s.file.pc)).latched
    (s.mem.read s.file.pc)).setPend { s.file with pc := s.file.pc + 1 }) h
  rw [← List.take_succ_cons, show _ :: _ = s.bytesAtPc from rfl, s.bytesAtPc_take (by omega)] at hown
  rw [show 3 - rest.length = n + 1 by omega, s.fetched_eq]
  exact fetchInstr_of_decode (fetchOpcode_quiet h) (hn ▸ hoperands) hown

/-- Settles O9: the bytes at PC that the fetch reads are those the instruction was decoded from. -/
theorem stepRunsDecodedInstruction : Obligations.StepRunsDecodedInstruction := by
  intro s i rest hs hq hdecode
  rw [step_running hs, fetchInstr_quiet hq hdecode]
  rfl

end Sys2Proof.Machine
end

section
/-!
PROOFS. What an instruction leaves of memory where it stores through an operand form or not at all (40_execution_cycle
R140, 20_memory R78), whatever hooks are registered, completed or faulted.
-/

namespace Sys2Proof.Machine

/-- Settles O22: the work of an instruction that commits no byte only reads. -/
theorem readersKeepMemory : Obligations.ReadersKeepMemory := by
  intro i s t a hi h hs
  obtain ⟨w, hw, -, hreads⟩ := exec_work i s
  exact exec_read_of_keepsByte h hw ((hreads hi).keepsByte a s) hs

section
variable {m : MemMode} {s : State} {a : Addr} (h : ∀ ea crossed u, effAddr m s = .ok (ea, crossed) u → a ≠ ea)
include h

theorem storeWork_keepsByte (f : RegFile → Byte) : KeepsByte a s ((storeWork m f).leaves s) := by
  refine ((effAddr_reads m).keepsByte a s).bind fun ⟨ea, crossed⟩ t ht => .regs_bind ?_
  exact (cpuWrite_keepsByte (h ea crossed t ht) _ t).bind fun _ u _ => (Work.Reads.pure _).keepsByte a u

theorem modifyWork_keepsByte (f : RegFile → Byte → ByteAndRegs) : KeepsByte a s ((modifyWork m f).leaves s) := by
  refine ((effAddr_reads m).keepsByte a s).bind fun ⟨ea, crossed⟩ t ht => ?_
  refine ((cpuRead_reads ea).keepsByte a t).bind fun v u _ => .regs_bind ?_
  refine (cpuWrite_keepsByte (h ea crossed t ht) _ u).bind fun _ u' _ => ?_
  exact ((modifyRegs_reads _).bind fun _ => Work.Reads.pure _).keepsByte a u'

/-- The work of an instruction that stores through an operand form writes at the form's effective address only. -/
theorem storing_work {i : Instr} (hi : storeOperand? i = some m) :
    ∃ w : Work Path, exec i s = conclude i w s ∧ KeepsByte a s (w.leaves s) := by
  cases i with
  | sta m | stx m | sty m =>
    cases hi
    exact ⟨_, rfl, storeWork_keepsByte h _⟩
  | inc m | dec m =>
    cases hi
    exact ⟨_, rfl, modifyWork_keepsByte h _⟩
  | asl m | lsr m | rol m | ror m =>
    cases m with
    | acc => cases hi
    | mem m =>
      cases hi
      exact ⟨_, rfl, modifyWork_keepsByte h _⟩
  | _ => cases hi

end

/-- Settles O23: every other part of such work is reads and registers. -/
theorem storesKeepOtherBytes : Obligations.StoresKeepOtherBytes := by
  intro i m s t a hi h hea hs
  obtain ⟨w, hw, hkeeps⟩ := storing_work hea hi
  exact exec_read_of_keepsByte h hw hkeeps hs

end Sys2Proof.Machine
end

section
/-!
PROOFS. Branches and jumps (44_control_transfer R290 to R299; 40_execution_cycle R147, R152).
-/

namespace Sys2Proof.Machine

/-- Work that ends by writing the pending registers commits them, and the accesses it made. -/
theorem State.commit_setPend_loggedAll (s : State) (acc : List Access) (r : RegFile) (n : Nat) :
    ((s.loggedAll acc).setPend r).commit n = s.done r s.mem n acc := rfl

theorem State.commit_setPend (s : State) (r : RegFile) (n : Nat) : (s.setPend r).commit n = s.done r s.mem n [] := by
  simp [State.commit, State.setPend, State.done]

theorem State.commit_eq_done (s : State) (n : Nat) : s.commit n = s.done s.pend s.mem n [] :=
  s.commit_setPend s.pend n

theorem signedByte_eq_toInt (b : Byte) : signedByte b = b.toInt := by
  rw [signedByte, BitVec.toInt_eq_toNat_cond]
  split <;> split <;> omega

/-- The branch target is that of R152 over numbers. -/
theorem branchTarget_eq (pc : Addr) (b : Byte) : branchTarget pc b = plainTarget pc b := by
  rw [plainTarget, signedByte_eq_toInt, branchTarget, displacement, BitVec.signExtend, BitVec.ofInt_add]
  simp

theorem branchWork_taken {cond : RegFile → Bool} {s : State} (b : Byte) (h : cond s.pend = true) :
    branchWork cond b s = .ok ⟨true, pageCross s.pend.pc (branchTarget s.pend.pc b)⟩
      (s.setPend { s.pend with pc := branchTarget s.pend.pc b }) := by
  simp [branchWork, Work.bind_apply, Work.map_apply, h]

theorem branchWork_notTaken {cond : RegFile → Bool} {s : State} (b : Byte) (h : cond s.pend = false) :
    branchWork cond b s = .ok {} s := by
  simp [branchWork, Work.bind_apply, h]

/-- A taken branch costs one cycle more than the two, and another if it leaves the page (R151, R152, R467). -/
theorem branchCycles_taken (pc target : Addr) :
    branchCycles ⟨true, pageCross pc target⟩ = if pc.toNat / 256 ≠ target.toNat / 256 then 4 else 3 := by
  rw [pageCross_eq]
  by_cases h : pc.toNat / 256 = target.toNat / 256 <;> simp [branchCycles, bitNat, h]

/-- What a branch leaves, if it is taken or not (R290, R152). -/
def State.branched (s : State) (b : Byte) (taken : Bool) : State :=
  let target := plainTarget s.pend.pc b
  if taken then
    s.done { s.pend with pc := target } s.mem (if s.pend.pc.toNat / 256 ≠ target.toNat / 256 then 4 else 3) []
  else s.done s.pend s.mem 2 []

theorem exec_branch {i : Instr} {cond : RegFile → Bool} {s : State} {b : Byte}
    (hi : exec i s = conclude i (branchWork cond b) s) (hcycles : ∀ p, i.cycles p = branchCycles p) :
    exec i s = .next (s.branched b (cond s.pend)) := by
  rw [hi]
  cases h : cond s.pend with
  | true =>
    rw [conclude_ok (branchWork_taken b h), hcycles, State.commit_setPend, branchTarget_eq, branchCycles_taken]
    rfl
  | false =>
    rw [conclude_ok (branchWork_notTaken b h), hcycles, State.commit_eq_done]
    rfl

/-- Settles O39: each branch is a branch on its flag, and costs what its class does. -/
theorem branchesTestOneFlag : Obligations.BranchesTestOneFlag := by
  intro s b target cross go
  have cycles (i : Instr) (hwf : i.wf = true) (p) := cyclesFollowTheClassTable i p hwf
  exact ⟨exec_branch rfl (cycles (.bcc b) rfl), exec_branch rfl (cycles (.bcs b) rfl),
    exec_branch rfl (cycles (.beq b) rfl), exec_branch rfl (cycles (.bne b) rfl),
    exec_branch rfl (cycles (.bmi b) rfl), exec_branch rfl (cycles (.bpl b) rfl),
    exec_branch rfl (cycles (.bvc b) rfl), exec_branch rfl (cycles (.bvs b) rfl)⟩

theorem pointerSecond_eq_hiLo (w : Addr) :
    (w &&& 0xFF00) ||| ((w + 1) &&& 0x00FF) = hiLo (hiByte w) (loByte (w + 1)) := by
  generalize w + 1 = v
  ext k hk
  rw [hiLo, BitVec.getElem_append]
  interval_cases k <;> simp [hiByte, loByte]

/-- The second byte of a pointer, in the pointer's own page (R147). -/
theorem pointerSecond_eq (w : Addr) :
    (w &&& 0xFF00) ||| ((w + 1) &&& 0x00FF) = BitVec.ofNat 16 (w.toNat / 256 * 256 + (w.toNat % 256 + 1) % 256) := by
  rw [pointerSecond_eq_hiLo, hiLo_eq_ofNat, hiByte_toNat, loByte_toNat, BitVec.toNat_add]
  refine congrArg _ ?_
  have h1 : (1 : Addr).toNat = 1 := rfl
  omega

theorem jumpTarget_ind_quiet (w : Addr) {s : State} (h : s.hooks = []) :
    let second := BitVec.ofNat 16 (w.toNat / 256 * 256 + (w.toNat % 256 + 1) % 256)
    jumpTarget (.ind w) s = .ok (BitVec.ofNat 16 ((s.mem.read w).toNat + 256 * (s.mem.read second).toNat))
      (s.loggedAll [.read w, .read second]) := by
  intro second
  rw [jumpTarget, pointerSecond_eq, Work.bind_ok (cpuRead_quiet w h),
    Work.bind_ok (cpuRead_quiet second (s := s.logged (.read w)) h), Work.pure_apply, hiLo_eq_ofNat]
  simp [State.loggedAll, State.logged]

theorem exec_jmp {m : JumpMode} {s t : State} {target : Addr} (h : jumpTarget m s = .ok target t) :
    exec (.jmp m) s = .next ((t.setPend { t.pend with pc := target }).commit ((Instr.jmp m).cycles {})) :=
  conclude_ok (Work.bind_ok h _)

/-- Settles O40. -/
theorem jumpsGoToTheirTarget : Obligations.JumpsGoToTheirTarget := by
  intro s w second
  refine ⟨?_, fun hq => ?_⟩
  · rw [exec_jmp (m := .abs w) rfl, State.commit_setPend]
    rfl
  · rw [exec_jmp (jumpTarget_ind_quiet w hq), State.commit_setPend_loggedAll]
    rfl

end Sys2Proof.Machine
end

section
/-!
PROOFS. Which hook an ExecutionFault names (20_memory R67, 60_exceptions R411): while no host move touches the registry,
one that is registered and matches the access whose dispatch failed, to any depth of nesting.
-/

namespace Sys2Proof.Machine

variable {α β : Type}

/-- The registry holds these hooks, and no host move still to come changes that. -/
def State.Settled (l : List Hook) (s : State) : Prop :=
  s.hooks = l ∧ ∀ m ∈ s.host, m.touchesRegistry = false

/-- If a stop is a callback's failure, it names one of these hooks, with its kind and an address that it matches. -/
def Stop.Names (l : List Hook) : Stop → Prop
  | .hookFailed hd a k => ∃ h ∈ l, h.handle = hd ∧ h.kind = k ∧ h.trigger.matchesAddr a = true
  | .refused _ => True

/-- Run in `s`, the work leaves a settled registry, and if a callback fails it names one of its hooks. -/
def Work.BlamesAt (l : List Hook) (w : Work α) (s : State) : Prop :=
  (w.leaves s).Settled l ∧ ∀ e t, w s = .error e t → e.Names l

/-- Work that keeps a settled registry settled, and names one of its hooks if a callback fails. -/
def Work.Blames (l : List Hook) (w : Work α) : Prop :=
  ∀ s, s.Settled l → w.BlamesAt l s

section
variable {l : List Hook}

theorem Work.BlamesAt.of_ok {w : Work α} {s t : State} {v : α} (hw : w s = .ok v t) (ht : t.Settled l) :
    w.BlamesAt l s :=
  ⟨Work.leaves_of_ok hw ▸ ht, fun _ _ he => nomatch hw.symm.trans he⟩

theorem Work.BlamesAt.of_error {w : Work α} {s t : State} {e : Stop} (hw : w s = .error e t) (ht : t.Settled l)
    (he : e.Names l) : w.BlamesAt l s := by
  refine ⟨Work.leaves_of_error hw ▸ ht, fun e' u he' => ?_⟩
  cases hw.symm.trans he'
  exact he

theorem Work.Blames.of_ok {w : Work α} (h : ∀ s, s.Settled l → ∃ v t, w s = .ok v t ∧ t.Settled l) : w.Blames l := by
  intro s hs
  obtain ⟨v, t, hw, ht⟩ := h s hs
  exact .of_ok hw ht

theorem Work.Blames.pure (v : α) : (Pure.pure v : Work α).Blames l :=
  .of_ok fun s hs => ⟨v, s, rfl, hs⟩

theorem Work.Blames.set {t : State} (ht : t.Settled l) : (set t : Work PUnit).Blames l :=
  .of_ok fun _ _ => ⟨⟨⟩, t, rfl, ht⟩

theorem Work.Blames.modify {f : State → State} (hf : ∀ s, s.Settled l → (f s).Settled l) :
    (modify f : Work PUnit).Blames l :=
  .of_ok fun s hs => ⟨⟨⟩, f s, rfl, hf s hs⟩

theorem Work.Blames.throw {e : Stop} (he : e.Names l) : (throw e : Work α).Blames l :=
  fun s hs => .of_error (Work.throw_apply e s) hs he

theorem Work.Blames.bind {w : Work α} {f : α → Work β} (h : w.Blames l) (hf : ∀ v, (f v).Blames l) :
    (w >>= f).Blames l := by
  intro s hs
  obtain ⟨hleaves, hnames⟩ := h s hs
  cases hw : w s with
  | ok v t =>
    rw [Work.BlamesAt, Work.leaves, Work.bind_ok hw]
    exact hf v t (Work.leaves_of_ok hw ▸ hleaves)
  | error e t => exact .of_error (Work.bind_error hw f) (Work.leaves_of_error hw ▸ hleaves) (hnames e t hw)

theorem Work.Blames.get_bind {f : State → Work β} (hf : ∀ s, s.Settled l → (f s).Blames l) : (get >>= f).Blames l :=
  fun s hs => hf s hs s hs

/-! ## One callback -/

/-- A move taken from a settled state leaves the registry alone. -/
theorem takeMove_bind_blames {f : Option HostMove → Work β} (hnone : (f none).Blames l)
    (hsome : ∀ m, m.touchesRegistry = false → (f (some m)).Blames l) : (takeMove >>= f).Blames l := by
  intro s hs
  obtain ⟨hooks, hmoves⟩ := hs
  cases hh : s.host with
  | nil =>
    have htake : takeMove s = .ok none s := by simp [takeMove, hh]
    rw [Work.BlamesAt, Work.leaves, Work.bind_ok htake]
    exact hnone s ⟨hooks, hmoves⟩
  | cons m rest =>
    have htake : takeMove s = .ok (some m) { s with host := rest } := by simp [takeMove, hh]
    rw [hh, List.forall_mem_cons] at hmoves
    rw [Work.BlamesAt, Work.leaves, Work.bind_ok htake]
    exact hsome m hmoves.1 { s with host := rest } ⟨hooks, hmoves.2⟩

theorem freeOutcome_blames (call : HookCall) : (freeOutcome call).Blames l :=
  .of_ok fun _ hs => ⟨_, _, rfl, hs⟩

theorem reply_blames (r : HostReply) : (reply r).Blames l :=
  .modify fun _ hs => hs

theorem nested_blames {w : Work α} (h : w.Blames l) (answer : α → HostReply) : (nested w answer).Blames l := by
  intro s hs
  obtain ⟨hleaves, hnames⟩ := h s hs
  cases hw : w s with
  | ok v t =>
    rw [Work.leaves_of_ok hw] at hleaves
    have hn : nested w answer s = .ok () (t.replied (answer v)) := by simp [nested, hw]
    exact .of_ok hn hleaves
  | error e t =>
    rw [Work.leaves_of_error hw] at hleaves
    have he := hnames e t hw
    cases e with
    | hookFailed hd a k =>
      have hn : nested w answer s = .error (.hookFailed hd a k) (t.replied (.executionFault hd a k)) := by
        simp [nested, hw]
      exact .of_error hn hleaves he
    | refused r =>
      have hn : nested w answer s = .error (.refused r) t := by simp [nested, hw]
      exact .of_error hn hleaves he

/-- The dispatch list of a settled state holds hooks of the registry that match. -/
theorem State.Settled.dispatchList {s : State} (hs : s.Settled l) (k : HookKind) (a : Addr) :
    ∀ h ∈ s.dispatchList k a, h ∈ l ∧ h.trigger.matchesAddr a = true := by
  intro h hl
  obtain ⟨hmem, hfits⟩ := List.mem_filter.mp hl
  exact ⟨hs.1 ▸ hmem, (Bool.and_eq_true_iff.mp hfits).2⟩

section
variable {run : HookCall → Work HookOutcome} (hrun : ∀ c, (run c).Blames l)
include hrun

theorem callHook_blames (snap : Snapshot) {a : Addr} {h : Hook} (hmem : h ∈ l)
    (hmatch : h.trigger.matchesAddr a = true) : (callHook run snap a h).Blames l := by
  refine .get_bind fun s hs => Work.Blames.bind (.set hs) fun _ => (hrun _).bind fun o => ?_
  split
  · exact .throw ⟨h, hmem, rfl, rfl, hmatch⟩
  · exact .pure _
  · exact .pure _

theorem dispatchRead_blames (snap : Snapshot) {a : Addr} {called : List Hook}
    (hcalled : ∀ h ∈ called, h ∈ l ∧ h.trigger.matchesAddr a = true) : (dispatchRead run snap a called).Blames l := by
  induction called with
  | nil => exact .pure _
  | cons h rest ih =>
    obtain ⟨⟨hmem, hmatch⟩, hrest⟩ := List.forall_mem_cons.mp hcalled
    refine (callHook_blames hrun snap hmem hmatch).bind fun o => ?_
    split
    · exact .pure _
    · exact ih hrest
    · exact ih hrest

theorem dispatchWrite_blames (snap : Snapshot) {a : Addr} {called : List Hook}
    (hcalled : ∀ h ∈ called, h ∈ l ∧ h.trigger.matchesAddr a = true) : (dispatchWrite run snap a called).Blames l := by
  induction called with
  | nil => exact .pure _
  | cons h rest ih =>
    obtain ⟨⟨hmem, hmatch⟩, hrest⟩ := List.forall_mem_cons.mp hcalled
    exact (callHook_blames hrun snap hmem hmatch).bind fun _ => ih hrest

theorem readWith_blames (k : HookKind) (snap : Snapshot) (a : Addr) : (readWith run k snap a).Blames l := by
  refine .get_bind fun s hs => (dispatchRead_blames hrun snap (hs.dispatchList k a)).bind fun o => ?_
  split
  · exact .pure _
  · exact .get_bind fun _ _ => .pure _

theorem writeWith_blames (snap : Snapshot) (a : Addr) (v : Byte) : (writeWith run snap a v).Blames l :=
  .get_bind fun _ hs => Work.Blames.bind (.set hs) fun _ => dispatchWrite_blames hrun snap (hs.dispatchList .postWrite a)

end

/-- A callback that fails because a nested access failed names the hook of that access (R67). -/
theorem runCallback_blames (n : Nat) (call : HookCall) : (runCallback n call).Blames l := by
  induction n generalizing call with
  | zero => exact freeOutcome_blames call
  | succ n ih =>
    refine takeMove_bind_blames (freeOutcome_blames call) fun m hm => ?_
    cases m with
    | answer o => exact .pure _
    | read a =>
      dsimp only
      split
      · exact (nested_blames (readWith_blames ih _ _ _) _).bind fun _ => ih call
      · exact (reply_blames _).bind fun _ => ih call
    | write a v =>
      dsimp only
      split
      · split
        · exact (nested_blames (writeWith_blames ih _ _ _) _).bind fun _ => ih call
        · exact .throw trivial
      · exact (reply_blames _).bind fun _ => ih call
    | register t k cb => cases hm
    | remove hd => cases hm
    | registerSnapshot => exact Work.Blames.bind (.modify fun _ hs => hs) fun _ => ih call
    | cycleCount => exact Work.Blames.bind (.modify fun _ hs => hs) fun _ => ih call

/-! ## The CPU's accesses -/

theorem logAccess_blames (acc : Access) : (logAccess acc).Blames l :=
  .modify fun _ hs => hs

theorem cpuRead_blames (a : Addr) : (cpuRead a).Blames l :=
  (logAccess_blames _).bind fun _ => .get_bind fun _ _ => .get_bind fun _ _ => readWith_blames (runCallback_blames _) _ _ a

theorem cpuFetch_blames (a : Addr) : (cpuFetch a).Blames l :=
  (logAccess_blames _).bind fun _ => .get_bind fun _ _ => .get_bind fun _ _ => readWith_blames (runCallback_blames _) _ _ a

theorem cpuWrite_blames (a : Addr) (v : Byte) : (cpuWrite a v).Blames l :=
  (logAccess_blames _).bind fun _ => .get_bind fun _ _ => .get_bind fun _ _ =>
    writeWith_blames (runCallback_blames _) _ a v

end

end Sys2Proof.Machine
end

section
/-!
PROOFS. An instruction's work, its operand reads included, is made of the shared operations and nothing else; so is what
follows for the opcode held for the fault record and for the hook a fault names (60_exceptions R411).
-/

namespace Sys2Proof.Machine

variable {α β : Type}

/-- Work made of the operations an instruction is written in (00_scope R12, R13): registers, the CPU's reads and writes,
the address of the instruction, the IllegalOpcode event. -/
inductive Work.FromOps : {α : Type} → Work α → Prop
  | pure {α : Type} (v : α) : FromOps (Pure.pure v)
  | bind {α β : Type} {w : Work α} {f : α → Work β} : FromOps w → (∀ v, FromOps (f v)) → FromOps (w >>= f)
  | regs : FromOps regs
  | pc0 {α : Type} {f : Addr → Work α} : (∀ a, FromOps (f a)) → FromOps (get >>= fun s => f s.file.pc)
  | modifyRegs (f : RegFile → RegFile) : FromOps (modifyRegs f)
  | emitIllegal (op : Byte) : FromOps (emitIllegal op)
  | cpuRead (a : Addr) : FromOps (cpuRead a)
  | cpuWrite (a : Addr) (v : Byte) : FromOps (cpuWrite a v)

/-- Such work holds no other opcode than the one fetched. -/
theorem Work.FromOps.opcode {w : Work α} (h : w.FromOps) (s : State) : (w.leaves s).opcode = s.opcode := by
  induction h generalizing s with
  | pure | regs | modifyRegs | emitIllegal => rfl
  | bind _ _ ihw ihf =>
    exact Work.leaves_bind (R := fun s t => t.opcode = s.opcode) (fun h h' => h'.trans h) (ihw s) fun v t _ => ihf v t
  | pc0 _ ih => exact ih s.file.pc s
  | cpuRead a => exact (cpuRead_hostRan a s).opcode
  | cpuWrite a v => exact (cpuWrite_hostRan a v s).opcode

theorem Work.FromOps.stepRan {w : Work α} (h : w.FromOps) (s : State) : StepRan s (w.leaves s) := by
  induction h generalizing s with
  | pure | regs | modifyRegs | emitIllegal => exact { StepRan.refl s with }
  | bind _ _ ihw ihf => exact Work.leaves_bind (R := StepRan) StepRan.trans (ihw s) fun v t _ => ihf v t
  | pc0 _ ih => exact ih s.file.pc s
  | cpuRead a => exact cpuRead_reads a _ stepRan_closed.toReadClosed s
  | cpuWrite a v => exact cpuWrite_works a v _ stepRan_closed s

theorem Work.FromOps.blames {w : Work α} (h : w.FromOps) (l : List Hook) : w.Blames l := by
  induction h with
  | pure v => exact .pure v
  | bind _ _ ihw ihf => exact ihw.bind ihf
  | regs => exact .get_bind fun _ _ => .pure _
  | pc0 _ ih => exact .get_bind fun s _ => ih s.file.pc
  | modifyRegs f => exact .modify fun _ hs => hs
  | emitIllegal op => exact .modify fun _ hs => hs
  | cpuRead a => exact cpuRead_blames a
  | cpuWrite a v => exact cpuWrite_blames a v

/-! ## The operations, the operand forms and the shapes of work -/

theorem setPc_fromOps (a : Addr) : (setPc a).FromOps := .modifyRegs _

theorem push_fromOps (v : Byte) : (push v).FromOps :=
  .bind .regs fun _ => .bind (.cpuWrite _ _) fun _ => .modifyRegs _

theorem pull_fromOps : pull.FromOps :=
  .bind (.modifyRegs _) fun _ => .bind .regs fun _ => .cpuRead _

theorem pushAddr_fromOps (a : Addr) : (pushAddr a).FromOps :=
  .bind (push_fromOps _) fun _ => push_fromOps _

theorem pullAddr_fromOps : pullAddr.FromOps :=
  .bind pull_fromOps fun _ => .bind pull_fromOps fun _ => .pure _

theorem readVector_fromOps (a : Addr) : (readVector a).FromOps :=
  .bind (.cpuRead _) fun _ => .bind (.cpuRead _) fun _ => .pure _

theorem takeBreak_fromOps : takeBreak.FromOps :=
  .pc0 (f := fun pc => do
      pushAddr (pc + 2)
      let r ← regs
      push (r.pbyte true)
      modifyRegs fun r => { r with i := true }
      let target ← readVector 0xFFFE
      setPc target)
    fun _ => .bind (pushAddr_fromOps _) fun _ => .bind .regs fun _ => .bind (push_fromOps _) fun _ =>
      .bind (.modifyRegs _) fun _ => .bind (readVector_fromOps _) fun _ => setPc_fromOps _

theorem returnFromBreak_fromOps : returnFromBreak.FromOps :=
  .bind pull_fromOps fun _ => .bind (.modifyRegs _) fun _ => .bind pullAddr_fromOps fun _ => setPc_fromOps _

theorem effAddr_fromOps (m : MemMode) : (effAddr m).FromOps := by
  refine .bind .regs fun r => ?_
  cases m with
  | izx | izy => exact .bind (.cpuRead _) fun _ => .bind (.cpuRead _) fun _ => .pure _
  | zp | zpx | zpy | abs | abx | aby => exact .pure _

theorem readOperand_fromOps (m : ReadMode) : (readOperand m).FromOps := by
  cases m with
  | imm b => exact .pure _
  | mem m => exact .bind (effAddr_fromOps m) fun _ => .bind (.cpuRead _) fun _ => .pure _

theorem jumpTarget_fromOps (m : JumpMode) : (jumpTarget m).FromOps := by
  cases m with
  | abs w => exact .pure _
  | ind w => exact .bind (.cpuRead _) fun _ => .bind (.cpuRead _) fun _ => .pure _

theorem readWork_fromOps (m : ReadMode) (f : RegFile → Byte → RegFile) : (readWork m f).FromOps :=
  .bind (readOperand_fromOps m) fun _ => .bind (.modifyRegs _) fun _ => .pure _

theorem storeWork_fromOps (m : MemMode) (f : RegFile → Byte) : (storeWork m f).FromOps :=
  .bind (effAddr_fromOps m) fun _ => .bind .regs fun _ => .bind (.cpuWrite _ _) fun _ => .pure _

theorem modifyWork_fromOps (m : MemMode) (f : RegFile → Byte → ByteAndRegs) : (modifyWork m f).FromOps :=
  .bind (effAddr_fromOps m) fun _ => .bind (.cpuRead _) fun _ => .bind .regs fun _ => .bind (.cpuWrite _ _) fun _ =>
    .bind (.modifyRegs _) fun _ => .pure _

theorem shiftWork_fromOps (m : RmwMode) (f : RegFile → Byte → ByteAndRegs) : (shiftWork m f).FromOps := by
  cases m with
  | acc => exact .bind (.modifyRegs _) fun _ => .pure _
  | mem m => exact modifyWork_fromOps m f

theorem regWork_fromOps (f : RegFile → RegFile) : (regWork f).FromOps :=
  .bind (.modifyRegs _) fun _ => .pure _

theorem branchWork_fromOps (c : RegFile → Bool) (b : Byte) : (branchWork c b).FromOps := by
  refine .bind .regs fun r => ?_
  dsimp only
  split
  · exact .bind (setPc_fromOps _) fun _ => .pure _
  · exact .pure _

theorem fetchOperands_fromOps (n : Nat) : (fetchOperands n).FromOps := by
  induction n with
  | zero => exact .pure _
  | succ n ih =>
    have hone : fetchOperand.FromOps :=
      .bind .regs fun _ => .bind (.cpuRead _) fun _ => .bind (.modifyRegs _) fun _ => .pure _
    exact .bind hone fun _ => .bind ih fun _ => .pure _

theorem exec_fromOps_of_regWork {i : Instr} {s : State} (h : exec i s = conclude i (regWork (i.regsAfter 0 0)) s) :
    ∃ w : Work Path, exec i s = conclude i w s ∧ w.FromOps :=
  ⟨_, h, regWork_fromOps _⟩

/-- exec is work made of the shared operations, and the end of the step. -/
theorem exec_fromOps (i : Instr) (s : State) : ∃ w : Work Path, exec i s = conclude i w s ∧ w.FromOps := by
  cases i with
  | lda | ldx | ldy | adc | sbc | cmp | cpx | cpy | and | ora | eor | bit => exact ⟨_, rfl, readWork_fromOps _ _⟩
  | sta | stx | sty => exact ⟨_, rfl, storeWork_fromOps _ _⟩
  | inc | dec => exact ⟨_, rfl, modifyWork_fromOps _ _⟩
  | asl | lsr | rol | ror => exact ⟨_, rfl, shiftWork_fromOps _ _⟩
  | tax | tay | txa | tya | tsx | txs | inx | iny | dex | dey | clc | sec | cli | sei | cld | sed | clv =>
    exact exec_fromOps_of_regWork rfl
  | bcc | bcs | beq | bne | bmi | bpl | bvc | bvs => exact ⟨_, rfl, branchWork_fromOps _ _⟩
  | jmp m => exact ⟨_, rfl, .bind (jumpTarget_fromOps m) fun _ => .bind (setPc_fromOps _) fun _ => .pure _⟩
  | jsr w => exact ⟨_, rfl, .bind (pushAddr_fromOps _) fun _ => .bind (setPc_fromOps w) fun _ => .pure _⟩
  | rts => exact ⟨_, rfl, .bind pullAddr_fromOps fun _ => .bind (setPc_fromOps _) fun _ => .pure _⟩
  | brk => exact ⟨_, rfl, .bind takeBreak_fromOps fun _ => .pure _⟩
  | rti => exact ⟨_, rfl, .bind returnFromBreak_fromOps fun _ => .pure _⟩
  | nop => exact ⟨_, rfl, .pure _⟩
  | pha | php => exact ⟨_, rfl, .bind .regs fun _ => .bind (push_fromOps _) fun _ => .pure _⟩
  | pla | plp => exact ⟨_, rfl, .bind pull_fromOps fun _ => .bind (.modifyRegs _) fun _ => .pure _⟩
  | illegal op => exact ⟨_, rfl, .bind (.emitIllegal op) fun _ => .pure _⟩

end Sys2Proof.Machine
end

section
/-!
PROOFS. What an ExecutionFault leaves, and its record (40_execution_cycle R131; 60_exceptions R405, R411; 70_reset R450):
of a step, and of the host calls that access memory.
-/

namespace Sys2Proof.Machine

/-! ## The fetch -/

/-- In `u` the opcode byte held is the one the fetch from `s` got, if it got one. -/
def HoldsFetched (s u : State) : Prop :=
  (∀ op t, fetchOpcode s = .ok op t → u.opcode = some op) ∧ (∀ e t, fetchOpcode s = .error e t → u.opcode = none)

theorem fetchOpcode_opcode_of_ok {s t : State} {op : Byte} (h : fetchOpcode s = .ok op t) : t.opcode = some op := by
  obtain ⟨_, u, -, h⟩ := Work.of_bind_ok (w := cpuFetch s.pend.pc) h
  cases h
  rfl

theorem fetchOpcode_opcode_of_error {s t : State} {e : Stop} (h : fetchOpcode s = .error e t) :
    t.opcode = s.opcode := by
  cases hf : cpuFetch s.pend.pc s with
  | ok op u => cases (Work.bind_ok hf _).symm.trans h
  | error e u =>
    cases (Work.bind_error hf _).symm.trans h
    exact Work.leaves_of_error hf ▸ (cpuFetch_hostRan s.pend.pc s).opcode

/-- After the opcode byte the fetch reads operands and decodes, and holds the byte. -/
theorem fetchInstr_opcode {s t : State} {op : Byte} (h : fetchOpcode s = .ok op t) :
    (fetchInstr.leaves s).opcode = t.opcode := by
  rw [Work.leaves, fetchInstr, Work.bind_ok h]
  refine Work.leaves_bind (R := fun s t => t.opcode = s.opcode) (fun h h' => h'.trans h)
    ((fetchOperands_fromOps _).opcode t) fun operands u _ => ?_
  split <;> rfl

theorem fetchInstr_holdsFetched {s : State} (hs : s.opcode = none) : HoldsFetched s (fetchInstr.leaves s) := by
  refine ⟨fun op t h => (fetchInstr_opcode h).trans (fetchOpcode_opcode_of_ok h), fun e t h => ?_⟩
  rw [fetchInstr, Work.leaves_of_error (Work.bind_error h _), fetchOpcode_opcode_of_error h, hs]

theorem fetchOpcode_blames (l : List Hook) : fetchOpcode.Blames l :=
  (Work.FromOps.regs.blames l).bind fun _ => (cpuFetch_blames _).bind fun _ =>
    Work.Blames.bind (.modify fun _ hs => hs) fun _ => .bind (.modify fun _ hs => hs) fun _ => .pure _

theorem fetchInstr_blames (l : List Hook) : fetchInstr.Blames l := by
  refine (fetchOpcode_blames l).bind fun op => ((fetchOperands_fromOps _).blames l).bind fun operands => ?_
  split
  · exact .pure _
  · exact .throw trivial

/-! ## The step -/

/-- The record a fault raised in a state that is Running leaves is its own. -/
theorem State.eq_of_raise_status {u : State} {info info' : FaultInfo} (hu : u.status = .running)
    (h : (u.raise info).status = .faulted info') : info = info' := by
  rw [State.raise_status, hu, Status.withFault_running] at h
  exact Status.faulted.inj h

/-- How a step that ends in an ExecutionFault got there: from a state its work left, by a failed callback. -/
theorem step_fault_cases {s t : State} {info : FaultInfo} (hs : s.status = .running) (h : step s = .next t)
    (ht : t.status = .faulted info) :
    ∃ hd a k u, info = u.stepFault hd a k ∧ t = u.raise info ∧ StepRan s.begin u ∧ HoldsFetched s.begin u
      ∧ ∀ l, s.Settled l → (Stop.hookFailed hd a k).Names l := by
  have fetchRan := fetchInstr_reads _ stepRan_closed.toReadClosed s.begin
  have fetchHolds := fetchInstr_holdsFetched (s := s.begin) rfl
  have fetchBlames (l) (hl : s.Settled l) := fetchInstr_blames l s.begin hl
  rcases step_cases hs h with ⟨i, v, hf, hexec⟩ | ⟨hd, a, k, u, hf, rfl⟩
  · rw [Work.leaves_of_ok hf] at fetchRan fetchHolds
    obtain ⟨w, hw, hops⟩ := exec_fromOps i v
    have hran := fetchRan.trans (hops.stepRan v)
    have hopcode := hops.opcode v
    rcases conclude_cases (hw ▸ hexec) with ⟨p, u, hok, rfl⟩ | ⟨hd, a, k, u, herr, rfl⟩
    · rw [Work.leaves_of_ok hok] at hran
      cases (hran.status.trans hs).symm.trans ht
    · rw [Work.leaves_of_error herr] at hran hopcode
      obtain rfl := State.eq_of_raise_status (hran.status.trans hs) ht
      refine ⟨hd, a, k, u, rfl, rfl, hran, ?_, fun l hl => ?_⟩
      · rwa [HoldsFetched, hopcode]
      · have hv := (fetchBlames l hl).1
        rw [Work.leaves_of_ok hf] at hv
        exact (hops.blames l v hv).2 _ u herr
  · rw [Work.leaves_of_error hf] at fetchRan fetchHolds
    obtain rfl := State.eq_of_raise_status (fetchRan.status.trans hs) ht
    exact ⟨hd, a, k, u, rfl, rfl, fetchRan, fetchHolds, fun l hl => (fetchBlames l hl).2 _ u hf⟩

/-! ## The host calls -/

/-- What a host call that ends in an ExecutionFault leaves of `s`: a record with no instruction, registers and counter as
they were, and a status that keeps its first fault. -/
def CallFaulted (s : State) (info : FaultInfo) (t : State) : Prop :=
  t.file = s.file ∧ t.pend = s.file ∧ t.cycles = s.cycles ∧ t.opcode = none ∧ info.pc0 = none ∧ info.opcode = none
    ∧ (s.status = .unreset ∨ s.status = .running → t.status = .faulted info)
    ∧ (∀ first, s.status = .faulted first → t.status = .faulted first)

/-- A call that ends in an ExecutionFault leaves what its access leaves, with the fault raised. -/
theorem endCall_fault {α : Type} {w : Work α} {s t : State} {info : FaultInfo}
    (h : endCall (w s) = .executionFault info t) (hran : StepRan s (w.leaves s)) :
    CallFaulted s info t ∧ t = (w.leaves s).raise info := by
  cases hw : w s with
  | ok v u =>
    rw [hw] at h
    cases h
  | error e u =>
    rw [hw] at h
    rw [Work.leaves_of_error hw] at hran ⊢
    cases e with
    | refused r => cases h
    | hookFailed hd a k =>
      cases h
      refine ⟨⟨hran.file, hran.file, hran.cycles, rfl, rfl, rfl, fun hs => ?_, fun first hs => ?_⟩, rfl⟩
      · rcases hs with hs | hs <;> rw [State.raise_status, hran.status, hs] <;> rfl
      · rw [State.raise_status, hran.status, hs]
        rfl

theorem hostRead_fault {a : Nat} {s t : State} {info : FaultInfo} (h : hostRead a s = .executionFault info t) :
    CallFaulted s info t := by
  unfold hostRead at h
  split at h
  · exact (endCall_fault h (memRead_reads _ _ _ stepRan_closed.toReadClosed _)).1
  · cases h

/-- A host write that ends in an ExecutionFault leaves the byte it committed (R65, R411). -/
theorem hostWrite_fault {a v : Nat} {s t : State} {info : FaultInfo} (h : hostWrite a v s = .executionFault info t) :
    CallFaulted s info t
      ∧ ∀ b : Addr, s.HostSpares b → t.mem.read b = if b.toNat = a then BitVec.ofNat 8 v else s.mem.read b := by
  unfold hostWrite at h
  split at h
  next ha =>
    split at h
    · have hran := memWrite_leaves hostRan_closed s.file.snapshot (BitVec.ofNat 16 a) (BitVec.ofNat 8 v)
        { s with out := Output.empty }
      obtain ⟨hfault, rfl⟩ := endCall_fault h ((stepRan_closed.stored _ _ _).trans hran.stepRan)
      refine ⟨hfault, fun b hb => (hran.mem b hb).trans ?_⟩
      have haddr : b = BitVec.ofNat 16 a ↔ b.toNat = a := by
        rw [← BitVec.toNat_inj, BitVec.toNat_ofNat, Nat.mod_eq_of_lt ha]
      simp [Memory.read_write, haddr]
    · cases h
  next => cases h

theorem resetCall_fault {p : ResetParams} {s t : State} {info : FaultInfo}
    (h : resetCall p s = .executionFault info t) : CallFaulted s info t := by
  unfold resetCall at h
  split at h
  · split at h
    case h_3 info' t' hcall =>
      cases h
      exact (endCall_fault hcall (resetVector_reads _ _ stepRan_closed.toReadClosed _)).1
    all_goals cases h
  · cases h

/-- Settles O13: a step's work keeps registers, counter and opcode, and a call's access keeps all but what it commits. -/
theorem faultsKeepRegistersAndCounter : Obligations.FaultsKeepRegistersAndCounter := by
  intro s left
  refine ⟨fun t info hs h ht => ?_, fun a info t => hostRead_fault, fun a v info t => hostWrite_fault,
    fun p info t => resetCall_fault⟩
  obtain ⟨hd, a, k, u, rfl, rfl, hran, hholds, hnames⟩ := step_fault_cases hs h ht
  exact ⟨hran.file, hran.file, hran.cycles, rfl, congrArg (fun r : RegFile => some r.pc) hran.file, hholds.1, hholds.2,
    fun hmoves => hnames s.hooks ⟨rfl, hmoves⟩⟩

end Sys2Proof.Machine
end

section
/-!
PROOFS. Loads, stores and transfers (41_load_store_transfer R200 to R211): what an instruction of the read class, of the
write class, or on registers alone (40_execution_cycle R140) answers, and the uniform N and Z rule (10_state R30).
-/

namespace Sys2Proof.Machine

theorem bit7_eq_decide (v : Byte) : bit7 v = decide (128 ≤ v.toNat) := by
  rw [bit7, ← BitVec.msb_eq_getLsbD_last, BitVec.msb_eq_decide]

/-- `SetNZ(v)` is the plain reading of R30. -/
theorem RegFile.setNZ_eq_withNZ (r : RegFile) (v : Byte) : r.setNZ v = r.withNZ v := by
  rw [RegFile.setNZ, RegFile.withNZ, bit7_eq_decide]
  rfl

/-! ## The work of the read and write classes with no hook registered (R140) -/

theorem readWork_quiet (m : ReadMode) (f : RegFile → Byte → RegFile) {s : State} (h : s.hooks = []) :
    readWork m f s = .ok { crossed := plainOperandCross s.pend s.mem m }
      ((s.loggedAll (plainOperandReads s.pend s.mem m)).setPend (f s.pend (plainOperand s.pend s.mem m))) := by
  rw [readWork, Work.bind_ok (readOperand_quiet m h)]
  rfl

theorem storeWork_quiet (m : MemMode) (value : RegFile → Byte) {s : State} (h : s.hooks = []) :
    let ea := plainAddr s.pend s.mem m
    storeWork m value s = .ok { crossed := plainCross s.pend s.mem m }
      (((s.loggedAll (plainPointerReads s.pend m)).logged (.write ea (value s.pend))).stored ea (value s.pend)) := by
  intro ea
  rw [storeWork, Work.bind_ok (effAddr_quiet m h)]
  exact Work.bind_ok (cpuWrite_quiet ea (value s.pend) (s := s.loggedAll (plainPointerReads s.pend m)) h) _

/-- A write after an operand form's pointer reads commits its byte, and all of the accesses. -/
theorem State.commit_stored_logged_loggedAll (s : State) (acc : List Access) (a : Addr) (v : Byte) (n : Nat) :
    (((s.loggedAll acc).logged (.write a v)).stored a v).commit n
      = s.done s.pend (s.mem.write a v) n (acc ++ [.write a v]) := by
  simp [State.loggedAll, State.logged, State.stored, State.commit, State.done]

/-! ## What the instructions of each class answer -/

/-- An instruction of the read class lets its operand act on the registers (R140, R467). -/
theorem exec_readWork {i : Instr} {m : ReadMode} {f : RegFile → Byte → RegFile} {s : State} {r : RegFile}
    (hq : s.Quiet) (hi : exec i s = conclude i (readWork m f) s)
    (hcycles : ∀ p, i.cycles p = readClassCycles m.tag p.crossed)
    (hf : f s.pend (plainOperand s.pend s.mem m) = r) :
    exec i s = .next (s.done r s.mem (readClassCycles m.tag (plainOperandCross s.pend s.mem m))
      (plainOperandReads s.pend s.mem m)) := by
  rw [hi, conclude_ok (readWork_quiet m f hq), State.commit_setPend_loggedAll, hcycles, hf]

/-- An instruction of the write class stores a register at the effective address (R140, R467). -/
theorem exec_storeWork {i : Instr} {m : MemMode} {value : RegFile → Byte} {s : State}
    (hq : s.Quiet) (hi : exec i s = conclude i (storeWork m value) s)
    (hcycles : ∀ p, i.cycles p = storeClassCycles m.tag) :
    let ea := plainAddr s.pend s.mem m
    exec i s = .next (s.done s.pend (s.mem.write ea (value s.pend)) (storeClassCycles m.tag)
      (plainPointerReads s.pend m ++ [.write ea (value s.pend)])) := by
  intro ea
  rw [hi, conclude_ok (storeWork_quiet m value hq), State.commit_stored_logged_loggedAll, hcycles]

/-- An instruction on registers alone makes no access, whatever hooks are registered (R140). -/
theorem exec_regWork {i : Instr} {s : State} {r : RegFile} {n : Nat}
    (hi : exec i s = conclude i (regWork (i.regsAfter 0 0)) s) (hcycles : ∀ p, i.cycles p = n)
    (hr : i.regsAfter 0 0 s.pend = r) : exec i s = .next (s.done r s.mem n []) := by
  have hwork : regWork (i.regsAfter 0 0) s = .ok {} (s.setPend (i.regsAfter 0 0 s.pend)) := rfl
  rw [hi, conclude_ok hwork, State.commit_setPend, hcycles, hr]

/-! ## The obligations -/

/-- Settles O26: each load is of the read class, and sets N and Z from its operand. -/
theorem loadsTakeTheirOperand : Obligations.LoadsTakeTheirOperand := by
  intro s m hq v n acc
  have cycles (i : Instr) (hwf : i.wf = true) (p) := cyclesFollowTheClassTable i p hwf
  exact ⟨fun hwf => exec_readWork hq rfl (cycles (.lda m) hwf) (RegFile.setNZ_eq_withNZ _ _),
    fun hwf => exec_readWork hq rfl (cycles (.ldx m) hwf) (RegFile.setNZ_eq_withNZ _ _),
    fun hwf => exec_readWork hq rfl (cycles (.ldy m) hwf) (RegFile.setNZ_eq_withNZ _ _)⟩

/-- Settles O27: each store is of the write class, with its own register. -/
theorem storesWriteTheirRegister : Obligations.StoresWriteTheirRegister := by
  intro s m hq ea n acc
  have cycles (i : Instr) (hwf : i.wf = true) (p) := cyclesFollowTheClassTable i p hwf
  exact ⟨fun hwf => exec_storeWork hq rfl (cycles (.sta m) hwf),
    fun hwf => exec_storeWork hq rfl (cycles (.stx m) hwf),
    fun hwf => exec_storeWork hq rfl (cycles (.sty m) hwf)⟩

/-- Settles O28: each transfer works on registers alone, and all but TXS set N and Z from the value moved. -/
theorem transfersMoveRegisters : Obligations.TransfersMoveRegisters := by
  intro s
  have cycles (i : Instr) (hwf : i.wf = true) (p) := cyclesFollowTheClassTable i p hwf
  exact ⟨exec_regWork rfl (cycles .tax rfl) (RegFile.setNZ_eq_withNZ _ _),
    exec_regWork rfl (cycles .tay rfl) (RegFile.setNZ_eq_withNZ _ _),
    exec_regWork rfl (cycles .txa rfl) (RegFile.setNZ_eq_withNZ _ _),
    exec_regWork rfl (cycles .tya rfl) (RegFile.setNZ_eq_withNZ _ _),
    exec_regWork rfl (cycles .tsx rfl) (RegFile.setNZ_eq_withNZ _ _),
    exec_regWork rfl (cycles .txs rfl) rfl⟩

end Sys2Proof.Machine
end

section
/-!
PROOFS. Arithmetic, compare, increment and decrement (42_arithmetic R230 to R245): the two adders over numbers, and what
the instructions that use them answer.
-/

namespace Sys2Proof.Machine

/-! ## Bits and masks over numbers (R11, R246) -/

theorem bitNat_le_one (c : Bool) : bitNat c ≤ 1 := by
  cases c <;> decide

theorem bit7_iff (v : Byte) : bit7 v = true ↔ 128 ≤ v.toNat := by
  simp [bit7_eq_decide]

theorem bit7_ofNat (s : Nat) : bit7 (BitVec.ofNat 8 s) = s.testBit 7 := by
  rw [bit7, BitVec.getLsbD_ofNat]
  rfl

theorem signedOverflow_eq (a m r : Byte) :
    signedOverflow a m r = ((bit7 a ^^ bit7 r) && (bit7 m ^^ bit7 r)) := by
  have mask : (0x80 : Byte) = BitVec.twoPow 8 7 := rfl
  rw [signedOverflow, mask, BitVec.and_twoPow, BitVec.getLsbD_and, BitVec.getLsbD_xor, BitVec.getLsbD_xor]
  simp only [bit7]
  cases (a.getLsbD 7 ^^ r.getLsbD 7) && (m.getLsbD 7 ^^ r.getLsbD 7) <;> rfl

/-- V is the pseudocode's mask of bit 7, whatever stands above the byte in the sum. -/
theorem signedOverflow_ofNat (a m : Byte) (s : Nat) :
    signedOverflow a m (BitVec.ofNat 8 s) = (((a.toNat ^^^ s) &&& (m.toNat ^^^ s) &&& 0x80) != 0) := by
  have mask : (0x80 : Nat) = 2 ^ 7 := rfl
  rw [signedOverflow_eq, bit7_ofNat, mask, Nat.and_two_pow, Nat.testBit_and, Nat.testBit_xor, Nat.testBit_xor]
  simp only [bit7, BitVec.getLsbD]
  cases (a.toNat.testBit 7 ^^ s.testBit 7) && (m.toNat.testBit 7 ^^ s.testBit 7) <;> rfl

theorem and_lowDigit (n : Nat) : n &&& 0x0F = n % 16 :=
  Nat.and_two_pow_sub_one_eq_mod n 4

theorem and_highDigit (b : Byte) : b.toNat &&& 0xF0 = b.toNat / 16 * 16 := by
  have small : ∀ n < 256, n &&& 0xF0 = n / 16 * 16 := by decide +kernel
  exact small _ b.isLt

/-! ## Binary addition and subtraction (R230, R232) -/

theorem addBin_r_toNat (a m : Byte) (c : Bool) :
    (addBin a m c).r.toNat = (a.toNat + m.toNat + bitNat c) % 256 :=
  BitVec.toNat_ofNat _ _

theorem addBin_c_iff (a m : Byte) (c : Bool) : (addBin a m c).c = true ↔ a.toNat + m.toNat + bitNat c > 255 :=
  decide_eq_true_iff

theorem addBin_v_iff_mask (a m : Byte) (c : Bool) :
    (addBin a m c).v = true ↔ ((a ^^^ (addBin a m c).r) &&& (m ^^^ (addBin a m c).r) &&& 0x80) ≠ 0 :=
  bne_iff_ne

/-- V is set when the operands have the same sign and the result the other, so when the signed sum leaves its range. -/
theorem addBin_v_iff_range (a m : Byte) (c : Bool) :
    (addBin a m c).v = true ↔
      ¬ (-128 ≤ signedByte a + signedByte m + bitNat c ∧ signedByte a + signedByte m + bitNat c ≤ 127) := by
  have signs : (addBin a m c).v = true ↔
      (128 ≤ a.toNat ↔ ¬ 128 ≤ (addBin a m c).r.toNat) ∧ (128 ≤ m.toNat ↔ ¬ 128 ≤ (addBin a m c).r.toNat) := by
    show signedOverflow a m (addBin a m c).r = true ↔ _
    simp only [signedOverflow_eq, bit7_eq_decide, Bool.and_eq_true, bne_iff_ne, ne_eq, decide_eq_decide]
    tauto
  have hc := bitNat_le_one c
  have ha := a.isLt
  have hm := m.isLt
  rw [signs, addBin_r_toNat, signedByte, signedByte]
  split <;> split <;> omega

theorem complement_toNat (m : Byte) : (~~~m).toNat = 255 - m.toNat :=
  BitVec.toNat_not

theorem signedByte_complement (m : Byte) : signedByte (~~~m) = -1 - signedByte m := by
  have hm := m.isLt
  rw [signedByte, signedByte, complement_toNat]
  split <;> split <;> omega

theorem subBin_r_toNat (a m : Byte) (c : Bool) :
    ((subBin a m c).r.toNat : Int) = ((a.toNat : Int) - m.toNat - (1 - bitNat c)) % 256 := by
  have hm := m.isLt
  rw [subBin, addBin_r_toNat, complement_toNat]
  omega

theorem subBin_c_iff (a m : Byte) (c : Bool) :
    (subBin a m c).c = true ↔ 0 ≤ (a.toNat : Int) - m.toNat - (1 - bitNat c) := by
  have hm := m.isLt
  rw [subBin, addBin_c_iff, complement_toNat]
  omega

theorem subBin_v_iff_range (a m : Byte) (c : Bool) :
    (subBin a m c).v = true ↔ ¬ (-128 ≤ signedByte a - signedByte m - (1 - bitNat c)
      ∧ signedByte a - signedByte m - (1 - bitNat c) ≤ 127) := by
  rw [subBin, addBin_v_iff_range, signedByte_complement]
  omega

/-! ## Decimal addition (R231) -/

theorem addDecPseudo_eq (a m : Byte) (c : Bool) :
    addDecPseudo a.toNat m.toNat (bitNat c) =
      let s := addDecMid a m c
      let s' := if s ≥ 0xA0 then s + 0x60 else s
      (s' % 256, decide (s' ≥ 0x100), ((a.toNat ^^^ s) &&& (m.toNat ^^^ s) &&& 0x80) != 0, s.testBit 7,
        (a.toNat + m.toNat + bitNat c) % 256 == 0) := by
  simp only [addDecPseudo, and_lowDigit, and_highDigit]
  rfl

theorem addDec_eq_pseudo (a m : Byte) (c : Bool) :
    ((addDec a m c).r.toNat, (addDec a m c).c, (addDec a m c).v, (addDec a m c).n, (addDec a m c).z)
      = addDecPseudo a.toNat m.toNat (bitNat c) := by
  simp only [addDecPseudo_eq, addDec, BitVec.toNat_ofNat, signedOverflow_ofNat, bit7_ofNat]

/-- The low digits' sum in two decimal digits, tens in the high nibble. -/
theorem addDecLow_of_isBcd {a m : Byte} (ha : isBcd a) (hm : isBcd m) (c : Bool) :
    let d := a.toNat % 16 + m.toNat % 16 + bitNat c
    addDecLow a m c = 16 * (d / 10) + d % 10 := by
  intro d
  obtain ⟨-, hlow⟩ := ha
  obtain ⟨-, hlow'⟩ := hm
  have hc := bitNat_le_one c
  rw [addDecLow]
  split <;> omega

/-- Each digit is the sum of its digits modulo 10, with the low digit's carry. -/
theorem addDec_of_isBcd {a m : Byte} (ha : isBcd a) (hm : isBcd m) (c : Bool) :
    let d := a.toNat % 16 + m.toNat % 16 + bitNat c
    let e := a.toNat / 16 + m.toNat / 16 + d / 10
    (addDec a m c).r.toNat / 16 = e % 10 ∧ (addDec a m c).r.toNat % 16 = d % 10
      ∧ ((addDec a m c).c = true ↔ 10 ≤ e) := by
  intro d e
  have hmid : addDecMid a m c = 16 * e + d % 10 := by
    rw [addDecMid, addDecLow_of_isBcd ha hm]
    omega
  have hlow : d % 10 < 10 := Nat.mod_lt _ (by decide)
  have hhigh : e < 20 := by
    obtain ⟨ha, ha'⟩ := ha
    obtain ⟨hm, hm'⟩ := hm
    have hc := bitNat_le_one c
    omega
  simp only [addDec, hmid, BitVec.toNat_ofNat, decide_eq_true_iff]
  clear_value e
  split <;> omega

/-! ## Decimal subtraction (R233) -/

/-- What the low digit's mask keeps of a small signed number is that number modulo 16. -/
theorem masked_lowDigit {k : Int} (hk : -16 ≤ k) :
    (((k - 0x06 + 0x100).toNat &&& 0x0F : Nat) : Int) = (k - 0x06) % 16 := by
  rw [and_lowDigit]
  omega

theorem subDecPseudo_eq (a m : Byte) (c : Bool) :
    subDecPseudo a.toNat m.toNat (bitNat c) =
      let s : Int := (a.toNat / 16 * 16 : Nat) - (m.toNat / 16 * 16 : Nat) + subDecLow a m c
      let s' := if s < 0 then s - 0x60 else s
      (s' + 0x400).toNat % 256 := by
  have hlow : (-16 : Int) ≤ (a.toNat % 16 : Nat) - (m.toNat % 16 : Nat) + bitNat c - 1 := by omega
  simp only [subDecPseudo, and_highDigit, and_lowDigit a.toNat, and_lowDigit m.toNat, masked_lowDigit hlow]
  rfl

theorem subDec_eq_pseudo (a m : Byte) (c : Bool) :
    (subDec a m c).r.toNat = subDecPseudo a.toNat m.toNat (bitNat c) := by
  have hlow : -32 ≤ subDecLow a m c := by
    rw [subDecLow]
    split <;> omega
  have hmid : -0x3A0 ≤ ((a.toNat / 16 * 16 : Nat) : Int) - (m.toNat / 16 * 16 : Nat) + subDecLow a m c := by
    have hm := m.isLt
    omega
  simp only [subDecPseudo_eq, subDec, BitVec.toNat_ofInt]
  generalize ((a.toNat / 16 * 16 : Nat) : Int) - (m.toNat / 16 * 16 : Nat) + subDecLow a m c = s at hmid
  split <;> omega

/-- The low digits' difference in two decimal digits, the borrow in the high nibble. -/
theorem subDecLow_of_isBcd {a m : Byte} (ha : isBcd a) (hm : isBcd m) (c : Bool) :
    let d : Int := (a.toNat % 16 : Nat) - (m.toNat % 16 : Nat) + bitNat c - 1
    subDecLow a m c = 16 * (d / 10) + d % 10 := by
  intro d
  obtain ⟨-, hlow⟩ := ha
  obtain ⟨-, hlow'⟩ := hm
  have hc := bitNat_le_one c
  rw [subDecLow]
  split <;> omega

/-- Each digit is the difference of its digits modulo 10, with the low digit's borrow. -/
theorem subDec_of_isBcd {a m : Byte} (ha : isBcd a) (hm : isBcd m) (c : Bool) :
    let d : Int := (a.toNat % 16 : Nat) - (m.toNat % 16 : Nat) + bitNat c - 1
    let e : Int := (a.toNat / 16 : Nat) - (m.toNat / 16 : Nat) + d / 10
    ((subDec a m c).r.toNat / 16 : Int) = e % 10 ∧ ((subDec a m c).r.toNat % 16 : Int) = d % 10
      ∧ ((subDec a m c).c = false ↔ e < 0) := by
  intro d e
  have hmid : ((a.toNat / 16 * 16 : Nat) : Int) - (m.toNat / 16 * 16 : Nat) + subDecLow a m c = 16 * e + d % 10 := by
    rw [subDecLow_of_isBcd ha hm]
    omega
  have hborrow : (subDec a m c).c = false ↔ (a.toNat : Int) - m.toNat - (1 - bitNat c) < 0 := by
    rw [← Bool.not_eq_true, ← not_le, ← subBin_c_iff]
    rfl
  have hlow : 0 ≤ d % 10 ∧ d % 10 < 10 := by omega
  have hhigh : -10 ≤ e ∧ e < 10 ∧ ((a.toNat : Int) - m.toNat - (1 - bitNat c) < 0 ↔ e < 0) := by
    obtain ⟨ha, ha'⟩ := ha
    obtain ⟨hm, hm'⟩ := hm
    have hc := bitNat_le_one c
    omega
  obtain ⟨hmin, hmax, hsign⟩ := hhigh
  refine and_assoc.mp ⟨?_, hborrow.trans hsign⟩
  simp only [subDec, hmid, BitVec.toNat_ofInt]
  clear_value e
  split <;> omega

/-! ## The adder that D selects (R234, R235) -/

theorem RegFile.adc_binary {r : RegFile} (hd : r.d = false) (v : Byte) : r.adc v = r.takeSum (addBin r.a v r.c) := by
  simp [RegFile.adc, hd]

theorem RegFile.adc_decimal {r : RegFile} (hd : r.d = true) (v : Byte) : r.adc v = r.takeSum (addDec r.a v r.c) := by
  simp [RegFile.adc, hd]

theorem RegFile.sbc_binary {r : RegFile} (hd : r.d = false) (v : Byte) : r.sbc v = r.takeSum (subBin r.a v r.c) := by
  simp [RegFile.sbc, hd]

theorem RegFile.sbc_decimal {r : RegFile} (hd : r.d = true) (v : Byte) : r.sbc v = r.takeSum (subDec r.a v r.c) := by
  simp [RegFile.sbc, hd]

/-! ## Comparison, increment and decrement as numbers (R236, R240 to R245) -/

theorem RegFile.compare_eq (r : RegFile) (q v : Byte) :
    r.compare q v = { r with c := decide (v.toNat ≤ q.toNat), z := decide (q = v),
                             n := decide (128 ≤ (q.toNat + 256 - v.toNat) % 256) } := by
  have hv := v.isLt
  have hn : (q - v).toNat = (q.toNat + 256 - v.toNat) % 256 := by
    rw [BitVec.toNat_sub]
    omega
  rw [RegFile.compare, bit7_eq_decide, hn]
  rfl

theorem add_one_eq_ofNat (v : Byte) : v + 1 = BitVec.ofNat 8 ((v.toNat + 1) % 256) := by
  apply BitVec.eq_of_toNat_eq
  simp

theorem sub_one_eq_ofNat (v : Byte) : v - 1 = BitVec.ofNat 8 ((v.toNat + 255) % 256) := by
  apply BitVec.eq_of_toNat_eq
  simp [BitVec.toNat_sub, Nat.add_comm]

theorem RegFile.incByte_eq (r : RegFile) (v : Byte) :
    let w := BitVec.ofNat 8 ((v.toNat + 1) % 256)
    r.incByte v = (w, r.withNZ w) := by
  rw [RegFile.incByte, add_one_eq_ofNat, RegFile.setNZ_eq_withNZ]

theorem RegFile.decByte_eq (r : RegFile) (v : Byte) :
    let w := BitVec.ofNat 8 ((v.toNat + 255) % 256)
    r.decByte v = (w, r.withNZ w) := by
  rw [RegFile.decByte, sub_one_eq_ofNat, RegFile.setNZ_eq_withNZ]

/-! ## The read-modify-write class on memory (R78, R140) -/

theorem modifyWork_quiet (m : MemMode) (f : RegFile → Byte → ByteAndRegs) {s : State} (h : s.hooks = []) :
    let ea := plainAddr s.pend s.mem m
    let w := f s.pend (s.mem.read ea)
    modifyWork m f s = .ok { crossed := plainCross s.pend s.mem m }
      (((((s.loggedAll (plainPointerReads s.pend m)).logged (.read ea)).logged (.write ea w.1)).stored ea w.1).setPend
        w.2) := by
  intro ea w
  rw [modifyWork, Work.bind_ok (effAddr_quiet m h)]
  refine (Work.bind_ok (cpuRead_quiet ea (s := s.loggedAll (plainPointerReads s.pend m)) h) _).trans ?_
  exact Work.bind_ok (cpuWrite_quiet ea w.1 (s := (s.loggedAll (plainPointerReads s.pend m)).logged (.read ea)) h) _

/-- One read and one write of the effective address after the pointer reads (R78, R140, R467). -/
theorem exec_modifyWork {i : Instr} {m : MemMode} {f : RegFile → Byte → ByteAndRegs} {s : State} {v : Byte}
    {r : RegFile} (hq : s.Quiet) (hi : exec i s = conclude i (modifyWork m f) s)
    (hcycles : ∀ p, i.cycles p = rmwClassCycles m.tag)
    (hf : f s.pend (s.mem.read (plainAddr s.pend s.mem m)) = (v, r)) :
    let ea := plainAddr s.pend s.mem m
    exec i s = .next (s.done r (s.mem.write ea v) (rmwClassCycles m.tag)
      (plainPointerReads s.pend m ++ [.read ea, .write ea v])) := by
  intro ea
  rw [hi, conclude_ok (modifyWork_quiet m f hq), hcycles, hf]
  simp [State.loggedAll, State.logged, State.stored, State.setPend, State.commit, State.done, ea]

/-! ## The obligations -/

/-- Settles O29: V's mask compares the signs of operands and result. -/
theorem binaryAdditionIsExact : Obligations.BinaryAdditionIsExact :=
  fun a m c => ⟨addBin_r_toNat a m c, addBin_c_iff a m c, addBin_v_iff_mask a m c, addBin_v_iff_range a m c,
    bit7_iff (addBin a m c).r, beq_iff_eq⟩

/-- Settles O30: the sum with the complement, which is 255 − m as a number and −1 − m as a signed one. -/
theorem binarySubtractionIsExact : Obligations.BinarySubtractionIsExact :=
  fun a m c => ⟨rfl, subBin_r_toNat a m c, subBin_c_iff a m c, subBin_v_iff_range a m c⟩

/-- Settles O31: the masks and tests of the pseudocode are those of the byte, and its adjusts carry decimal digits. -/
theorem decimalAdditionFollowsItsRule : Obligations.DecimalAdditionFollowsItsRule := by
  intro a m c
  refine ⟨addDec_eq_pseudo a m c, fun ha hm => ?_⟩
  obtain ⟨hhigh, hlow, hcarry⟩ := addDec_of_isBcd ha hm c
  rw [isBcd, bcdValue, bcdValue, bcdValue, hhigh, hlow, hcarry]
  omega

/-- Settles O32: the adjusts of the pseudocode borrow decimal digits, and decimal operands are ordered as their bytes. -/
theorem decimalSubtractionFollowsItsRule : Obligations.DecimalSubtractionFollowsItsRule := by
  intro a m c
  refine ⟨subDec_eq_pseudo a m c, ⟨rfl, rfl, rfl, rfl⟩, fun ha hm => ?_⟩
  obtain ⟨hhigh, hlow, hborrow⟩ := subDec_of_isBcd ha hm c
  rw [isBcd, bcdValue, bcdValue, bcdValue, hborrow]
  omega

/-- Settles O33: each is of the read class, and lets the adder of D's mode act on A. -/
theorem adcAndSbcUseTheAdder : Obligations.AdcAndSbcUseTheAdder := by
  intro s m hq v n acc out
  exact ⟨fun hwf => ⟨fun hd => exec_readWork hq rfl (cyclesFollowTheClassTable _ · hwf) (RegFile.adc_binary hd v),
      fun hd => exec_readWork hq rfl (cyclesFollowTheClassTable _ · hwf) (RegFile.adc_decimal hd v)⟩,
    fun hwf => ⟨fun hd => exec_readWork hq rfl (cyclesFollowTheClassTable _ · hwf) (RegFile.sbc_binary hd v),
      fun hd => exec_readWork hq rfl (cyclesFollowTheClassTable _ · hwf) (RegFile.sbc_decimal hd v)⟩⟩

/-- Settles O34: each is of the read class, and compares its own register with the operand. -/
theorem comparesSetFlagsOnly : Obligations.ComparesSetFlagsOnly := by
  intro s m hq v n acc flags
  exact ⟨fun hwf => exec_readWork hq rfl (cyclesFollowTheClassTable _ · hwf) (RegFile.compare_eq _ _ _),
    fun hwf => exec_readWork hq rfl (cyclesFollowTheClassTable _ · hwf) (RegFile.compare_eq _ _ _),
    fun hwf => exec_readWork hq rfl (cyclesFollowTheClassTable _ · hwf) (RegFile.compare_eq _ _ _)⟩

/-- Settles O35: each is of the read-modify-write class, and sets N and Z from the byte it writes. -/
theorem memoryIncrementsWrap : Obligations.MemoryIncrementsWrap := by
  intro s m hq ea v up down acc
  exact ⟨fun hwf => exec_modifyWork hq rfl (cyclesFollowTheClassTable _ · hwf) (RegFile.incByte_eq _ _),
    fun hwf => exec_modifyWork hq rfl (cyclesFollowTheClassTable _ · hwf) (RegFile.decByte_eq _ _)⟩

/-- Settles O36: each works on one register alone. -/
theorem registerIncrementsWrap : Obligations.RegisterIncrementsWrap := by
  intro s up down
  have inc (b : Byte) : b + 1 = up b := add_one_eq_ofNat b
  have dec (b : Byte) : b - 1 = down b := sub_one_eq_ofNat b
  simp only [← inc, ← dec, ← RegFile.setNZ_eq_withNZ]
  exact ⟨exec_regWork rfl (cyclesFollowTheClassTable .inx · rfl) rfl,
    exec_regWork rfl (cyclesFollowTheClassTable .iny · rfl) rfl,
    exec_regWork rfl (cyclesFollowTheClassTable .dex · rfl) rfl,
    exec_regWork rfl (cyclesFollowTheClassTable .dey · rfl) rfl⟩

end Sys2Proof.Machine
end

section
/-!
PROOFS. Logical operations, bit test, shifts and rotates (43_logic_shift R260 to R267): the bits tested and moved as
arithmetic on numbers, and what the instructions that use them answer.
-/

namespace Sys2Proof.Machine

/-! ## Single bits of a byte as numbers (R263 to R267) -/

theorem getLsbD_zero_eq_decide (v : Byte) : v.getLsbD 0 = decide (v.toNat % 2 = 1) := by
  rw [BitVec.getLsbD, Nat.testBit_zero]

theorem getLsbD_six_eq_decide (v : Byte) : v.getLsbD 6 = decide (64 ≤ v.toNat % 128) := by
  rw [BitVec.getLsbD, Nat.testBit_eq_decide_div_mod_eq, decide_eq_decide]
  omega

theorem bitByte_toNat (c : Bool) : (bitByte c).toNat = bitNat c := by
  cases c <;> rfl

theorem bitByte_top_toNat (c : Bool) : (bitByte c <<< 7).toNat = 128 * bitNat c := by
  cases c <;> rfl

/-! ## The bytes the shifts give, as numbers -/

theorem shiftLeft_one_eq_ofNat (v : Byte) : v <<< 1 = BitVec.ofNat 8 (2 * v.toNat % 256) := by
  apply BitVec.eq_of_toNat_eq
  simp [Nat.shiftLeft_eq, Nat.mul_comm]

theorem shiftRight_one_eq_ofNat (v : Byte) : v >>> 1 = BitVec.ofNat 8 (v.toNat / 2) := by
  have hv := v.isLt
  apply BitVec.eq_of_toNat_eq
  rw [BitVec.toNat_ushiftRight, Nat.shiftRight_one, BitVec.toNat_ofNat]
  omega

/-- Bit 0 is free after a shift to the left, so the carry that enters there is added. -/
theorem rotateLeft_eq_ofNat (v : Byte) (c : Bool) :
    (v <<< 1) ||| bitByte c = BitVec.ofNat 8 ((2 * v.toNat + bitNat c) % 256) := by
  have disjoint : (v <<< 1) &&& bitByte c = 0 := by
    ext k hk
    cases k <;> simp
  rw [← BitVec.add_eq_or_of_and_eq_zero _ _ disjoint]
  apply BitVec.eq_of_toNat_eq
  simp [shiftLeft_one_eq_ofNat, bitByte_toNat]

/-- Bit 7 is free after a shift to the right, so the carry that enters there is added. -/
theorem rotateRight_eq_ofNat (v : Byte) (c : Bool) :
    (v >>> 1) ||| (bitByte c <<< 7) = BitVec.ofNat 8 (v.toNat / 2 + 128 * bitNat c) := by
  have disjoint : (v >>> 1) &&& (bitByte c <<< 7) = 0 := by
    ext k hk
    by_cases top : 7 ≤ k
    · simp [BitVec.getLsbD_of_ge v (1 + k) (by omega)]
    · simp [top]
  rw [← BitVec.add_eq_or_of_and_eq_zero _ _ disjoint, shiftRight_one_eq_ofNat, BitVec.ofNat_add, ← bitByte_top_toNat,
    BitVec.ofNat_toNat, BitVec.setWidth_eq]

/-! ## The bit test and the shifts on a register file -/

theorem RegFile.bitTest_eq (r : RegFile) (v : Byte) :
    r.bitTest v = { r with z := decide (r.a &&& v = 0), n := decide (128 ≤ v.toNat),
                           v := decide (64 ≤ v.toNat % 128) } := by
  rw [← bit7_eq_decide, ← getLsbD_six_eq_decide]
  rfl

theorem RegFile.asl_eq (r : RegFile) (v : Byte) :
    let w := BitVec.ofNat 8 (2 * v.toNat % 256)
    r.asl v = (w, { r with c := decide (128 ≤ v.toNat) }.withNZ w) := by
  rw [RegFile.asl, shiftLeft_one_eq_ofNat, RegFile.setNZ_eq_withNZ, ← bit7_eq_decide]
  rfl

theorem RegFile.lsr_eq (r : RegFile) (v : Byte) :
    let w := BitVec.ofNat 8 (v.toNat / 2)
    r.lsr v = (w, { r with c := decide (v.toNat % 2 = 1) }.withNZ w) := by
  rw [RegFile.lsr, shiftRight_one_eq_ofNat, RegFile.setNZ_eq_withNZ, getLsbD_zero_eq_decide]

theorem RegFile.rol_eq (r : RegFile) (v : Byte) :
    let w := BitVec.ofNat 8 ((2 * v.toNat + bitNat r.c) % 256)
    r.rol v = (w, { r with c := decide (128 ≤ v.toNat) }.withNZ w) := by
  rw [RegFile.rol, rotateLeft_eq_ofNat, RegFile.setNZ_eq_withNZ, ← bit7_eq_decide]
  rfl

theorem RegFile.ror_eq (r : RegFile) (v : Byte) :
    let w := BitVec.ofNat 8 (v.toNat / 2 + 128 * bitNat r.c)
    r.ror v = (w, { r with c := decide (v.toNat % 2 = 1) }.withNZ w) := by
  rw [RegFile.ror, rotateRight_eq_ofNat, RegFile.setNZ_eq_withNZ, getLsbD_zero_eq_decide]

/-- A shift of A puts the result in A, beside the carry and N and Z it sets (R140, R264 to R267). -/
theorem regsAfter_acc {f : RegFile → Byte → ByteAndRegs} {r : RegFile} {w : Byte} {c : Bool} (u : Byte)
    (hf : f r r.a = (w, { r with c := c }.withNZ w)) :
    RmwMode.acc.regsAfter f u r = { r with a := w, c := c }.withNZ w := by
  rw [RmwMode.regsAfter, hf]
  rfl

/-! ## The obligations -/

/-- Settles O37: each is of the read class, and BIT reads memory only. -/
theorem logicActsBitByBit : Obligations.LogicActsBitByBit := by
  intro s m hq v n acc a
  refine ⟨fun hwf => exec_readWork hq rfl (cyclesFollowTheClassTable _ · hwf) (RegFile.setNZ_eq_withNZ _ _),
    fun hwf => exec_readWork hq rfl (cyclesFollowTheClassTable _ · hwf) (RegFile.setNZ_eq_withNZ _ _),
    fun hwf => exec_readWork hq rfl (cyclesFollowTheClassTable _ · hwf) (RegFile.setNZ_eq_withNZ _ _), ?_⟩
  rintro mm rfl hwf
  exact exec_readWork hq rfl (cyclesFollowTheClassTable _ · hwf) (RegFile.bitTest_eq _ _)

/-- Settles O38: on A each works on registers alone, and on memory it is of the read-modify-write class. -/
theorem shiftsMoveOneBit : Obligations.ShiftsMoveOneBit := by
  intro s asl lsr rol ror onA onMem
  exact ⟨⟨exec_regWork rfl (cyclesFollowTheClassTable (.asl .acc) · rfl) (regsAfter_acc 0 (RegFile.asl_eq _ _)),
      exec_regWork rfl (cyclesFollowTheClassTable (.lsr .acc) · rfl) (regsAfter_acc 0 (RegFile.lsr_eq _ _)),
      exec_regWork rfl (cyclesFollowTheClassTable (.rol .acc) · rfl) (regsAfter_acc 0 (RegFile.rol_eq _ _)),
      exec_regWork rfl (cyclesFollowTheClassTable (.ror .acc) · rfl) (regsAfter_acc 0 (RegFile.ror_eq _ _))⟩,
    fun hq _ => ⟨fun hwf => exec_modifyWork hq rfl (cyclesFollowTheClassTable _ · hwf) (RegFile.asl_eq _ _),
      fun hwf => exec_modifyWork hq rfl (cyclesFollowTheClassTable _ · hwf) (RegFile.lsr_eq _ _),
      fun hwf => exec_modifyWork hq rfl (cyclesFollowTheClassTable _ · hwf) (RegFile.rol_eq _ _),
      fun hwf => exec_modifyWork hq rfl (cyclesFollowTheClassTable _ · hwf) (RegFile.ror_eq _ _)⟩⟩

end Sys2Proof.Machine
end

section
/-!
PROOFS. The stack with no hook registered (10_state R23 to R25): the bytes it uses as addresses of page 1, pushes and pulls
as what they leave of registers, memory and the access record, and that pulls read back what was pushed.
-/

namespace Sys2Proof.Machine

/-! ## The bytes of the stack -/

theorem stackAddr_toNat (sp : Byte) : (stackAddr sp).toNat = 256 + sp.toNat := by
  have h := sp.isLt
  rw [stackAddr, BitVec.toNat_add, zeroPage_toNat, show (0x0100 : Addr).toNat = 256 from rfl]
  omega

/-- Each push moves the stack one byte down, and wraps (R23, R24). -/
theorem stackAddr_sub (sp : Byte) (k : Nat) : stackAddr (sp - BitVec.ofNat 8 k) = stackByte sp k := by
  have h := sp.isLt
  apply BitVec.eq_of_toNat_eq
  rw [stackAddr_toNat, stackByte, BitVec.toNat_sub, BitVec.toNat_ofNat, BitVec.toNat_ofNat]
  omega

/-- Each pull moves the stack one byte up, and wraps (R23, R25). -/
theorem stackAddr_add (sp : Byte) (k : Nat) : stackAddr (sp + BitVec.ofNat 8 k) = stackByteUp sp k := by
  apply BitVec.eq_of_toNat_eq
  rw [stackAddr_toNat, stackByteUp, BitVec.toNat_add, BitVec.toNat_ofNat, BitVec.toNat_ofNat]
  omega

theorem stackByte_sub (sp : Byte) (j k : Nat) : stackByte (sp - BitVec.ofNat 8 j) k = stackByte sp (j + k) := by
  rw [← stackAddr_sub, ← stackAddr_sub, BitVec.ofNat_add]
  congr 1
  bv_omega

theorem stackByteUp_add (sp : Byte) (j k : Nat) : stackByteUp (sp + BitVec.ofNat 8 j) k = stackByteUp sp (j + k) := by
  rw [← stackAddr_add, ← stackAddr_add, BitVec.ofNat_add, BitVec.add_assoc]

/-- `j` pulls after `k` pushes are back at the byte of push `k - j`. -/
theorem stackByteUp_sub (sp : Byte) {j k : Nat} (h : j ≤ k) :
    stackByteUp (sp - BitVec.ofNat 8 k) j = stackByte sp (k - j) := by
  obtain ⟨d, rfl⟩ := Nat.exists_eq_add_of_le' h
  rw [← stackAddr_add, ← stackAddr_sub, Nat.add_sub_cancel, BitVec.ofNat_add]
  congr 1
  bv_omega

/-- The stack has 256 bytes. -/
theorem stackByte_inj {sp : Byte} {j k : Nat} (hj : j < 256) (hk : k < 256) :
    stackByte sp j = stackByte sp k ↔ j = k := by
  have h := sp.isLt
  rw [← BitVec.toNat_inj, ← stackAddr_sub, ← stackAddr_sub, stackAddr_toNat, stackAddr_toNat, BitVec.toNat_sub,
    BitVec.toNat_sub, BitVec.toNat_ofNat, BitVec.toNat_ofNat]
  omega

/-- The pull reads back the byte pushed before. -/
theorem Memory.read_pushed (m : Memory) (sp v : Byte) :
    (m.write (stackByte sp 0) v).read (stackByteUp (sp - 1) 1) = v := by
  have up1 : stackByteUp (sp - 1) 1 = stackByte sp 0 := stackByteUp_sub sp (k := 1) le_rfl
  rw [up1, Memory.read_write_same]

/-- Two pulls read back the two bytes pushed before, the last one first. -/
theorem Memory.read_pushed_pair (m : Memory) (sp hi lo : Byte) :
    let m' := (m.write (stackByte sp 0) hi).write (stackByte sp 1) lo
    let up := fun k => stackByteUp (sp - 2) k
    m'.read (up 1) = lo ∧ m'.read (up 2) = hi := by
  intro m' up
  have up1 : up 1 = stackByte sp 1 := stackByteUp_sub sp (k := 2) (by omega)
  have up2 : up 2 = stackByte sp 0 := stackByteUp_sub sp (k := 2) le_rfl
  simp [m', up1, up2, Memory.read_write, stackByte_inj]

/-! ## What work leaves -/

/-- The state after work of an instruction that left these registers and this memory and made these accesses. -/
def State.worked (s : State) (r : RegFile) (mem : Memory) (acc : List Access) : State :=
  { s with pend := r, mem := mem, out := { s.out with accesses := s.out.accesses ++ acc } }

section
variable (s : State) (r r' : RegFile) (mem mem' : Memory) (acc acc' : List Access)

@[simp] theorem State.worked_pend : (s.worked r mem acc).pend = r := rfl
@[simp] theorem State.worked_mem : (s.worked r mem acc).mem = mem := rfl
@[simp] theorem State.worked_hooks : (s.worked r mem acc).hooks = s.hooks := rfl

@[simp] theorem State.worked_worked :
    (s.worked r mem acc).worked r' mem' acc' = s.worked r' mem' (acc ++ acc') := by
  simp [State.worked]

@[simp] theorem State.setPend_worked : (s.worked r mem acc).setPend r' = s.worked r' mem acc := rfl

/-- The commit of what work leaves (R131). -/
theorem State.commit_worked (n : Nat) : (s.worked r mem acc).commit n = s.done r mem n acc := rfl

end

/-- A push stores, then lowers SP (R24). -/
theorem State.pushed_eq_worked (s : State) (v : Byte) :
    s.pushed v = s.worked { s.pend with sp := s.pend.sp - 1 } (s.mem.write (stackByte s.pend.sp 0) v)
      [.write (stackByte s.pend.sp 0) v] := by
  have haddr : stackAddr s.pend.sp = stackByte s.pend.sp 0 := by rw [← stackAddr_sub, BitVec.sub_zero]
  rw [← haddr]
  rfl

/-- A pull raises SP, then loads (R25). -/
theorem State.pulled_eq_worked (s : State) :
    s.pulled = s.worked { s.pend with sp := s.pend.sp + 1 } s.mem [.read (stackByteUp s.pend.sp 1)] := by
  rw [← stackAddr_add]
  rfl

theorem push_worked (v : Byte) {s : State} (h : s.hooks = []) :
    push v s = .ok () (s.worked { s.pend with sp := s.pend.sp - 1 } (s.mem.write (stackByte s.pend.sp 0) v)
      [.write (stackByte s.pend.sp 0) v]) := by
  rw [push_quiet v h, State.pushed_eq_worked]

theorem pull_worked {s : State} (h : s.hooks = []) :
    pull s = .ok (s.mem.read (stackByteUp s.pend.sp 1))
      (s.worked { s.pend with sp := s.pend.sp + 1 } s.mem [.read (stackByteUp s.pend.sp 1)]) := by
  rw [pull_quiet h, State.pulled_eq_worked, ← stackAddr_add]
  rfl

theorem sub_one_sub_one (sp : Byte) : sp - 1 - 1 = sp - 2 := by
  bv_omega

theorem add_one_add_one (sp : Byte) : sp + 1 + 1 = sp + 2 := by
  bv_omega

theorem pushAddr_worked (a : Addr) {s : State} (h : s.hooks = []) :
    pushAddr a s = .ok () (s.worked { s.pend with sp := s.pend.sp - 2 }
      ((s.mem.write (stackByte s.pend.sp 0) (hiByte a)).write (stackByte s.pend.sp 1) (loByte a))
      [.write (stackByte s.pend.sp 0) (hiByte a), .write (stackByte s.pend.sp 1) (loByte a)]) := by
  have hsecond : stackByte (s.pend.sp - 1) 0 = stackByte s.pend.sp 1 := stackByte_sub _ 1 0
  rw [pushAddr_quiet a h]
  simp only [State.pushed_eq_worked, State.worked_worked, State.worked_pend, State.worked_mem, hsecond,
    sub_one_sub_one, List.singleton_append]

theorem pullAddr_worked {s : State} (h : s.hooks = []) :
    pullAddr s = .ok (hiLo (s.mem.read (stackByteUp s.pend.sp 2)) (s.mem.read (stackByteUp s.pend.sp 1)))
      (s.worked { s.pend with sp := s.pend.sp + 2 } s.mem
        [.read (stackByteUp s.pend.sp 1), .read (stackByteUp s.pend.sp 2)]) := by
  have hfirst : stackAddr (s.pend.sp + 1) = stackByteUp s.pend.sp 1 := stackAddr_add _ 1
  have hsecond : stackAddr (s.pend.sp + 2) = stackByteUp s.pend.sp 2 := stackAddr_add _ 2
  have hnext : stackByteUp (s.pend.sp + 1) 1 = stackByteUp s.pend.sp 2 := stackByteUp_add _ 1 1
  rw [pullAddr_quiet h]
  simp only [State.pulled_eq_worked, State.worked_worked, State.worked_pend, State.worked_mem, hfirst, hsecond, hnext,
    add_one_add_one, List.singleton_append]

end Sys2Proof.Machine
end

section
/-!
PROOFS. Subroutines, the trap and its return, NOP and ILLEGAL (44_control_transfer R300 to R304; 60_exceptions R401, R402;
46_illegal R350), and that the pulls of a return give back what its push left.
-/

namespace Sys2Proof.Machine

/-! ## The trap and its return with no hook registered -/

theorem readVector_worked (a : Addr) {s : State} (h : s.hooks = []) :
    readVector a s = .ok (hiLo (s.mem.read (a + 1)) (s.mem.read a))
      (s.worked s.pend s.mem [.read a, .read (a + 1)]) := by
  rw [readVector_quiet a h]
  simp [State.worked, State.logged]

/-- The memory after the trap's three pushes (R401). -/
def State.trapMem (s : State) : Memory :=
  ((s.mem.write (stackByte s.pend.sp 0) (hiByte (s.file.pc + 2))).write (stackByte s.pend.sp 1)
    (loByte (s.file.pc + 2))).write (stackByte s.pend.sp 2) (s.pend.pbyte true)

/-- The trap (R401): three pushes, I, and the word at the vector. -/
theorem takeBreak_worked {s : State} (h : s.hooks = []) :
    takeBreak s = .ok () (s.worked
      { s.pend with i := true, sp := s.pend.sp - 3, pc := hiLo (s.trapMem.read 0xFFFF) (s.trapMem.read 0xFFFE) }
      s.trapMem
      [.write (stackByte s.pend.sp 0) (hiByte (s.file.pc + 2)), .write (stackByte s.pend.sp 1) (loByte (s.file.pc + 2)),
        .write (stackByte s.pend.sp 2) (s.pend.pbyte true), .read 0xFFFE, .read 0xFFFF]) := by
  have hthird : stackByte (s.pend.sp - 2) 0 = stackByte s.pend.sp 2 := stackByte_sub _ 2 0
  have hsp : s.pend.sp - 2 - 1 = s.pend.sp - 3 := by bv_omega
  have hvector : (0xFFFE : Addr) + 1 = 0xFFFF := rfl
  rw [takeBreak, Work.bind_ok (Work.get_apply s), Work.bind_ok (pushAddr_worked _ h)]
  simp only [Work.bind_apply, regs_apply, push_worked, State.worked_hooks, h, modifyRegs_apply, readVector_worked,
    State.setPend_worked, setPc_apply, State.worked_worked, State.worked_pend, State.worked_mem, hthird, hsp, hvector]
  rfl

/-- The trap return (R402): the status byte, then the address, with no increment. -/
theorem returnFromBreak_worked {s : State} (h : s.hooks = []) :
    let up := fun k => stackByteUp s.pend.sp k
    returnFromBreak s = .ok () (s.worked
      { s.pend.loadP (s.mem.read (up 1)) with
        sp := s.pend.sp + 3, pc := hiLo (s.mem.read (up 3)) (s.mem.read (up 2)) }
      s.mem [.read (up 1), .read (up 2), .read (up 3)]) := by
  intro up
  have hup : ∀ k, stackByteUp (s.pend.sp + 1) k = up (1 + k) := stackByteUp_add _ 1
  have hsp : s.pend.sp + 1 + 2 = s.pend.sp + 3 := by bv_omega
  rw [returnFromBreak, Work.bind_ok (pull_worked h)]
  simp only [Work.bind_apply, modifyRegs_apply, State.setPend_worked, pullAddr_worked, State.worked_hooks, h,
    setPc_apply, State.worked_worked, State.worked_pend, State.worked_mem, RegFile.loadP, hsp, hup]
  rfl

/-! ## What each instruction answers -/

/-- An instruction whose work answers completes with what the work leaves (R131). -/
theorem exec_worked {i : Instr} {w : Work Path} {s : State} {p : Path} {r : RegFile} {mem : Memory} {acc : List Access}
    {n : Nat} (hi : exec i s = conclude i w s) (hw : w s = .ok p (s.worked r mem acc)) (hcycles : i.cycles p = n) :
    exec i s = .next (s.done r mem n acc) := by
  rw [hi, conclude_ok hw, State.commit_worked, hcycles]

theorem hiByte_add_two (pc : Addr) : hiByte (pc + 2) = BitVec.ofNat 8 ((pc.toNat + 2) / 256) := by
  apply BitVec.eq_of_toNat_eq
  rw [hiByte_toNat, BitVec.toNat_add, BitVec.toNat_ofNat, show (2 : Addr).toNat = 2 from rfl]
  omega

theorem loByte_add_two (pc : Addr) : loByte (pc + 2) = BitVec.ofNat 8 (pc.toNat + 2) := by
  apply BitVec.eq_of_toNat_eq
  rw [loByte_toNat, BitVec.toNat_add, BitVec.toNat_ofNat, show (2 : Addr).toNat = 2 from rfl]
  omega

theorem exec_jsr_quiet (w : Addr) {s : State} (h : s.hooks = []) :
    let hi := hiByte (s.file.pc + 2)
    let lo := loByte (s.file.pc + 2)
    exec (.jsr w) s = .next (s.done { s.pend with pc := w, sp := s.pend.sp - 2 }
      ((s.mem.write (stackByte s.pend.sp 0) hi).write (stackByte s.pend.sp 1) lo) 6
      [.write (stackByte s.pend.sp 0) hi, .write (stackByte s.pend.sp 1) lo]) :=
  exec_worked rfl (Work.bind_ok (pushAddr_worked _ h) _) (cyclesFollowTheClassTable (.jsr w) _ rfl)

theorem exec_rts_quiet {s : State} (h : s.hooks = []) :
    let up := fun k => stackByteUp s.pend.sp k
    exec .rts s = .next (s.done
      { s.pend with pc := hiLo (s.mem.read (up 2)) (s.mem.read (up 1)) + 1, sp := s.pend.sp + 2 } s.mem 6
      [.read (up 1), .read (up 2)]) :=
  exec_worked rfl (Work.bind_ok (pullAddr_worked h) _) (cyclesFollowTheClassTable .rts _ rfl)

theorem exec_brk_quiet {s : State} (h : s.hooks = []) :
    exec .brk s = .next (s.done
      { s.pend with i := true, sp := s.pend.sp - 3, pc := hiLo (s.trapMem.read 0xFFFF) (s.trapMem.read 0xFFFE) }
      s.trapMem 7
      [.write (stackByte s.pend.sp 0) (hiByte (s.file.pc + 2)), .write (stackByte s.pend.sp 1) (loByte (s.file.pc + 2)),
        .write (stackByte s.pend.sp 2) (s.pend.pbyte true), .read 0xFFFE, .read 0xFFFF]) :=
  exec_worked rfl (Work.bind_ok (takeBreak_worked h) _) (cyclesFollowTheClassTable .brk _ rfl)

theorem exec_rti_quiet {s : State} (h : s.hooks = []) :
    let up := fun k => stackByteUp s.pend.sp k
    exec .rti s = .next (s.done
      { s.pend.loadP (s.mem.read (up 1)) with
        sp := s.pend.sp + 3, pc := hiLo (s.mem.read (up 3)) (s.mem.read (up 2)) }
      s.mem 6 [.read (up 1), .read (up 2), .read (up 3)]) :=
  exec_worked rfl (Work.bind_ok (returnFromBreak_worked h) _) (cyclesFollowTheClassTable .rti _ rfl)

theorem exec_php_quiet {s : State} (h : s.hooks = []) :
    exec .php s = .next (s.done { s.pend with sp := s.pend.sp - 1 }
      (s.mem.write (stackByte s.pend.sp 0) (s.pend.pbyte true)) 3
      [.write (stackByte s.pend.sp 0) (s.pend.pbyte true)]) :=
  exec_worked rfl (Work.bind_ok (push_worked (s.pend.pbyte true) h) _) (cyclesFollowTheClassTable .php _ rfl)

theorem exec_plp_quiet {s : State} (h : s.hooks = []) :
    let above := stackByteUp s.pend.sp 1
    exec .plp s = .next (s.done ({ s.pend with sp := s.pend.sp + 1 }.loadP (s.mem.read above)) s.mem 4
      [.read above]) :=
  exec_worked rfl (Work.bind_ok (pull_worked h) _) (cyclesFollowTheClassTable .plp _ rfl)

theorem exec_nop (s : State) : exec .nop s = .next (s.done s.pend s.mem 2 []) := by
  refine (conclude_ok (Work.pure_apply _ s)).trans ?_
  rw [State.commit_eq_done, cyclesFollowTheClassTable .nop _ rfl]
  rfl

theorem exec_illegal {op : Byte} (hwf : (Instr.illegal op).wf = true) (s : State) :
    exec (.illegal op) s = .next ((s.emitted op).done s.pend s.mem 1 []) := by
  have hwork : (do emitIllegal op; pure {} : Work Path) s = .ok {} (s.emitted op) := rfl
  refine (conclude_ok hwork).trans ?_
  rw [State.commit_eq_done, cyclesFollowTheClassTable (.illegal op) _ hwf]
  rfl

/-! ## The return as the next instruction -/

@[simp] theorem State.fetched_mem (s : State) (n : Nat) : (s.fetched n).mem = s.mem := rfl
@[simp] theorem State.fetched_pend (s : State) (n : Nat) :
    (s.fetched n).pend = { s.file with pc := s.file.pc + BitVec.ofNat 16 n } := rfl

/-- Three pulls read back the trap's three bytes, the last one first. -/
theorem State.read_trapMem (s : State) :
    let up := fun k => stackByteUp (s.pend.sp - 3) k
    s.trapMem.read (up 1) = s.pend.pbyte true ∧ s.trapMem.read (up 2) = loByte (s.file.pc + 2)
      ∧ s.trapMem.read (up 3) = hiByte (s.file.pc + 2) := by
  intro up
  have up1 : up 1 = stackByte s.pend.sp 2 := stackByteUp_sub _ (k := 3) (by omega)
  have up2 : up 2 = stackByte s.pend.sp 1 := stackByteUp_sub _ (k := 3) (by omega)
  have up3 : up 3 = stackByte s.pend.sp 0 := stackByteUp_sub _ (k := 3) le_rfl
  simp [State.trapMem, up1, up2, up3, Memory.read_write, stackByte_inj]

theorem rts_undoes_jsr {s t : State} {w : Addr} (hq : s.Quiet) (h : exec (.jsr w) s = .next t) :
    ∃ u, exec .rts (t.fetched 1) = .next u ∧ u.file = { s.pend with pc := s.file.pc + 3 } := by
  obtain rfl := Host.Outcome.next.inj ((exec_jsr_quiet w hq).symm.trans h)
  refine ⟨_, exec_rts_quiet hq, ?_⟩
  obtain ⟨hlo, hhi⟩ := s.mem.read_pushed_pair s.pend.sp (hiByte (s.file.pc + 2)) (loByte (s.file.pc + 2))
  simp only [State.done_file, State.done_mem, State.fetched_mem, State.fetched_pend, hlo, hhi, hiLo_hiByte_loByte,
    BitVec.sub_add_cancel, BitVec.add_assoc]
  rfl

theorem rti_undoes_brk {s t : State} (hq : s.Quiet) (h : exec .brk s = .next t) :
    ∃ u, exec .rti (t.fetched 1) = .next u ∧ u.file = { s.pend with pc := s.file.pc + 2 } := by
  obtain rfl := Host.Outcome.next.inj ((exec_brk_quiet hq).symm.trans h)
  refine ⟨_, exec_rti_quiet hq, ?_⟩
  obtain ⟨hp, hlo, hhi⟩ := s.read_trapMem
  simp only [State.done_file, State.done_mem, State.fetched_mem, State.fetched_pend, hp, hlo, hhi, RegFile.loadP_pbyte,
    hiLo_hiByte_loByte, BitVec.sub_add_cancel]

theorem plp_undoes_php {s t : State} (hq : s.Quiet) (h : exec .php s = .next t) :
    ∃ u, exec .plp (t.fetched 1) = .next u ∧ u.file = { s.pend with pc := s.pend.pc + 1 } := by
  obtain rfl := Host.Outcome.next.inj ((exec_php_quiet hq).symm.trans h)
  refine ⟨_, exec_plp_quiet hq, ?_⟩
  simp only [State.done_file, State.done_mem, State.fetched_mem, State.fetched_pend, Memory.read_pushed,
    RegFile.loadP_pbyte, BitVec.sub_add_cancel]
  rfl

/-! ## The obligations -/

/-- Settles O41: JSR's bytes are those of the number PC0 + 2, and RTS adds one to the word pulled. -/
theorem callsAndReturnsUseTheStack : Obligations.CallsAndReturnsUseTheStack := by
  intro s hq ret hi lo up
  refine ⟨fun w => ?_, ?_⟩
  · rw [exec_jsr_quiet w hq, hiByte_add_two, loByte_add_two]
  · rw [exec_rts_quiet hq, hiLo_eq_ofNat, BitVec.ofNat_add _ 1]
    rfl

/-- Settles O43: the flags are bits 7, 6, 3, 2, 1 and 0 of the number pulled. -/
theorem returnFromBreakPullsStatusAndAddress : Obligations.ReturnFromBreakPullsStatusAndAddress := by
  intro s hq up p
  rw [exec_rti_quiet hq, hiLo_eq_ofNat]
  rfl

/-- Settles O44: neither instruction's work touches registers or memory, and ILLEGAL's is its event. -/
theorem nopAndIllegalChangeNothing : Obligations.NopAndIllegalChangeNothing := by
  refine fun s => ⟨exec_nop s, fun op hwf => ?_⟩
  rw [exec_illegal hwf]
  simp [State.done]

/-- Settles O47: each return pulls the bytes that the push before it left, from where that left SP. -/
theorem returnsAndPullsUndoTheirPush : Obligations.ReturnsAndPullsUndoTheirPush :=
  fun _ _ hq => ⟨fun _ => rts_undoes_jsr hq, rti_undoes_brk hq, plp_undoes_php hq⟩

end Sys2Proof.Machine
end

section
/-!
PROOFS. Stack pushes and pulls of A and the status byte, and the instructions that set or clear one flag (45_stack_flags
R320 to R330).
-/

namespace Sys2Proof.Machine

/-! ## A pushed and pulled with no hook registered (PHP and PLP: `exec_php_quiet`, `exec_plp_quiet`) -/

theorem exec_pha_quiet {s : State} (h : s.hooks = []) :
    exec .pha s = .next (s.done { s.pend with sp := s.pend.sp - 1 } (s.mem.write (stackByte s.pend.sp 0) s.pend.a) 3
      [.write (stackByte s.pend.sp 0) s.pend.a]) :=
  exec_worked rfl (Work.bind_ok (push_worked s.pend.a h) _) (cyclesFollowTheClassTable .pha _ rfl)

theorem exec_pla_quiet {s : State} (h : s.hooks = []) :
    let above := stackByteUp s.pend.sp 1
    let v := s.mem.read above
    exec .pla s = .next (s.done ({ s.pend with sp := s.pend.sp + 1, a := v }.setNZ v) s.mem 4 [.read above]) :=
  exec_worked rfl (Work.bind_ok (pull_worked h) _) (cyclesFollowTheClassTable .pla _ rfl)

/-! ## The obligations -/

/-- Settles O45: each is one push or one pull, PLA sets N and Z from the byte pulled, and the flags PLP loads are bits of
the number pulled. -/
theorem pushesAndPullsMoveOneByte : Obligations.PushesAndPullsMoveOneByte := by
  intro s hq here above v
  refine ⟨exec_pha_quiet hq, exec_php_quiet hq, ?_, exec_plp_quiet hq⟩
  rw [exec_pla_quiet hq, RegFile.setNZ_eq_withNZ]

/-- Settles O48: each works on the register file alone, and writes its one flag there. -/
theorem flagInstructionsWriteOneFlag : Obligations.FlagInstructionsWriteOneFlag := fun _ =>
  ⟨exec_regWork rfl (cyclesFollowTheClassTable .clc · rfl) rfl,
    exec_regWork rfl (cyclesFollowTheClassTable .sec · rfl) rfl,
    exec_regWork rfl (cyclesFollowTheClassTable .cli · rfl) rfl,
    exec_regWork rfl (cyclesFollowTheClassTable .sei · rfl) rfl,
    exec_regWork rfl (cyclesFollowTheClassTable .cld · rfl) rfl,
    exec_regWork rfl (cyclesFollowTheClassTable .sed · rfl) rfl,
    exec_regWork rfl (cyclesFollowTheClassTable .clv · rfl) rfl⟩

end Sys2Proof.Machine
end

section
/-!
PROOFS. The trap BRK takes (60_exceptions R401), and that no instruction stops a machine whose host makes only moves the
spec has (R400, R406): all work answers or ends in a failed callback, so every step from Running answers a next state.
-/

namespace Sys2Proof.Machine

variable {α β : Type}

/-! ## The trap -/

theorem stackByte_toNat_lt (sp : Byte) (k : Nat) : (stackByte sp k).toNat < 512 := by
  have h := (sp - BitVec.ofNat 8 k).isLt
  rw [← stackAddr_sub, stackAddr_toNat]
  omega

/-- The trap's pushes stay in page 1, so they leave the vector's bytes. -/
theorem State.read_trapMem_of_le (s : State) {a : Addr} (ha : 512 ≤ a.toNat) : s.trapMem.read a = s.mem.read a := by
  have hne (k) : a ≠ stackByte s.pend.sp k := fun h => Nat.not_lt.mpr ha (h ▸ stackByte_toNat_lt _ k)
  rw [State.trapMem, Memory.read_write_ne _ _ (hne 2), Memory.read_write_ne _ _ (hne 1),
    Memory.read_write_ne _ _ (hne 0)]

/-- Settles O42: the bytes pushed are those of the number PC0 + 2, and the vector lies above the stack. -/
theorem breakTakesTheTrap : Obligations.BreakTakesTheTrap := by
  intro s hq ret hi lo p mem
  have hmem : s.trapMem = mem := by rw [State.trapMem, hiByte_add_two, loByte_add_two]
  rw [exec_brk_quiet hq, s.read_trapMem_of_le (by decide), s.read_trapMem_of_le (by decide), hmem, hiLo_eq_ofNat,
    hiByte_add_two, loByte_add_two]

/-! ## Work that is not refused -/

/-- A result that is no refusal: an answer that leaves only host moves the spec has, or a failed callback. -/
def NotRefused : EStateM.Result Stop State α → Prop
  | .ok _ t => t.HostAdmitted
  | .error (.hookFailed _ _ _) _ => True
  | .error (.refused _) _ => False

/-- Work that is not refused as long as the host makes only moves the spec has. -/
def Work.Unrefused (w : Work α) : Prop :=
  ∀ s, s.HostAdmitted → NotRefused (w s)

theorem Work.Unrefused.pure (v : α) : (Pure.pure v : Work α).Unrefused :=
  fun _ hs => hs

theorem Work.Unrefused.set {t : State} (ht : t.HostAdmitted) : (set t : Work PUnit).Unrefused :=
  fun _ _ => ht

/-- A change of the state that takes no move and adds none. -/
theorem Work.Unrefused.modify {f : State → State} (hf : ∀ s, (f s).host = s.host) :
    (modify f : Work PUnit).Unrefused := by
  intro s hs
  show (f s).HostAdmitted
  rwa [State.HostAdmitted, hf]

/-- In a sequence, the second part needs to go on only from what the first can answer. -/
theorem Work.Unrefused.bind_of_ok {w : Work α} {f : α → Work β} (h : w.Unrefused)
    (hf : ∀ v s t, w s = .ok v t → (f v).Unrefused) : (w >>= f).Unrefused := by
  intro s hs
  have hw := h s hs
  cases hres : w s with
  | ok v t =>
    rw [hres] at hw
    rw [Work.bind_ok hres]
    exact hf v s t hres t hw
  | error e t =>
    rw [hres] at hw
    rw [Work.bind_error hres]
    cases e with
    | hookFailed hd a k => trivial
    | refused r => exact hw

theorem Work.Unrefused.bind {w : Work α} {f : α → Work β} (h : w.Unrefused) (hf : ∀ v, (f v).Unrefused) :
    (w >>= f).Unrefused :=
  h.bind_of_ok fun v _ _ _ => hf v

theorem Work.Unrefused.get_bind {f : State → Work β} (hf : ∀ s, s.HostAdmitted → (f s).Unrefused) :
    (get >>= f).Unrefused :=
  fun s hs => hf s hs s hs

/-! ## One callback -/

/-- Of admitted moves the next one is admitted, and so are the rest. -/
theorem takeMove_bind_unrefused {f : Option HostMove → Work β} (hnone : (f none).Unrefused)
    (hsome : ∀ m, m.admitted = true → (f (some m)).Unrefused) : (takeMove >>= f).Unrefused := by
  intro s hs
  cases hh : s.host with
  | nil =>
    have htake : takeMove s = .ok none s := by simp [takeMove, hh]
    rw [Work.bind_ok htake]
    exact hnone s hs
  | cons m rest =>
    have htake : takeMove s = .ok (some m) { s with host := rest } := by simp [takeMove, hh]
    rw [State.HostAdmitted, hh, List.forall_mem_cons] at hs
    rw [Work.bind_ok htake]
    exact hsome m hs.1 { s with host := rest } hs.2

theorem freeOutcome_unrefused (call : HookCall) : (freeOutcome call).Unrefused :=
  fun _ hs => hs

theorem reply_unrefused (r : HostReply) : (reply r).Unrefused :=
  .modify fun _ => rfl

theorem nested_unrefused {w : Work α} (h : w.Unrefused) (answer : α → HostReply) : (nested w answer).Unrefused := by
  intro s hs
  have hw := h s hs
  unfold nested
  cases hres : w s with
  | ok v t =>
    rw [hres] at hw
    exact hw
  | error e t =>
    rw [hres] at hw
    cases e with
    | hookFailed hd a k => trivial
    | refused r => exact hw

section
variable {run : HookCall → Work HookOutcome} (hrun : ∀ c, (run c).Unrefused)
include hrun

theorem callHook_unrefused (snap : Snapshot) (a : Addr) (h : Hook) : (callHook run snap a h).Unrefused := by
  refine .get_bind fun s hs => Work.Unrefused.bind (.set hs) fun _ => (hrun _).bind fun o => ?_
  split
  · exact fun _ _ => trivial
  · exact .pure _
  · exact .pure _

theorem dispatchRead_unrefused (snap : Snapshot) (a : Addr) (called : List Hook) :
    (dispatchRead run snap a called).Unrefused := by
  induction called with
  | nil => exact .pure _
  | cons h rest ih =>
    refine (callHook_unrefused hrun snap a h).bind fun o => ?_
    split
    · exact .pure _
    · exact ih
    · exact ih

theorem dispatchWrite_unrefused (snap : Snapshot) (a : Addr) (called : List Hook) :
    (dispatchWrite run snap a called).Unrefused := by
  induction called with
  | nil => exact .pure _
  | cons h rest ih => exact (callHook_unrefused hrun snap a h).bind fun _ => ih

theorem readWith_unrefused (k : HookKind) (snap : Snapshot) (a : Addr) : (readWith run k snap a).Unrefused := by
  refine .get_bind fun s _ => (dispatchRead_unrefused hrun snap a _).bind fun o => ?_
  split
  · exact .pure _
  · exact .get_bind fun _ _ => .pure _

theorem writeWith_unrefused (snap : Snapshot) (a : Addr) (v : Byte) : (writeWith run snap a v).Unrefused :=
  .get_bind fun _ hs => Work.Unrefused.bind (.set hs) fun _ => dispatchWrite_unrefused hrun snap a _

end

/-- A callback is refused only for a move the spec has not: a byte out of range, or a registration R55 refuses. -/
theorem runCallback_unrefused (n : Nat) (call : HookCall) : (runCallback n call).Unrefused := by
  induction n generalizing call with
  | zero => exact freeOutcome_unrefused call
  | succ n ih =>
    refine takeMove_bind_unrefused (freeOutcome_unrefused call) fun m hm => ?_
    cases m with
    | answer o => exact .pure _
    | read a =>
      dsimp only
      split
      · exact (nested_unrefused (readWith_unrefused ih _ _ _) _).bind fun _ => ih call
      · exact (reply_unrefused _).bind fun _ => ih call
    | write a v =>
      dsimp only
      split
      next ha =>
        have hv : v < 256 := by simpa [HostMove.admitted, Nat.not_le.mpr ha] using hm
        rw [if_pos hv]
        exact (nested_unrefused (writeWith_unrefused ih _ _ _) _).bind fun _ => ih call
      next => exact (reply_unrefused _).bind fun _ => ih call
    | register t k cb =>
      dsimp only
      split
      next => exact Work.Unrefused.bind (.modify fun _ => rfl) fun _ => ih call
      next => exact (reply_unrefused _).bind fun _ => ih call
      next hc => simp [HostMove.admitted, hc] at hm
    | remove hd => exact Work.Unrefused.bind (.modify fun _ => rfl) fun _ => ih call
    | registerSnapshot => exact Work.Unrefused.bind (.modify fun _ => rfl) fun _ => ih call
    | cycleCount => exact Work.Unrefused.bind (.modify fun _ => rfl) fun _ => ih call

/-! ## The CPU's accesses, the work of an instruction, the fetch -/

theorem logAccess_unrefused (acc : Access) : (logAccess acc).Unrefused :=
  .modify fun _ => rfl

theorem cpuRead_unrefused (a : Addr) : (cpuRead a).Unrefused :=
  (logAccess_unrefused _).bind fun _ => .get_bind fun _ _ => .get_bind fun _ _ =>
    readWith_unrefused (runCallback_unrefused _) _ _ a

theorem cpuFetch_unrefused (a : Addr) : (cpuFetch a).Unrefused :=
  (logAccess_unrefused _).bind fun _ => .get_bind fun _ _ => .get_bind fun _ _ =>
    readWith_unrefused (runCallback_unrefused _) _ _ a

theorem cpuWrite_unrefused (a : Addr) (v : Byte) : (cpuWrite a v).Unrefused :=
  (logAccess_unrefused _).bind fun _ => .get_bind fun _ _ => .get_bind fun _ _ =>
    writeWith_unrefused (runCallback_unrefused _) _ a v

theorem Work.FromOps.unrefused {w : Work α} (h : w.FromOps) : w.Unrefused := by
  induction h with
  | pure v => exact .pure v
  | bind _ _ ihw ihf => exact ihw.bind ihf
  | regs => exact .get_bind fun _ _ => .pure _
  | pc0 _ ih => exact .get_bind fun s _ => ih s.file.pc
  | modifyRegs f => exact .modify fun _ => rfl
  | emitIllegal op => exact .modify fun _ => rfl
  | cpuRead a => exact cpuRead_unrefused a
  | cpuWrite a v => exact cpuWrite_unrefused a v

theorem fetchOpcode_unrefused : fetchOpcode.Unrefused :=
  Work.FromOps.regs.unrefused.bind fun _ => (cpuFetch_unrefused _).bind fun _ =>
    Work.Unrefused.bind (.modify fun _ => rfl) fun _ => .bind (.modify fun _ => rfl) fun _ => .pure _

/-- The fetch reads as many operand bytes as the opcode byte's row counts, so what it has read decodes (R105, R133). -/
theorem fetchInstr_unrefused : fetchInstr.Unrefused := by
  refine fetchOpcode_unrefused.bind fun op =>
    (fetchOperands_fromOps _).unrefused.bind_of_ok fun operands s t hoperands => ?_
  obtain ⟨i, hdecode, -⟩ := decodeBytes_lookup (fetchOperands_length hoperands)
  rw [hdecode]
  exact .pure i

/-! ## The step -/

/-- Every instruction answers a next state. -/
theorem exec_answers (i : Instr) {s : State} (hs : s.HostAdmitted) : ∃ t, exec i s = .next t := by
  obtain ⟨w, hw, hops⟩ := exec_fromOps i s
  have hends := hops.unrefused s hs
  cases hres : w s with
  | ok p u => exact ⟨_, hw.trans (conclude_ok hres)⟩
  | error e u =>
    rw [hres] at hends
    cases e with
    | hookFailed hd a k => exact ⟨_, by rw [hw, conclude, Work.bind_error hres, endStep]⟩
    | refused r => exact hends.elim

theorem step_answers {s : State} (hrun : s.status = .running) (hs : s.HostAdmitted) : ∃ t, step s = .next t := by
  have hfetch := fetchInstr_unrefused s.begin hs
  rw [step_running hrun]
  cases hres : fetchInstr s.begin with
  | ok i u =>
    rw [hres] at hfetch
    exact exec_answers i hfetch
  | error e u =>
    rw [hres] at hfetch
    cases e with
    | hookFailed hd a k => exact ⟨_, rfl⟩
    | refused r => exact hfetch.elim

/-- Settles O12: no work of a step is refused, and what it leaves is committed, or has a fault raised. -/
theorem runningStepAlwaysAnswers : Obligations.RunningStepAlwaysAnswers := by
  intro s hrun hs
  obtain ⟨t, hstep⟩ := step_answers hrun hs
  obtain ⟨u, hran, hend⟩ := step_ends hstep
  have hu : u.status = .running := (hran _ stepRan_closed).status.trans hrun
  refine ⟨t, hstep, ?_⟩
  rcases hend with ⟨n, rfl⟩ | ⟨info, rfl⟩
  · exact .inl hu
  · exact .inr ⟨info, by rw [State.raise_status, hu, Status.withFault_running]⟩

end Sys2Proof.Machine
end

section
/-!
PROOFS. The cycle counter feeds nothing (10_state R32; 70_reset R466): all work of a step, with whatever hooks do in
it, runs from a higher count as it runs from the count, and leaves the count higher.
-/

namespace Sys2Proof.Machine

variable {α β : Type}

/-- The same result, leaving the count further on, however the work ended. -/
def leftFurther (k : Nat) : EStateM.Result Stop State α → EStateM.Result Stop State α
  | .ok v t => .ok v (t.addCycles k)
  | .error e t => .error e (t.addCycles k)

/-- Work in which the count has no part, but for what it gives a callback that asks for it. -/
def Work.CountBlind (w : Work α) : Prop :=
  ∀ k s, w (s.addCycles k) = leftFurther k (w s)

/-! ## Sequences -/

theorem Work.CountBlind.pure (v : α) : (Pure.pure v : Work α).CountBlind :=
  fun _ _ => rfl

theorem Work.CountBlind.throw (e : Stop) : (throw e : Work α).CountBlind :=
  fun _ _ => rfl

theorem Work.CountBlind.modify {f : State → State} (hf : ∀ k s, f (s.addCycles k) = (f s).addCycles k) :
    (modify f : Work PUnit).CountBlind :=
  fun k s => congrArg _ (hf k s)

theorem Work.CountBlind.bind {w : Work α} {f : α → Work β} (h : w.CountBlind) (hf : ∀ v, (f v).CountBlind) :
    (w >>= f).CountBlind := by
  intro k s
  have hw := h k s
  cases hres : w s with
  | ok v t =>
    rw [hres] at hw
    rw [Work.bind_ok hres, Work.bind_ok hw]
    exact hf v k t
  | error e t =>
    rw [hres] at hw
    rw [Work.bind_error hres, Work.bind_error hw]
    rfl

/-- Work that reads of the state what the count has no part in. -/
theorem Work.CountBlind.get_bind {f : State → Work β} (hf : ∀ s, (f s).CountBlind)
    (h : ∀ k s, f (s.addCycles k) = f s) : (get >>= f).CountBlind :=
  fun k s => (congrFun (h k s) _).trans (hf s k s)

/-- Work that reads the state and changes it first. -/
theorem Work.CountBlind.get_set_bind {g : State → State} {f : State → Work β}
    (hg : ∀ k s, g (s.addCycles k) = (g s).addCycles k) (hf : ∀ s, (f s).CountBlind)
    (h : ∀ k s, f (s.addCycles k) = f s) : (get >>= fun s => set (g s) >>= fun _ => f s).CountBlind := by
  intro k s
  show f (s.addCycles k) (g (s.addCycles k)) = _
  rw [h, hg]
  exact hf s k (g s)

/-! ## One callback -/

/-- A reply is as much further on as the state it is noted in. -/
theorem State.replied_addCycles (s : State) (r : HostReply) (k : Nat) :
    (s.replied r).addCycles k = (s.addCycles k).replied (r.addCycles k) := by
  simp [State.replied, State.addCycles]

theorem takeMove_countBlind : takeMove.CountBlind := by
  intro k s
  cases hh : s.host with
  | nil => simp [takeMove, leftFurther, State.addCycles, hh]
  | cons m rest => simp [takeMove, leftFurther, State.addCycles, hh]

theorem freeOutcome_countBlind (call : HookCall) : (freeOutcome call).CountBlind :=
  fun _ _ => rfl

/-- Noting a reply, after a change in which the count has no part. -/
theorem replied_countBlind {f : State → State} {r : State → HostReply}
    (hf : ∀ k s, f (s.addCycles k) = (f s).addCycles k) (hr : ∀ k s, r (s.addCycles k) = (r s).addCycles k) :
    (modify fun s => (f s).replied (r s) : Work PUnit).CountBlind :=
  .modify fun k s => by rw [hf, hr, State.replied_addCycles]

theorem nested_countBlind {w : Work α} (h : w.CountBlind) {answer : α → HostReply}
    (ha : ∀ k v, (answer v).addCycles k = answer v) : (nested w answer).CountBlind := by
  intro k s
  unfold nested
  rw [h k s]
  cases w s with
  | ok v t =>
    show _ = EStateM.Result.ok () ((t.replied (answer v)).addCycles k)
    rw [State.replied_addCycles, ha]
    rfl
  | error e t =>
    cases e with
    | hookFailed hd a kind => exact congrArg _ (State.replied_addCycles t (.executionFault hd a kind) k).symm
    | refused r => rfl

section
variable {run : HookCall → Work HookOutcome} (hrun : ∀ c, (run c).CountBlind)
include hrun

theorem callHook_countBlind (snap : Snapshot) (a : Addr) (h : Hook) : (callHook run snap a h).CountBlind := by
  refine .get_set_bind (fun _ _ => rfl) (fun s => (hrun _).bind fun o => ?_) fun _ _ => rfl
  split
  · exact .throw _
  · exact .pure _
  · exact .pure _

theorem dispatchRead_countBlind (snap : Snapshot) (a : Addr) (called : List Hook) :
    (dispatchRead run snap a called).CountBlind := by
  induction called with
  | nil => exact .pure _
  | cons h rest ih =>
    refine (callHook_countBlind hrun snap a h).bind fun o => ?_
    split
    · exact .pure _
    · exact ih
    · exact ih

theorem dispatchWrite_countBlind (snap : Snapshot) (a : Addr) (called : List Hook) :
    (dispatchWrite run snap a called).CountBlind := by
  induction called with
  | nil => exact .pure _
  | cons h rest ih => exact (callHook_countBlind hrun snap a h).bind fun _ => ih

theorem readWith_countBlind (k : HookKind) (snap : Snapshot) (a : Addr) : (readWith run k snap a).CountBlind := by
  refine .get_bind (fun s => (dispatchRead_countBlind hrun snap a _).bind fun o => ?_) fun _ _ => rfl
  split
  · exact .pure _
  · exact .get_bind (fun _ => .pure _) fun _ _ => rfl

theorem writeWith_countBlind (snap : Snapshot) (a : Addr) (v : Byte) : (writeWith run snap a v).CountBlind :=
  .get_set_bind (fun _ _ => rfl) (fun _ => dispatchWrite_countBlind hrun snap a _) fun _ _ => rfl

end

/-- Of a callback's moves `cycle_count()` alone reads the count, and its reply alone tells it. -/
theorem runCallback_countBlind (n : Nat) (call : HookCall) : (runCallback n call).CountBlind := by
  induction n generalizing call with
  | zero => exact freeOutcome_countBlind call
  | succ n ih =>
    have told {f : State → State} {r : State → HostReply} (hf : ∀ k s, f (s.addCycles k) = (f s).addCycles k)
        (hr : ∀ k s, r (s.addCycles k) = (r s).addCycles k) :=
      (replied_countBlind hf hr).bind fun _ => ih call
    refine takeMove_countBlind.bind fun m => ?_
    cases m with
    | none => exact freeOutcome_countBlind call
    | some m =>
      cases m with
      | answer o => exact .pure _
      | read a =>
        dsimp only
        split
        · exact (nested_countBlind (readWith_countBlind ih _ _ _) fun _ _ => rfl).bind fun _ => ih call
        · exact told (fun _ _ => rfl) fun _ _ => rfl
      | write a v =>
        dsimp only
        split
        · split
          · exact (nested_countBlind (writeWith_countBlind ih _ _ _) fun _ _ => rfl).bind fun _ => ih call
          · exact .throw _
        · exact told (fun _ _ => rfl) fun _ _ => rfl
      | register t k cb =>
        dsimp only
        split
        · exact told (fun _ _ => rfl) fun _ _ => rfl
        · exact told (fun _ _ => rfl) fun _ _ => rfl
        · exact .throw _
      | remove | registerSnapshot | cycleCount => exact told (fun _ _ => rfl) fun _ _ => rfl

/-! ## The CPU's accesses, the work of an instruction, the fetch -/

theorem logAccess_countBlind (acc : Access) : (logAccess acc).CountBlind :=
  fun _ _ => rfl

theorem cpuRead_countBlind (a : Addr) : (cpuRead a).CountBlind :=
  (logAccess_countBlind _).bind fun _ => .get_bind (fun _ => .get_bind
    (fun _ => readWith_countBlind (runCallback_countBlind _) _ _ a) fun _ _ => rfl) fun _ _ => rfl

theorem cpuFetch_countBlind (a : Addr) : (cpuFetch a).CountBlind :=
  (logAccess_countBlind _).bind fun _ => .get_bind (fun _ => .get_bind
    (fun _ => readWith_countBlind (runCallback_countBlind _) _ _ a) fun _ _ => rfl) fun _ _ => rfl

theorem cpuWrite_countBlind (a : Addr) (v : Byte) : (cpuWrite a v).CountBlind :=
  (logAccess_countBlind _).bind fun _ => .get_bind (fun _ => .get_bind
    (fun _ => writeWith_countBlind (runCallback_countBlind _) _ a v) fun _ _ => rfl) fun _ _ => rfl

theorem Work.FromOps.countBlind {w : Work α} (h : w.FromOps) : w.CountBlind := by
  induction h with
  | pure v => exact .pure v
  | bind _ _ ihw ihf => exact ihw.bind ihf
  | regs | modifyRegs | emitIllegal => exact fun _ _ => rfl
  | pc0 _ ih => exact .get_bind (fun s => ih s.file.pc) fun _ _ => rfl
  | cpuRead a => exact cpuRead_countBlind a
  | cpuWrite a v => exact cpuWrite_countBlind a v

theorem fetchOpcode_countBlind : fetchOpcode.CountBlind :=
  Work.FromOps.regs.countBlind.bind fun _ => (cpuFetch_countBlind _).bind fun _ =>
    Work.CountBlind.bind (.modify fun _ _ => rfl) fun _ => .bind (.modify fun _ _ => rfl) fun _ => .pure _

theorem fetchInstr_countBlind : fetchInstr.CountBlind := by
  refine fetchOpcode_countBlind.bind fun op => (fetchOperands_fromOps _).countBlind.bind fun operands => ?_
  split
  · exact .pure _
  · exact .throw _

/-! ## The step -/

theorem exec_fromOps_uniform_of_regWork {i : Instr} (h : ∀ s, exec i s = conclude i (regWork (i.regsAfter 0 0)) s) :
    ∃ w : Work Path, (∀ s, exec i s = conclude i w s) ∧ w.FromOps :=
  ⟨_, h, regWork_fromOps _⟩

/-- exec is the same piece of work in every state: JSR's reads the address it pushes. -/
theorem exec_fromOps_uniform (i : Instr) : ∃ w : Work Path, (∀ s, exec i s = conclude i w s) ∧ w.FromOps := by
  cases i with
  | lda | ldx | ldy | adc | sbc | cmp | cpx | cpy | and | ora | eor | bit =>
    exact ⟨_, fun _ => rfl, readWork_fromOps _ _⟩
  | sta | stx | sty => exact ⟨_, fun _ => rfl, storeWork_fromOps _ _⟩
  | inc | dec => exact ⟨_, fun _ => rfl, modifyWork_fromOps _ _⟩
  | asl | lsr | rol | ror => exact ⟨_, fun _ => rfl, shiftWork_fromOps _ _⟩
  | tax | tay | txa | tya | tsx | txs | inx | iny | dex | dey | clc | sec | cli | sei | cld | sed | clv =>
    exact exec_fromOps_uniform_of_regWork fun _ => rfl
  | bcc | bcs | beq | bne | bmi | bpl | bvc | bvs => exact ⟨_, fun _ => rfl, branchWork_fromOps _ _⟩
  | jmp m =>
    exact ⟨_, fun _ => rfl, .bind (jumpTarget_fromOps m) fun _ => .bind (setPc_fromOps _) fun _ => .pure _⟩
  | jsr w =>
    refine ⟨_, ?_, .pc0 (f := fun pc => do pushAddr (pc + 2); setPc w; pure {}) fun _ =>
      .bind (pushAddr_fromOps _) fun _ => .bind (setPc_fromOps w) fun _ => .pure _⟩
    exact fun _ => rfl
  | rts => exact ⟨_, fun _ => rfl, .bind pullAddr_fromOps fun _ => .bind (setPc_fromOps _) fun _ => .pure _⟩
  | brk => exact ⟨_, fun _ => rfl, .bind takeBreak_fromOps fun _ => .pure _⟩
  | rti => exact ⟨_, fun _ => rfl, .bind returnFromBreak_fromOps fun _ => .pure _⟩
  | nop => exact ⟨_, fun _ => rfl, .pure _⟩
  | pha | php => exact ⟨_, fun _ => rfl, .bind .regs fun _ => .bind (push_fromOps _) fun _ => .pure _⟩
  | pla | plp => exact ⟨_, fun _ => rfl, .bind pull_fromOps fun _ => .bind (.modifyRegs _) fun _ => .pure _⟩
  | illegal op => exact ⟨_, fun _ => rfl, .bind (.emitIllegal op) fun _ => .pure _⟩

theorem State.commit_addCycles (s : State) (k n : Nat) : (s.addCycles k).commit n = (s.commit n).addCycles k := by
  simp [State.commit, State.addCycles, Nat.add_right_comm]

/-- The commit adds to the count, and a fault leaves it: both ends keep how much higher it is. -/
theorem endStep_addCycles (k : Nat) (r : EStateM.Result Stop State Nat) :
    endStep (leftFurther k r) = mapNext (State.addCycles · k) (endStep r) := by
  cases r with
  | ok n t => exact congrArg _ (t.commit_addCycles k n)
  | error e t => cases e <;> rfl

theorem exec_addCycles (i : Instr) (s : State) (k : Nat) :
    exec i (s.addCycles k) = mapNext (State.addCycles · k) (exec i s) := by
  obtain ⟨w, hw, hops⟩ := exec_fromOps_uniform i
  rw [hw, hw, conclude, (hops.countBlind.bind fun p => .pure (i.cycles p)) k s]
  exact endStep_addCycles k _

theorem afterFetch_addCycles (k : Nat) (r : EStateM.Result Stop State Instr) :
    afterFetch exec (leftFurther k r) = mapNext (State.addCycles · k) (afterFetch exec r) := by
  cases r with
  | ok i t => exact exec_addCycles i t k
  | error e t => cases e <;> rfl

/-- Settles O18: neither the fetch nor the work of an instruction reads the count, and a step ends alike on both. -/
theorem cycleCountIsInert : Obligations.CycleCountIsInert := by
  intro s k
  cases hs : s.status with
  | unreset => rw [step_unreset hs, step_unreset (s := s.addCycles k) hs]; rfl
  | faulted info => rw [step_faulted hs, step_faulted (s := s.addCycles k) hs]; rfl
  | running =>
    rw [step_running hs, step_running (s := s.addCycles k) hs, ← afterFetch_addCycles,
      ← fetchInstr_countBlind k s.begin]
    rfl

end Sys2Proof.Machine
end

section
/-!
PROOFS. What a reset that returns leaves of memory and the registry, whatever hooks are registered (70_reset R452), and
a second reset after it (R451).
-/

namespace Sys2Proof.Machine

/-- A reset that returns was admitted, and its vector reads answered. -/
theorem resetCall_cases {p : ResetParams} {s t : State} (h : resetCall p s = .returned () t) :
    (s.status = .unreset ∨ s.status = .running) ∧ ∃ pc u,
      resetVector (RegFile.ofReset p 0xFFFC).snapshot { s with out := Output.empty } = .ok pc u
        ∧ t = u.afterReset p pc := by
  have hs : s.status = .unreset ∨ s.status = .running := by
    cases hs : s.status with
    | faulted info => cases (resetCall_faulted hs).symm.trans h
    | unreset => exact .inl rfl
    | running => exact .inr rfl
  rw [resetCall, if_pos (Status.admitsReset_of hs)] at h
  cases hv : resetVector (RegFile.ofReset p 0xFFFC).snapshot { s with out := Output.empty } with
  | ok pc u =>
    rw [hv] at h
    cases h
    exact ⟨hs, pc, u, rfl, rfl⟩
  | error e u =>
    rw [hv] at h
    cases e <;> cases h

/-- A reset with no hook registered. -/
theorem resetCall_quiet {p : ResetParams} {s : State} (hs : s.status = .unreset ∨ s.status = .running)
    (hq : s.Quiet) : resetCall p s = .returned ()
      ((({ s with out := Output.empty }.logged (.read 0xFFFC)).logged (.read 0xFFFD)).afterReset p
        (hiLo (s.mem.read 0xFFFD) (s.mem.read 0xFFFC))) :=
  resetCall_returned hs (resetVector_quiet (s := { s with out := Output.empty }) _ hq)

/-- Settles O56: a reset's only work is its two reads, and with no hook it makes of the state it left that
state again. -/
theorem resetKeepsMemoryAndIsIdempotent : Obligations.ResetKeepsMemoryAndIsIdempotent := by
  intro s t p h
  obtain ⟨hs, pc, u, hv, rfl⟩ := resetCall_cases h
  have hreads := resetVector_reads (RegFile.ofReset p 0xFFFC).snapshot
  have hleft := Work.leaves_of_ok hv
  refine ⟨fun a ha => ?_, fun hm => ?_, fun hq => ?_⟩
  · have hkept := hreads.keepsByte a { s with out := Output.empty }
    rw [hleft] at hkept
    exact hkept.2 ha
  · have hran := hreads _ stepRan_closed.toReadClosed { s with out := Output.empty }
    rw [hleft] at hran
    exact (hran.registry hm).1
  · obtain ⟨-, hstate⟩ := CallResult.returned.inj (h.symm.trans (resetCall_quiet hs hq))
    rw [hstate]
    exact resetCall_quiet (.inr rfl) hq

end Sys2Proof.Machine
end

section
/-!
PROOFS. The reset of a newly built block (70_reset R450, R453), and the invariant it starts the machine with.
-/

namespace Sys2Proof.Machine

/-- A newly built block has blank memory and no hooks (R453), and nothing under way. -/
theorem State.constructed_inv : State.constructed.Inv :=
  ⟨⟨rfl, .nil, List.forall_mem_nil _, List.forall_mem_nil _⟩, rfl, rfl⟩

/-- The vector of a newly built block reads as 0x0000, so its reset leaves PC there. -/
theorem resetCall_constructed : resetCall Config.resetDefaults State.constructed = .returned () State.reset :=
  resetCall_quiet (.inl rfl) rfl

/-- Settles O16: a reset is a host call, and it keeps the invariant the newly built block has. -/
theorem resetStateHasInvariant : Obligations.ResetStateHasInvariant := by
  have hleaves : (HostCall.reset Config.resetDefaults).leaves? State.constructed = some State.reset :=
    congrArg CallResult.state? resetCall_constructed
  exact ⟨resetCall_constructed, hostCallsKeepInvariant _ _ _ State.constructed_inv hleaves⟩

end Sys2Proof.Machine
end
